-- ==== Sys2Proof/Word.lean ====
section
/-! DEFINITION. The two widths of the machine (00_scope.md R7, R13): bytes (u8) and 16-bit words (u16). BitVec's own
addition and subtraction are the +8, -8, +16 and -16 of R13 (wrapping modulo 2^8 and 2^16). -/

namespace Sys2Proof

/-- A u8 (00_scope.md R13). -/
abbrev Byte := BitVec 8

/-- A u16 (00_scope.md R13). -/
abbrev Word := BitVec 16

end Sys2Proof
end

