-- ==== Sys2Proof/Syntax.lean ====
section
/-! DEFINITION. The instructions as syntax: the 13 addressing modes (30_encoding.md R87), the operands that carry
their instruction bytes, the 56 operations of 00_scope.md R2 with the undefined opcodes' operation (R86), the shape
record of the instruction table (R85), and Instr, one constructor per mnemonic of spec/opcode_table.json: an operation
with several rows takes its addressing form as an operand, so a row is a constructor at one form. -/

namespace Sys2Proof

/-- The 13 addressing modes (30_encoding.md R87). -/
inductive Mode where
  | implied | accumulator | immediate | relative
  | zeroPage | zeroPageX | zeroPageY
  | absolute | absoluteX | absoluteY
  | indirect | indirectX | indirectY
deriving DecidableEq, Repr

/-- An operand: its addressing mode with the operand bytes the mode takes from the instruction (R81, R87).
A 16-bit operand is already assembled from the bytes b1 (low) and b2 (high). -/
inductive Operand where
  | implied
  | accumulator
  | immediate (datum : Byte)
  | relative (displacement : Byte)
  | zeroPage (address : Byte)
  | zeroPageX (base : Byte)
  | zeroPageY (base : Byte)
  | absolute (address : Word)
  | absoluteX (base : Word)
  | absoluteY (base : Word)
  | indirect (pointer : Word)
  | indirectX (base : Byte)
  | indirectY (pointer : Byte)
deriving DecidableEq, Repr

/-- The mode an operand is written in. -/
def Operand.mode : Operand → Mode
  | .implied => .implied
  | .accumulator => .accumulator
  | .immediate _ => .immediate
  | .relative _ => .relative
  | .zeroPage _ => .zeroPage
  | .zeroPageX _ => .zeroPageX
  | .zeroPageY _ => .zeroPageY
  | .absolute _ => .absolute
  | .absoluteX _ => .absoluteX
  | .absoluteY _ => .absoluteY
  | .indirect _ => .indirect
  | .indirectX _ => .indirectX
  | .indirectY _ => .indirectY

/-- The operation kinds of a shape: the 56 operations (R2) and the undefined opcodes' operation (R85, R86). -/
inductive Operation where
  | lda | ldx | ldy | sta | stx | sty | adc | sbc
  | cmp | cpx | cpy | and | ora | eor | bit | asl
  | lsr | rol | ror | clc | cld | cli | clv | sec
  | sed | sei | tax | tay | txa | tya | tsx | txs
  | inx | iny | dex | dey | inc | dec | nop | bcc
  | bcs | beq | bne | bmi | bpl | bvc | bvs | jmp
  | jsr | rts | pha | php | pla | plp | brk | rti
  | unsupported
deriving DecidableEq, Repr

/-- A shape: what the instruction table says of an opcode byte (R85). -/
structure Shape where
  operation : Operation
  mode : Mode
  length : Nat
  cycles : Nat
deriving DecidableEq, Repr

/-- The instructions. `unsupported b` stands for the 105 rows marked UNSUPPORTED, one for each undefined byte b. -/
inductive Instr where
  /-- LDA: load the accumulator (R110). -/
  | lda (operand : Operand)
  /-- LDX: load X (R111). -/
  | ldx (operand : Operand)
  /-- LDY: load Y (R112). -/
  | ldy (operand : Operand)
  /-- STA: store the accumulator (R113). -/
  | sta (operand : Operand)
  /-- STX: store X (R114). -/
  | stx (operand : Operand)
  /-- STY: store Y (R115). -/
  | sty (operand : Operand)
  /-- ADC: add with carry (R123). -/
  | adc (operand : Operand)
  /-- SBC: subtract with carry (R124). -/
  | sbc (operand : Operand)
  /-- CMP: compare the accumulator (R125). -/
  | cmp (operand : Operand)
  /-- CPX: compare X (R126). -/
  | cpx (operand : Operand)
  /-- CPY: compare Y (R127). -/
  | cpy (operand : Operand)
  /-- AND: and with the accumulator (R140). -/
  | and (operand : Operand)
  /-- ORA: or with the accumulator (R141). -/
  | ora (operand : Operand)
  /-- EOR: exclusive or with the accumulator (R142). -/
  | eor (operand : Operand)
  /-- BIT: bit test (R143). -/
  | bit (operand : Operand)
  /-- ASL: arithmetic shift left (R144). -/
  | asl (operand : Operand)
  /-- LSR: logical shift right (R145). -/
  | lsr (operand : Operand)
  /-- ROL: rotate left through carry (R146). -/
  | rol (operand : Operand)
  /-- ROR: rotate right through carry (R147). -/
  | ror (operand : Operand)
  /-- CLC: clear C (R160). -/
  | clc
  /-- CLD: clear D (R161). -/
  | cld
  /-- CLI: clear I (R162). -/
  | cli
  /-- CLV: clear V (R163). -/
  | clv
  /-- SEC: set C (R164). -/
  | sec
  /-- SED: set D (R165). -/
  | sed
  /-- SEI: set I (R166). -/
  | sei
  /-- TAX: A to X (R167). -/
  | tax
  /-- TAY: A to Y (R168). -/
  | tay
  /-- TXA: X to A (R169). -/
  | txa
  /-- TYA: Y to A (R170). -/
  | tya
  /-- TSX: SP to X (R171). -/
  | tsx
  /-- TXS: X to SP (R172). -/
  | txs
  /-- INX: increment X (R173). -/
  | inx
  /-- INY: increment Y (R174). -/
  | iny
  /-- DEX: decrement X (R175). -/
  | dex
  /-- DEY: decrement Y (R176). -/
  | dey
  /-- INC: increment memory (R177). -/
  | inc (operand : Operand)
  /-- DEC: decrement memory (R178). -/
  | dec (operand : Operand)
  /-- NOP: no operation (R179). -/
  | nop
  /-- BCC: branch if C clear (R196). -/
  | bcc (displacement : Byte)
  /-- BCS: branch if C set (R197). -/
  | bcs (displacement : Byte)
  /-- BEQ: branch if Z set (R198). -/
  | beq (displacement : Byte)
  /-- BNE: branch if Z clear (R199). -/
  | bne (displacement : Byte)
  /-- BMI: branch if N set (R200). -/
  | bmi (displacement : Byte)
  /-- BPL: branch if N clear (R201). -/
  | bpl (displacement : Byte)
  /-- BVC: branch if V clear (R202). -/
  | bvc (displacement : Byte)
  /-- BVS: branch if V set (R203). -/
  | bvs (displacement : Byte)
  /-- JMP: jump (R204). -/
  | jmp (operand : Operand)
  /-- JSR: jump to subroutine (R205). -/
  | jsr (address : Word)
  /-- RTS: return from subroutine (R206). -/
  | rts
  /-- PHA: push the accumulator (R207). -/
  | pha
  /-- PHP: push the status (R208). -/
  | php
  /-- PLA: pull the accumulator (R209). -/
  | pla
  /-- PLP: pull the status (R210). -/
  | plp
  /-- BRK: break (R211). -/
  | brk
  /-- RTI: return from interrupt (R212). -/
  | rti
  /-- UNSUPPORTED: an undefined opcode byte (R86, R234). -/
  | unsupported (opcode : Byte)
deriving DecidableEq, Repr

/-- The operation of an instruction. -/
def Instr.operation : Instr → Operation
  | .lda _ => .lda
  | .ldx _ => .ldx
  | .ldy _ => .ldy
  | .sta _ => .sta
  | .stx _ => .stx
  | .sty _ => .sty
  | .adc _ => .adc
  | .sbc _ => .sbc
  | .cmp _ => .cmp
  | .cpx _ => .cpx
  | .cpy _ => .cpy
  | .and _ => .and
  | .ora _ => .ora
  | .eor _ => .eor
  | .bit _ => .bit
  | .asl _ => .asl
  | .lsr _ => .lsr
  | .rol _ => .rol
  | .ror _ => .ror
  | .clc => .clc
  | .cld => .cld
  | .cli => .cli
  | .clv => .clv
  | .sec => .sec
  | .sed => .sed
  | .sei => .sei
  | .tax => .tax
  | .tay => .tay
  | .txa => .txa
  | .tya => .tya
  | .tsx => .tsx
  | .txs => .txs
  | .inx => .inx
  | .iny => .iny
  | .dex => .dex
  | .dey => .dey
  | .inc _ => .inc
  | .dec _ => .dec
  | .nop => .nop
  | .bcc _ => .bcc
  | .bcs _ => .bcs
  | .beq _ => .beq
  | .bne _ => .bne
  | .bmi _ => .bmi
  | .bpl _ => .bpl
  | .bvc _ => .bvc
  | .bvs _ => .bvs
  | .jmp _ => .jmp
  | .jsr _ => .jsr
  | .rts => .rts
  | .pha => .pha
  | .php => .php
  | .pla => .pla
  | .plp => .plp
  | .brk => .brk
  | .rti => .rti
  | .unsupported _ => .unsupported

/-- The operand of an instruction; the operations of one fixed mode have that mode's. -/
def Instr.operand : Instr → Operand
  | .lda o => o
  | .ldx o => o
  | .ldy o => o
  | .sta o => o
  | .stx o => o
  | .sty o => o
  | .adc o => o
  | .sbc o => o
  | .cmp o => o
  | .cpx o => o
  | .cpy o => o
  | .and o => o
  | .ora o => o
  | .eor o => o
  | .bit o => o
  | .asl o => o
  | .lsr o => o
  | .rol o => o
  | .ror o => o
  | .clc => .implied
  | .cld => .implied
  | .cli => .implied
  | .clv => .implied
  | .sec => .implied
  | .sed => .implied
  | .sei => .implied
  | .tax => .implied
  | .tay => .implied
  | .txa => .implied
  | .tya => .implied
  | .tsx => .implied
  | .txs => .implied
  | .inx => .implied
  | .iny => .implied
  | .dex => .implied
  | .dey => .implied
  | .inc o => o
  | .dec o => o
  | .nop => .implied
  | .bcc d => .relative d
  | .bcs d => .relative d
  | .beq d => .relative d
  | .bne d => .relative d
  | .bmi d => .relative d
  | .bpl d => .relative d
  | .bvc d => .relative d
  | .bvs d => .relative d
  | .jmp o => o
  | .jsr a => .absolute a
  | .rts => .implied
  | .pha => .implied
  | .php => .implied
  | .pla => .implied
  | .plp => .implied
  | .brk => .implied
  | .rti => .implied
  | .unsupported _ => .implied

end Sys2Proof
end

