-- ==== Sys2Proof/Decode.lean ====
section
/-! DEFINITION. From bytes to an instruction: the instruction table of 30_encoding.md R106 (lookup, R84, total by R86),
the length of a mode (R87), the operand bytes (R80, R81), and decode, total on any bytes and rejecting by name. After
it the encoder, written from the 'Operands' lines of the instruction rules and not from the table. Last, the host's
decodeTableWord. -/

namespace Sys2Proof

/-! ## Byte order of a 16-bit quantity (20_memory.md R53, 00_scope.md R13) -/

/-- `{high, low}` of R13. -/
def joinBytes (high low : Byte) : Word := high ++ low

/-- `w[7:0]`. -/
def lowByte (w : Word) : Byte := w.extractLsb' 0 8

/-- `w[15:8]`. -/
def highByte (w : Word) : Byte := w.extractLsb' 8 8

/-! ## The instruction table -/

/-- ModeLength (R87). -/
def Mode.length : Mode → Nat
  | .implied => 1
  | .accumulator => 1
  | .immediate => 2
  | .relative => 2
  | .zeroPage => 2
  | .zeroPageX => 2
  | .zeroPageY => 2
  | .absolute => 3
  | .absoluteX => 3
  | .absoluteY => 3
  | .indirect => 3
  | .indirectX => 2
  | .indirectY => 2

/-- The length of an instruction with this operand, in bytes (R80). -/
def Operand.length (o : Operand) : Nat := o.mode.length

/-- The defined opcodes 0x00 to 0x0F (R106). -/
def tableRow0 : List (Nat × Shape) :=
  [(0x00, ⟨.brk, .implied, 1, 7⟩),
   (0x01, ⟨.ora, .indirectX, 2, 6⟩),
   (0x05, ⟨.ora, .zeroPage, 2, 3⟩),
   (0x06, ⟨.asl, .zeroPage, 2, 5⟩),
   (0x08, ⟨.php, .implied, 1, 3⟩),
   (0x09, ⟨.ora, .immediate, 2, 2⟩),
   (0x0A, ⟨.asl, .accumulator, 1, 2⟩),
   (0x0D, ⟨.ora, .absolute, 3, 4⟩),
   (0x0E, ⟨.asl, .absolute, 3, 6⟩)]

/-- The defined opcodes 0x10 to 0x1F (R106). -/
def tableRow1 : List (Nat × Shape) :=
  [(0x10, ⟨.bpl, .relative, 2, 2⟩),
   (0x11, ⟨.ora, .indirectY, 2, 5⟩),
   (0x15, ⟨.ora, .zeroPageX, 2, 4⟩),
   (0x16, ⟨.asl, .zeroPageX, 2, 6⟩),
   (0x18, ⟨.clc, .implied, 1, 2⟩),
   (0x19, ⟨.ora, .absoluteY, 3, 4⟩),
   (0x1D, ⟨.ora, .absoluteX, 3, 4⟩),
   (0x1E, ⟨.asl, .absoluteX, 3, 7⟩)]

/-- The defined opcodes 0x20 to 0x2F (R106). -/
def tableRow2 : List (Nat × Shape) :=
  [(0x20, ⟨.jsr, .absolute, 3, 6⟩),
   (0x21, ⟨.and, .indirectX, 2, 6⟩),
   (0x24, ⟨.bit, .zeroPage, 2, 3⟩),
   (0x25, ⟨.and, .zeroPage, 2, 3⟩),
   (0x26, ⟨.rol, .zeroPage, 2, 5⟩),
   (0x28, ⟨.plp, .implied, 1, 4⟩),
   (0x29, ⟨.and, .immediate, 2, 2⟩),
   (0x2A, ⟨.rol, .accumulator, 1, 2⟩),
   (0x2C, ⟨.bit, .absolute, 3, 4⟩),
   (0x2D, ⟨.and, .absolute, 3, 4⟩),
   (0x2E, ⟨.rol, .absolute, 3, 6⟩)]

/-- The defined opcodes 0x30 to 0x3F (R106). -/
def tableRow3 : List (Nat × Shape) :=
  [(0x30, ⟨.bmi, .relative, 2, 2⟩),
   (0x31, ⟨.and, .indirectY, 2, 5⟩),
   (0x35, ⟨.and, .zeroPageX, 2, 4⟩),
   (0x36, ⟨.rol, .zeroPageX, 2, 6⟩),
   (0x38, ⟨.sec, .implied, 1, 2⟩),
   (0x39, ⟨.and, .absoluteY, 3, 4⟩),
   (0x3D, ⟨.and, .absoluteX, 3, 4⟩),
   (0x3E, ⟨.rol, .absoluteX, 3, 7⟩)]

/-- The defined opcodes 0x40 to 0x4F (R106). -/
def tableRow4 : List (Nat × Shape) :=
  [(0x40, ⟨.rti, .implied, 1, 6⟩),
   (0x41, ⟨.eor, .indirectX, 2, 6⟩),
   (0x45, ⟨.eor, .zeroPage, 2, 3⟩),
   (0x46, ⟨.lsr, .zeroPage, 2, 5⟩),
   (0x48, ⟨.pha, .implied, 1, 3⟩),
   (0x49, ⟨.eor, .immediate, 2, 2⟩),
   (0x4A, ⟨.lsr, .accumulator, 1, 2⟩),
   (0x4C, ⟨.jmp, .absolute, 3, 3⟩),
   (0x4D, ⟨.eor, .absolute, 3, 4⟩),
   (0x4E, ⟨.lsr, .absolute, 3, 6⟩)]

/-- The defined opcodes 0x50 to 0x5F (R106). -/
def tableRow5 : List (Nat × Shape) :=
  [(0x50, ⟨.bvc, .relative, 2, 2⟩),
   (0x51, ⟨.eor, .indirectY, 2, 5⟩),
   (0x55, ⟨.eor, .zeroPageX, 2, 4⟩),
   (0x56, ⟨.lsr, .zeroPageX, 2, 6⟩),
   (0x58, ⟨.cli, .implied, 1, 2⟩),
   (0x59, ⟨.eor, .absoluteY, 3, 4⟩),
   (0x5D, ⟨.eor, .absoluteX, 3, 4⟩),
   (0x5E, ⟨.lsr, .absoluteX, 3, 7⟩)]

/-- The defined opcodes 0x60 to 0x6F (R106). -/
def tableRow6 : List (Nat × Shape) :=
  [(0x60, ⟨.rts, .implied, 1, 6⟩),
   (0x61, ⟨.adc, .indirectX, 2, 6⟩),
   (0x65, ⟨.adc, .zeroPage, 2, 3⟩),
   (0x66, ⟨.ror, .zeroPage, 2, 5⟩),
   (0x68, ⟨.pla, .implied, 1, 4⟩),
   (0x69, ⟨.adc, .immediate, 2, 2⟩),
   (0x6A, ⟨.ror, .accumulator, 1, 2⟩),
   (0x6C, ⟨.jmp, .indirect, 3, 5⟩),
   (0x6D, ⟨.adc, .absolute, 3, 4⟩),
   (0x6E, ⟨.ror, .absolute, 3, 6⟩)]

/-- The defined opcodes 0x70 to 0x7F (R106). -/
def tableRow7 : List (Nat × Shape) :=
  [(0x70, ⟨.bvs, .relative, 2, 2⟩),
   (0x71, ⟨.adc, .indirectY, 2, 5⟩),
   (0x75, ⟨.adc, .zeroPageX, 2, 4⟩),
   (0x76, ⟨.ror, .zeroPageX, 2, 6⟩),
   (0x78, ⟨.sei, .implied, 1, 2⟩),
   (0x79, ⟨.adc, .absoluteY, 3, 4⟩),
   (0x7D, ⟨.adc, .absoluteX, 3, 4⟩),
   (0x7E, ⟨.ror, .absoluteX, 3, 7⟩)]

/-- The defined opcodes 0x80 to 0x8F (R106). -/
def tableRow8 : List (Nat × Shape) :=
  [(0x81, ⟨.sta, .indirectX, 2, 6⟩),
   (0x84, ⟨.sty, .zeroPage, 2, 3⟩),
   (0x85, ⟨.sta, .zeroPage, 2, 3⟩),
   (0x86, ⟨.stx, .zeroPage, 2, 3⟩),
   (0x88, ⟨.dey, .implied, 1, 2⟩),
   (0x8A, ⟨.txa, .implied, 1, 2⟩),
   (0x8C, ⟨.sty, .absolute, 3, 4⟩),
   (0x8D, ⟨.sta, .absolute, 3, 4⟩),
   (0x8E, ⟨.stx, .absolute, 3, 4⟩)]

/-- The defined opcodes 0x90 to 0x9F (R106). -/
def tableRow9 : List (Nat × Shape) :=
  [(0x90, ⟨.bcc, .relative, 2, 2⟩),
   (0x91, ⟨.sta, .indirectY, 2, 6⟩),
   (0x94, ⟨.sty, .zeroPageX, 2, 4⟩),
   (0x95, ⟨.sta, .zeroPageX, 2, 4⟩),
   (0x96, ⟨.stx, .zeroPageY, 2, 4⟩),
   (0x98, ⟨.tya, .implied, 1, 2⟩),
   (0x99, ⟨.sta, .absoluteY, 3, 5⟩),
   (0x9A, ⟨.txs, .implied, 1, 2⟩),
   (0x9D, ⟨.sta, .absoluteX, 3, 5⟩)]

/-- The defined opcodes 0xA0 to 0xAF (R106). -/
def tableRowA : List (Nat × Shape) :=
  [(0xA0, ⟨.ldy, .immediate, 2, 2⟩),
   (0xA1, ⟨.lda, .indirectX, 2, 6⟩),
   (0xA2, ⟨.ldx, .immediate, 2, 2⟩),
   (0xA4, ⟨.ldy, .zeroPage, 2, 3⟩),
   (0xA5, ⟨.lda, .zeroPage, 2, 3⟩),
   (0xA6, ⟨.ldx, .zeroPage, 2, 3⟩),
   (0xA8, ⟨.tay, .implied, 1, 2⟩),
   (0xA9, ⟨.lda, .immediate, 2, 2⟩),
   (0xAA, ⟨.tax, .implied, 1, 2⟩),
   (0xAC, ⟨.ldy, .absolute, 3, 4⟩),
   (0xAD, ⟨.lda, .absolute, 3, 4⟩),
   (0xAE, ⟨.ldx, .absolute, 3, 4⟩)]

/-- The defined opcodes 0xB0 to 0xBF (R106). -/
def tableRowB : List (Nat × Shape) :=
  [(0xB0, ⟨.bcs, .relative, 2, 2⟩),
   (0xB1, ⟨.lda, .indirectY, 2, 5⟩),
   (0xB4, ⟨.ldy, .zeroPageX, 2, 4⟩),
   (0xB5, ⟨.lda, .zeroPageX, 2, 4⟩),
   (0xB6, ⟨.ldx, .zeroPageY, 2, 4⟩),
   (0xB8, ⟨.clv, .implied, 1, 2⟩),
   (0xB9, ⟨.lda, .absoluteY, 3, 4⟩),
   (0xBA, ⟨.tsx, .implied, 1, 2⟩),
   (0xBC, ⟨.ldy, .absoluteX, 3, 4⟩),
   (0xBD, ⟨.lda, .absoluteX, 3, 4⟩),
   (0xBE, ⟨.ldx, .absoluteY, 3, 4⟩)]

/-- The defined opcodes 0xC0 to 0xCF (R106). -/
def tableRowC : List (Nat × Shape) :=
  [(0xC0, ⟨.cpy, .immediate, 2, 2⟩),
   (0xC1, ⟨.cmp, .indirectX, 2, 6⟩),
   (0xC4, ⟨.cpy, .zeroPage, 2, 3⟩),
   (0xC5, ⟨.cmp, .zeroPage, 2, 3⟩),
   (0xC6, ⟨.dec, .zeroPage, 2, 5⟩),
   (0xC8, ⟨.iny, .implied, 1, 2⟩),
   (0xC9, ⟨.cmp, .immediate, 2, 2⟩),
   (0xCA, ⟨.dex, .implied, 1, 2⟩),
   (0xCC, ⟨.cpy, .absolute, 3, 4⟩),
   (0xCD, ⟨.cmp, .absolute, 3, 4⟩),
   (0xCE, ⟨.dec, .absolute, 3, 6⟩)]

/-- The defined opcodes 0xD0 to 0xDF (R106). -/
def tableRowD : List (Nat × Shape) :=
  [(0xD0, ⟨.bne, .relative, 2, 2⟩),
   (0xD1, ⟨.cmp, .indirectY, 2, 5⟩),
   (0xD5, ⟨.cmp, .zeroPageX, 2, 4⟩),
   (0xD6, ⟨.dec, .zeroPageX, 2, 6⟩),
   (0xD8, ⟨.cld, .implied, 1, 2⟩),
   (0xD9, ⟨.cmp, .absoluteY, 3, 4⟩),
   (0xDD, ⟨.cmp, .absoluteX, 3, 4⟩),
   (0xDE, ⟨.dec, .absoluteX, 3, 7⟩)]

/-- The defined opcodes 0xE0 to 0xEF (R106). -/
def tableRowE : List (Nat × Shape) :=
  [(0xE0, ⟨.cpx, .immediate, 2, 2⟩),
   (0xE1, ⟨.sbc, .indirectX, 2, 6⟩),
   (0xE4, ⟨.cpx, .zeroPage, 2, 3⟩),
   (0xE5, ⟨.sbc, .zeroPage, 2, 3⟩),
   (0xE6, ⟨.inc, .zeroPage, 2, 5⟩),
   (0xE8, ⟨.inx, .implied, 1, 2⟩),
   (0xE9, ⟨.sbc, .immediate, 2, 2⟩),
   (0xEA, ⟨.nop, .implied, 1, 2⟩),
   (0xEC, ⟨.cpx, .absolute, 3, 4⟩),
   (0xED, ⟨.sbc, .absolute, 3, 4⟩),
   (0xEE, ⟨.inc, .absolute, 3, 6⟩)]

/-- The defined opcodes 0xF0 to 0xFF (R106). -/
def tableRowF : List (Nat × Shape) :=
  [(0xF0, ⟨.beq, .relative, 2, 2⟩),
   (0xF1, ⟨.sbc, .indirectY, 2, 5⟩),
   (0xF5, ⟨.sbc, .zeroPageX, 2, 4⟩),
   (0xF6, ⟨.inc, .zeroPageX, 2, 6⟩),
   (0xF8, ⟨.sed, .implied, 1, 2⟩),
   (0xF9, ⟨.sbc, .absoluteY, 3, 4⟩),
   (0xFD, ⟨.sbc, .absoluteX, 3, 4⟩),
   (0xFE, ⟨.inc, .absoluteX, 3, 7⟩)]

/-- The defined opcodes of one row of the opcode grid (R107): the high nibble of the byte is the row. -/
def tableRow : Nat → List (Nat × Shape)
  | 0 => tableRow0
  | 1 => tableRow1
  | 2 => tableRow2
  | 3 => tableRow3
  | 4 => tableRow4
  | 5 => tableRow5
  | 6 => tableRow6
  | 7 => tableRow7
  | 8 => tableRow8
  | 9 => tableRow9
  | 10 => tableRowA
  | 11 => tableRowB
  | 12 => tableRowC
  | 13 => tableRowD
  | 14 => tableRowE
  | 15 => tableRowF
  | _ => []

/-- The shape of every undefined opcode (R86). -/
def unsupportedShape : Shape := ⟨.unsupported, .implied, 1, 0⟩

/-- `Lookup` (R84): total over the 256 byte values. -/
def lookup (opcode : Byte) : Shape :=
  ((tableRow (opcode.toNat / 16)).lookup opcode.toNat).getD unsupportedShape

/-! ## Decoding -/

/-- Why bytes are not an instruction. With the table of R106 only `noBytes` and `truncated` occur, and a fetch of
`shape.length` bytes meets neither (R88, R103). -/
inductive DecodeError where
  /-- There is not even an opcode byte. -/
  | noBytes
  /-- Fewer operand bytes than the mode takes (R88). -/
  | truncated
  /-- The table pairs an operation with a mode it does not take (R103). -/
  | modeMismatch
deriving DecidableEq, Repr

/-- The operand of a mode, from the bytes after the opcode, with the bytes left over (R81, R87). -/
def decodeOperand : Mode → List Byte → Except DecodeError (Operand × List Byte)
  | .implied, rest => .ok (.implied, rest)
  | .accumulator, rest => .ok (.accumulator, rest)
  | .immediate, b1 :: rest => .ok (.immediate b1, rest)
  | .relative, b1 :: rest => .ok (.relative b1, rest)
  | .zeroPage, b1 :: rest => .ok (.zeroPage b1, rest)
  | .zeroPageX, b1 :: rest => .ok (.zeroPageX b1, rest)
  | .zeroPageY, b1 :: rest => .ok (.zeroPageY b1, rest)
  | .absolute, b1 :: b2 :: rest => .ok (.absolute (joinBytes b2 b1), rest)
  | .absoluteX, b1 :: b2 :: rest => .ok (.absoluteX (joinBytes b2 b1), rest)
  | .absoluteY, b1 :: b2 :: rest => .ok (.absoluteY (joinBytes b2 b1), rest)
  | .indirect, b1 :: b2 :: rest => .ok (.indirect (joinBytes b2 b1), rest)
  | .indirectX, b1 :: rest => .ok (.indirectX b1, rest)
  | .indirectY, b1 :: rest => .ok (.indirectY b1, rest)
  | _, _ => .error .truncated

/-- An instruction without an operand. -/
def withImplied (i : Instr) : Operand → Except DecodeError Instr
  | .implied => .ok i
  | _ => .error .modeMismatch

/-- An instruction whose only mode is Relative. -/
def withRelative (i : Byte → Instr) : Operand → Except DecodeError Instr
  | .relative d => .ok (i d)
  | _ => .error .modeMismatch

/-- An instruction whose only mode is Absolute. -/
def withAbsolute (i : Word → Instr) : Operand → Except DecodeError Instr
  | .absolute a => .ok (i a)
  | _ => .error .modeMismatch

/-- The instruction of an operation and an operand; `opcode` is kept for an undefined byte only (R86). -/
def assemble (opcode : Byte) (o : Operand) : Operation → Except DecodeError Instr
  | .lda => .ok (.lda o)
  | .ldx => .ok (.ldx o)
  | .ldy => .ok (.ldy o)
  | .sta => .ok (.sta o)
  | .stx => .ok (.stx o)
  | .sty => .ok (.sty o)
  | .adc => .ok (.adc o)
  | .sbc => .ok (.sbc o)
  | .cmp => .ok (.cmp o)
  | .cpx => .ok (.cpx o)
  | .cpy => .ok (.cpy o)
  | .and => .ok (.and o)
  | .ora => .ok (.ora o)
  | .eor => .ok (.eor o)
  | .bit => .ok (.bit o)
  | .asl => .ok (.asl o)
  | .lsr => .ok (.lsr o)
  | .rol => .ok (.rol o)
  | .ror => .ok (.ror o)
  | .clc => withImplied .clc o
  | .cld => withImplied .cld o
  | .cli => withImplied .cli o
  | .clv => withImplied .clv o
  | .sec => withImplied .sec o
  | .sed => withImplied .sed o
  | .sei => withImplied .sei o
  | .tax => withImplied .tax o
  | .tay => withImplied .tay o
  | .txa => withImplied .txa o
  | .tya => withImplied .tya o
  | .tsx => withImplied .tsx o
  | .txs => withImplied .txs o
  | .inx => withImplied .inx o
  | .iny => withImplied .iny o
  | .dex => withImplied .dex o
  | .dey => withImplied .dey o
  | .inc => .ok (.inc o)
  | .dec => .ok (.dec o)
  | .nop => withImplied .nop o
  | .bcc => withRelative .bcc o
  | .bcs => withRelative .bcs o
  | .beq => withRelative .beq o
  | .bne => withRelative .bne o
  | .bmi => withRelative .bmi o
  | .bpl => withRelative .bpl o
  | .bvc => withRelative .bvc o
  | .bvs => withRelative .bvs o
  | .jmp => .ok (.jmp o)
  | .jsr => withAbsolute .jsr o
  | .rts => withImplied .rts o
  | .pha => withImplied .pha o
  | .php => withImplied .php o
  | .pla => withImplied .pla o
  | .plp => withImplied .plp o
  | .brk => withImplied .brk o
  | .rti => withImplied .rti o
  | .unsupported => withImplied (.unsupported opcode) o

/-- The first instruction of a list of bytes, with the bytes after it. -/
def decode : List Byte → Except DecodeError (Instr × List Byte)
  | [] => .error .noBytes
  | opcode :: rest =>
    match decodeOperand (lookup opcode).mode rest with
    | .error e => .error e
    | .ok (o, rest') =>
      match assemble opcode o (lookup opcode).operation with
      | .error e => .error e
      | .ok i => .ok (i, rest')

/-! ## Encoding -/

/-- The modes of an operation with their opcode bytes: the 'Operands' line of the operation's own rule (R110 to
R212), as the rule lists them. -/
def Operation.opcodes : Operation → List (Mode × Byte)
  | .lda => [(.immediate, 0xA9), (.zeroPage, 0xA5), (.zeroPageX, 0xB5), (.absolute, 0xAD), (.absoluteX, 0xBD), (.absoluteY, 0xB9), (.indirectX, 0xA1), (.indirectY, 0xB1)]
  | .ldx => [(.immediate, 0xA2), (.zeroPage, 0xA6), (.zeroPageY, 0xB6), (.absolute, 0xAE), (.absoluteY, 0xBE)]
  | .ldy => [(.immediate, 0xA0), (.zeroPage, 0xA4), (.zeroPageX, 0xB4), (.absolute, 0xAC), (.absoluteX, 0xBC)]
  | .sta => [(.zeroPage, 0x85), (.zeroPageX, 0x95), (.absolute, 0x8D), (.absoluteX, 0x9D), (.absoluteY, 0x99), (.indirectX, 0x81), (.indirectY, 0x91)]
  | .stx => [(.zeroPage, 0x86), (.zeroPageY, 0x96), (.absolute, 0x8E)]
  | .sty => [(.zeroPage, 0x84), (.zeroPageX, 0x94), (.absolute, 0x8C)]
  | .adc => [(.immediate, 0x69), (.zeroPage, 0x65), (.zeroPageX, 0x75), (.absolute, 0x6D), (.absoluteX, 0x7D), (.absoluteY, 0x79), (.indirectX, 0x61), (.indirectY, 0x71)]
  | .sbc => [(.immediate, 0xE9), (.zeroPage, 0xE5), (.zeroPageX, 0xF5), (.absolute, 0xED), (.absoluteX, 0xFD), (.absoluteY, 0xF9), (.indirectX, 0xE1), (.indirectY, 0xF1)]
  | .cmp => [(.immediate, 0xC9), (.zeroPage, 0xC5), (.zeroPageX, 0xD5), (.absolute, 0xCD), (.absoluteX, 0xDD), (.absoluteY, 0xD9), (.indirectX, 0xC1), (.indirectY, 0xD1)]
  | .cpx => [(.immediate, 0xE0), (.zeroPage, 0xE4), (.absolute, 0xEC)]
  | .cpy => [(.immediate, 0xC0), (.zeroPage, 0xC4), (.absolute, 0xCC)]
  | .and => [(.immediate, 0x29), (.zeroPage, 0x25), (.zeroPageX, 0x35), (.absolute, 0x2D), (.absoluteX, 0x3D), (.absoluteY, 0x39), (.indirectX, 0x21), (.indirectY, 0x31)]
  | .ora => [(.immediate, 0x09), (.zeroPage, 0x05), (.zeroPageX, 0x15), (.absolute, 0x0D), (.absoluteX, 0x1D), (.absoluteY, 0x19), (.indirectX, 0x01), (.indirectY, 0x11)]
  | .eor => [(.immediate, 0x49), (.zeroPage, 0x45), (.zeroPageX, 0x55), (.absolute, 0x4D), (.absoluteX, 0x5D), (.absoluteY, 0x59), (.indirectX, 0x41), (.indirectY, 0x51)]
  | .bit => [(.zeroPage, 0x24), (.absolute, 0x2C)]
  | .asl => [(.accumulator, 0x0A), (.zeroPage, 0x06), (.zeroPageX, 0x16), (.absolute, 0x0E), (.absoluteX, 0x1E)]
  | .lsr => [(.accumulator, 0x4A), (.zeroPage, 0x46), (.zeroPageX, 0x56), (.absolute, 0x4E), (.absoluteX, 0x5E)]
  | .rol => [(.accumulator, 0x2A), (.zeroPage, 0x26), (.zeroPageX, 0x36), (.absolute, 0x2E), (.absoluteX, 0x3E)]
  | .ror => [(.accumulator, 0x6A), (.zeroPage, 0x66), (.zeroPageX, 0x76), (.absolute, 0x6E), (.absoluteX, 0x7E)]
  | .clc => [(.implied, 0x18)]
  | .cld => [(.implied, 0xD8)]
  | .cli => [(.implied, 0x58)]
  | .clv => [(.implied, 0xB8)]
  | .sec => [(.implied, 0x38)]
  | .sed => [(.implied, 0xF8)]
  | .sei => [(.implied, 0x78)]
  | .tax => [(.implied, 0xAA)]
  | .tay => [(.implied, 0xA8)]
  | .txa => [(.implied, 0x8A)]
  | .tya => [(.implied, 0x98)]
  | .tsx => [(.implied, 0xBA)]
  | .txs => [(.implied, 0x9A)]
  | .inx => [(.implied, 0xE8)]
  | .iny => [(.implied, 0xC8)]
  | .dex => [(.implied, 0xCA)]
  | .dey => [(.implied, 0x88)]
  | .inc => [(.zeroPage, 0xE6), (.zeroPageX, 0xF6), (.absolute, 0xEE), (.absoluteX, 0xFE)]
  | .dec => [(.zeroPage, 0xC6), (.zeroPageX, 0xD6), (.absolute, 0xCE), (.absoluteX, 0xDE)]
  | .nop => [(.implied, 0xEA)]
  | .bcc => [(.relative, 0x90)]
  | .bcs => [(.relative, 0xB0)]
  | .beq => [(.relative, 0xF0)]
  | .bne => [(.relative, 0xD0)]
  | .bmi => [(.relative, 0x30)]
  | .bpl => [(.relative, 0x10)]
  | .bvc => [(.relative, 0x50)]
  | .bvs => [(.relative, 0x70)]
  | .jmp => [(.absolute, 0x4C), (.indirect, 0x6C)]
  | .jsr => [(.absolute, 0x20)]
  | .rts => [(.implied, 0x60)]
  | .pha => [(.implied, 0x48)]
  | .php => [(.implied, 0x08)]
  | .pla => [(.implied, 0x68)]
  | .plp => [(.implied, 0x28)]
  | .brk => [(.implied, 0x00)]
  | .rti => [(.implied, 0x40)]
  | .unsupported => []

/-- The opcode byte of an operation in a mode; none for a pair that is no row of the table. -/
def opcodeOf (op : Operation) (m : Mode) : Option Byte := op.opcodes.lookup m

/-- The operand bytes of an instruction, a 16-bit operand low byte first (R80, 20_memory.md R53). -/
def Operand.bytes : Operand → List Byte
  | .implied => []
  | .accumulator => []
  | .immediate b => [b]
  | .relative b => [b]
  | .zeroPage b => [b]
  | .zeroPageX b => [b]
  | .zeroPageY b => [b]
  | .absolute w => [lowByte w, highByte w]
  | .absoluteX w => [lowByte w, highByte w]
  | .absoluteY w => [lowByte w, highByte w]
  | .indirect w => [lowByte w, highByte w]
  | .indirectX b => [b]
  | .indirectY b => [b]

/-- The opcode byte of an instruction; none for a pair that is no row of the table. -/
def Instr.opcode : Instr → Option Byte
  | .unsupported b => some b
  | i => opcodeOf i.operation i.operand.mode

/-- The bytes of an instruction, opcode first (R80); nothing for a pair that is no row of the table. -/
def encode (i : Instr) : List Byte :=
  match i.opcode with
  | some b => b :: i.operand.bytes
  | none => []

/-- The length of an instruction in bytes (R80, R87). -/
def Instr.length (i : Instr) : Nat := i.operand.length

/-! ## The host's view of a table row -/

/-- The three bytes of an instruction whose bits are `w` in the table's numbering (the first byte is bits 7..0), the
bits above `nbits` being 0. -/
def tableWordBytes (nbits w : Nat) : List Byte :=
  let bits := w % 2 ^ nbits
  [BitVec.ofNat 8 bits, BitVec.ofNat 8 (bits / 256), BitVec.ofNat 8 (bits / 65536)]

/-- The instruction the decoder reads from a table word. -/
def decodeTableWord (nbits w : Nat) : Option Instr :=
  match decode (tableWordBytes nbits w) with
  | .ok (i, _) => some i
  | .error _ => none

end Sys2Proof
end

