-- ==== Sys2Proof/Config.lean ====
section
/-! DEFINITION. What the platform fixes for a run: the two open parameters STOP_BOUNDARY and ADDRESSABLE of
00_scope.md R8, as plain data (log entry 5). The three per-step inputs of R8 are samples in Machine/State.lean. There
is no free value: given these, the launch memory and the inputs, a step is a function of the state
(93_implementation_defined.md, Part 2). -/

namespace Sys2Proof

/-- The addresses from `first` to `last`, both included. -/
structure AddressRange where
  first : Word
  last : Word
deriving DecidableEq, Repr

/-- The open parameters of R8. ADDRESSABLE is held by its complement: an address is addressable iff it lies in no
hole, and every predicate on the 65536 addresses is such a list. -/
structure Platform where
  /-- STOP_BOUNDARY: the run halts when PC is at or above it before a fetch (D17). -/
  stopBoundary : Word
  /-- The addresses the memory collaborator does not accept (D18). -/
  holes : List AddressRange
deriving DecidableEq, Repr

/-- R8's defaults: STOP_BOUNDARY is 0xFFFA and every address is addressable. -/
def Platform.standard : Platform := ⟨0xFFFA, []⟩

end Sys2Proof
end

