-- ==== Sys2Proof/Machine/State.lean ====
section
/-! DEFINITION. The machine's state as plain data (00_scope.md R11, 10_state.md R20 to R39): the register set, the
latched vectors, CLK, nmi_pending, run_state, the memory behind the port, and the model's own fields for the platform
and the inputs to come. State.reset is the machine after the reset sequence over an empty launch memory. -/

namespace Sys2Proof.Machine

/-! ## Stopping -/

/-- The four fault classes of 60_exceptions.md R231, with their own information. A fault of the spec is no stop of
the model: it sets run_state to Faulted, and the step answers that next state (log entry 1). So no constructor is ever
given to the interface's `fault` outcome; every step answers a next state. -/
inductive Fault where
  /-- Class 1, raised by every memory operation that meets an address the platform does not accept, by a 16-bit read
  at 0xFFFF and by a fetch past 0xFFFF (R232; 20_memory.md R51, R52, R56, R57). It records the faulting address.
  Safe: the run ends as the spec says. -/
  | memoryAccess (address : Word)
  /-- Class 2, raised by the length check of the instruction cycle (R233, 30_encoding.md R88); unreachable with the
  table. Safe. -/
  | decodingInconsistency
  /-- Class 3, raised by the meaning of an undefined opcode (R234, 30_encoding.md R86). It records the opcode byte.
  Safe. -/
  | unsupportedOperation (opcode : Byte)
  /-- Class 4, raised when an operation is handed an Input kind it does not accept (R235, 30_encoding.md R103);
  unreachable with the table. Safe. -/
  | modeOperationMismatch
deriving DecidableEq, Repr

/-- Why an instruction has no meaning. -/
inductive Refusal where
  /-- Raised by exec alone, for an instruction without a meaning; no instruction of this model is one. Safe. -/
  | notModelled (mnemonic : String)
deriving DecidableEq, Repr

/-- The fault record of R231: the class with its information (its code is `Fault.code`), and pc0, `none` during
reset. -/
structure FaultRecord where
  fault : Fault
  pc0 : Option Word
deriving DecidableEq, Repr

/-- Why a run halted (10_state.md R33, 00_scope.md R12). -/
inductive HaltReason where
  | boundary
  | externalStop
deriving DecidableEq, Repr

/-- run_state (10_state.md R33). -/
inductive RunState where
  | running
  | halted (reason : HaltReason)
  | faulted (record : FaultRecord)
deriving DecidableEq, Repr

/-! ## Memory and inputs -/

/-- The memory contents: the bytes that differ from `unlistedByte`, by rising address (Machine/Memory.lean). -/
abbrev Memory := List Host.Cell

/-- The inputs at one sample point (00_scope.md R8; the reset input of 70_reset_and_hazards.md R273). -/
structure Sample where
  reset : Bool
  stopRequest : Bool
  nmiEdge : Bool
  irqLine : Bool
deriving DecidableEq, Repr

/-- Every input at its default (R8). -/
def Sample.quiet : Sample := ⟨false, false, false, false⟩

/-! ## The state -/

/-- The state. Every field but the last two is the spec's; `platform` and `inputs` are the model's own. -/
structure State where
  /-- The accumulator (R21). -/
  a : Byte
  /-- Index register X (R22). -/
  x : Byte
  /-- Index register Y (R23). -/
  y : Byte
  /-- The stack pointer, an offset into 0x0100 to 0x01FF (R24). -/
  sp : Byte
  /-- The status register P: N V B5 B4 D I Z C, bit 7 to bit 0, all stored (R27, R29). -/
  p : Byte
  /-- The program counter (R25). -/
  pc : Word
  /-- NMI_VEC, latched at reset (R30). -/
  nmiVec : Word
  /-- RESET_VEC, latched at reset (R30). -/
  resetVec : Word
  /-- IRQ_VEC, latched at reset (R30). -/
  irqVec : Word
  /-- CLK, a natural number without bound (R32). -/
  clk : Nat
  /-- nmi_pending (R31). -/
  nmiPending : Bool
  /-- run_state (R33). -/
  runState : RunState
  /-- The memory contents (R37, R38). -/
  mem : Memory
  /-- STOP_BOUNDARY and ADDRESSABLE (00_scope.md R8); no step changes them (log entry 5). -/
  platform : Platform
  /-- The samples still to come, the next one first; when none is left every input is at its default (log entry 6). -/
  inputs : List Sample
deriving DecidableEq, Repr

/-- The machine after the reset sequence (10_state.md R35) over an empty launch memory, on the standard platform, with
no input to come. The vectors and PC are what that memory holds at 0xFFFA to 0xFFFF (log entries 3 and 9). The machine
after reset over any launch memory is `launch` (Machine/Ops.lean). -/
def State.reset : State where
  a := 0x00
  x := 0x00
  y := 0x00
  sp := 0xFF
  p := 0x00
  pc := 0x0000
  nmiVec := 0x0000
  resetVec := 0x0000
  irqVec := 0x0000
  clk := 0
  nmiPending := false
  runState := .running
  mem := []
  platform := Platform.standard
  inputs := []

/-! ## One update per field that an instruction or the cycle writes -/

def State.withA (s : State) (v : Byte) : State := { s with a := v }
def State.withX (s : State) (v : Byte) : State := { s with x := v }
def State.withY (s : State) (v : Byte) : State := { s with y := v }
def State.withSp (s : State) (v : Byte) : State := { s with sp := v }
def State.withP (s : State) (v : Byte) : State := { s with p := v }
def State.withPc (s : State) (v : Word) : State := { s with pc := v }
def State.withNmiVec (s : State) (v : Word) : State := { s with nmiVec := v }
def State.withResetVec (s : State) (v : Word) : State := { s with resetVec := v }
def State.withIrqVec (s : State) (v : Word) : State := { s with irqVec := v }
def State.withClk (s : State) (v : Nat) : State := { s with clk := v }
def State.withNmiPending (s : State) (v : Bool) : State := { s with nmiPending := v }
def State.withRunState (s : State) (v : RunState) : State := { s with runState := v }
def State.withMem (s : State) (v : Memory) : State := { s with mem := v }
def State.withInputs (s : State) (v : List Sample) : State := { s with inputs := v }

/-! ## What the operations answer -/

/-- The resolver's Input (30_encoding.md R89): none, accumulator, immediate byte or address. -/
inductive Input where
  | none
  | acc
  | imm (b : Byte)
  | addr (a : Word)
deriving DecidableEq, Repr

/-- The answer of an operation that changes the state: a value and the state after it, or a fault raised with the
state its completed lines left (60_exceptions.md R231, R236). -/
inductive Effect (α : Type) where
  | done (value : α) (s : State)
  | raised (f : Fault) (s : State)
deriving DecidableEq, Repr

end Sys2Proof.Machine
end

