-- ==== Sys2Proof/Machine/Flags.lean ====
section
/-! DEFINITION. The status register's fields (10_state.md R27), the shared flag rules of 41_arithmetic.md R120 to
R122, the results and carries of the additive operations, compares, shifts and rotates, and the status byte a push
stores (10_state.md R29). -/

namespace Sys2Proof.Machine

/-- The eight flags of P (R27). -/
inductive Flag where
  | n | v | b5 | b4 | d | i | z | c
deriving DecidableEq, Repr

/-- The bit of P a flag is (R27). -/
def Flag.bit : Flag → Nat
  | .n => 7
  | .v => 6
  | .b5 => 5
  | .b4 => 4
  | .d => 3
  | .i => 2
  | .z => 1
  | .c => 0

/-- A flag of a status byte. -/
def getFlag (f : Flag) (p : Byte) : Bool := p.getLsbD f.bit

/-- A status byte with one flag set to a value. -/
def setFlag (f : Flag) (b : Bool) (p : Byte) : Byte :=
  if b then p ||| (1#8 <<< f.bit) else p &&& ~~~(1#8 <<< f.bit)

/-- The state with one flag of P set to a value. -/
def State.withFlag (s : State) (f : Flag) (b : Bool) : State := s.withP (setFlag f b s.p)

/-- A flag of the state's P. -/
def State.flag (s : State) (f : Flag) : Bool := getFlag f s.p

/-- SetZN (R120) on a status byte: Z iff the value is 0, N its bit 7. -/
def zn (v : Byte) (p : Byte) : Byte := setFlag .n (v.getLsbD 7) (setFlag .z (v == 0) p)

/-- SetZN (R120). -/
def State.setZN (s : State) (v : Byte) : State := s.withP (zn v s.p)

/-! ## Additive operations -/

/-- `s = a + m + c` as a natural number (R121). -/
def addSum (a m : Byte) (c : Bool) : Nat := a.toNat + m.toNat + c.toNat

/-- `r = s mod 256` (R121). -/
def addResult (a m : Byte) (c : Bool) : Byte := BitVec.ofNat 8 (addSum a m c)

/-- The carry of an additive operation (R121): `s > 255`. -/
def addCarry (a m : Byte) (c : Bool) : Bool := decide (addSum a m c > 255)

/-- The overflow of an additive operation (R122): `((a ^ r) & (m ^ r))[7]`. -/
def addOverflow (a m : Byte) (c : Bool) : Bool :=
  ((a ^^^ addResult a m c) &&& (m ^^^ addResult a m c)).getLsbD 7

/-- P after an additive operation: C, V, then Z and N (R123). -/
def addStatus (a m : Byte) (c : Bool) (p : Byte) : Byte :=
  zn (addResult a m c) (setFlag .v (addOverflow a m c) (setFlag .c (addCarry a m c) p))

/-- The additive operation on the accumulator (R123; R124 with the complemented operand). -/
def State.addToA (s : State) (m : Byte) : State :=
  (s.withA (addResult s.a m (s.flag .c))).withP (addStatus s.a m (s.flag .c) s.p)

/-! ## Compares -/

/-- P after a compare of a register with m (R125 to R127): C iff `reg >= m`, Z and N from the difference. -/
def compareStatus (reg m : Byte) (p : Byte) : Byte :=
  zn (reg - m) (setFlag .c (decide (m.toNat ≤ reg.toNat)) p)

/-! ## Bit test -/

/-- P after BIT (R143): Z from `A & m`, N and V from m. -/
def bitStatus (a m : Byte) (p : Byte) : Byte :=
  setFlag .v (m.getLsbD 6) (setFlag .n (m.getLsbD 7) (setFlag .z (a &&& m == 0) p))

/-! ## Shifts and rotates: result, and P from the bit shifted out (R144 to R147) -/

/-- ASL's result. -/
def aslResult (v : Byte) : Byte := v <<< 1

/-- LSR's result. -/
def lsrResult (v : Byte) : Byte := v >>> 1

/-- ROL's result: the old carry enters bit 0. -/
def rolResult (v : Byte) (c : Bool) : Byte := (v <<< 1) ||| (if c then 0x01 else 0x00)

/-- ROR's result: the old carry enters bit 7. -/
def rorResult (v : Byte) (c : Bool) : Byte := (v >>> 1) ||| (if c then 0x80 else 0x00)

/-- P after a shift or rotate with result r and the bit shifted out. -/
def shiftStatus (out : Bool) (r : Byte) (p : Byte) : Byte := zn r (setFlag .c out p)

/-! ## Pushed status bytes -/

/-- The software push encoding (R29): bits 5 and 4 are 11; a push made by an instruction. -/
def softwareStatus (p : Byte) : Byte := (p &&& 0xCF) ||| 0x30

/-- The hardware push encoding (R29): bits 5 and 4 are 10; a push made by IRQ or NMI entry. -/
def hardwareStatus (p : Byte) : Byte := (p &&& 0xCF) ||| 0x20

end Sys2Proof.Machine
end

