-- ==== Sys2Proof/Machine/Memory.lean ====
section
/-! DEFINITION. The memory contents as a list of cells in one canonical form: addresses strictly rising, below 2^16,
no entry equal to what an unlisted address reads as. Reading and writing one byte of it (log entries 3 and 4). -/

namespace Sys2Proof.Machine

/-- DESIGN CHOICE (log entry 3, unsafe for State.reset alone): what an address that is not listed reads as. The spec
leaves the launch memory unconstrained (70_reset_and_hazards.md R275); every launch memory is some list, and `launch`
(Machine/Ops.lean) is the machine after reset over any of them. -/
def unlistedByte : Byte := 0x00

/-- The byte the memory holds at an address. -/
def Memory.read : Memory → Nat → Byte
  | [], _ => unlistedByte
  | (k, v) :: rest, a => if k = a then v else Memory.read rest a

/-- The memory without an entry for an address. -/
def Memory.erase (m : Memory) (a : Nat) : Memory :=
  m.filter fun c => c.1 != a

/-- The memory with one more entry, before the first entry of a higher address. -/
def Memory.insert : Memory → Nat → Byte → Memory
  | [], a, v => [(a, v)]
  | (k, w) :: rest, a, v => if a < k then (a, v) :: (k, w) :: rest else (k, w) :: Memory.insert rest a v

/-- The memory after a byte is stored; storing `unlistedByte` removes the entry. -/
def Memory.write (m : Memory) (a : Nat) (v : Byte) : Memory :=
  if v = unlistedByte then Memory.erase m a else Memory.insert (Memory.erase m a) a v

/-- The canonical form. -/
def Memory.wf : Memory → Bool
  | [] => true
  | (k, v) :: rest => decide (k < 65536) && v != unlistedByte && rest.all (fun c => decide (k < c.1)) && Memory.wf rest

/-- The byte at an address of the state's memory. -/
def byteAt (s : State) (a : Word) : Byte := Memory.read s.mem a.toNat

end Sys2Proof.Machine
end

