-- ==== Sys2Proof/Machine/Ops.lean ====
section
/-! DEFINITION. The named operations: raising a fault (60_exceptions.md R231), the memory contract (20_memory.md R50
to R58), the stack (44_control_stack.md R190 to R193), taking an interrupt (R211, R245) and returning from one (R212),
the reset sequence (70_reset_and_hazards.md R270) and the launch over any memory (R275), and how an instruction's effect becomes the machine's answer. -/

namespace Sys2Proof.Machine

/-! ## Effects in sequence -/

/-- Do `k` after `e`, unless `e` raised a fault. -/
def Effect.andThen {α β : Type} (e : Effect α) (k : α → State → Effect β) : Effect β :=
  match e with
  | .done v s => k v s
  | .raised f s => .raised f s

/-- Go on with what a read answered, in the state it read (a read changes nothing), unless it faulted. -/
def onRead {α β : Type} (r : Except Fault α) (s : State) (k : α → Effect β) : Effect β :=
  match r with
  | .ok v => k v
  | .error f => .raised f s

/-! ## Faults -/

/-- The numeric code of a fault class (R231). -/
def Fault.code : Fault → Nat
  | .memoryAccess _ => 1
  | .decodingInconsistency => 2
  | .unsupportedOperation _ => 3
  | .modeOperationMismatch => 4

/-- The fault a decoding error is (30_encoding.md R88, R103). -/
def decodeFault : DecodeError → Fault
  | .noBytes => .decodingInconsistency
  | .truncated => .decodingInconsistency
  | .modeMismatch => .modeOperationMismatch

/-- `raise` (R231): run_state becomes Faulted with the fault record; everything else stays as the completed lines
left it (R236). -/
def raiseFault (f : Fault) (pc0 : Option Word) (s : State) : State :=
  s.withRunState (.faulted ⟨f, pc0⟩)

/-- The answer of a step or an instruction whose fault record's address is `pc0`. -/
def conclude (pc0 : Option Word) (e : Effect Unit) : Host.Outcome State Fault Refusal :=
  match e with
  | .done _ t => .next t
  | .raised f t => .next (raiseFault f pc0 t)

/-- The answer of an instruction of `length` bytes that runs in `s`, where PC is already advanced (10_state.md R26):
pc0 is `length` below it (log entry 11). -/
def instruction (length : Nat) (s : State) (e : Effect Unit) : Host.Outcome State Fault Refusal :=
  conclude (some (s.pc - BitVec.ofNat 16 length)) e

/-! ## The memory contract -/

/-- ADDRESSABLE (00_scope.md R8). -/
def addressable (p : Platform) (a : Word) : Bool :=
  !(p.holes.any fun r => decide (r.first.toNat ≤ a.toNat) && decide (a.toNat ≤ r.last.toNat))

/-- MemRead(a, 1) (R51). -/
def memRead (a : Word) (s : State) : Except Fault Byte :=
  if addressable s.platform a then .ok (byteAt s a) else .error (.memoryAccess a)

/-- MemWrite(a, 1, v) (R52). -/
def memWrite (a : Word) (v : Byte) (s : State) : Effect Unit :=
  if addressable s.platform a then .done () (s.withMem (Memory.write s.mem a.toNat v))
  else .raised (.memoryAccess a) s

/-- MemRead(a, 2) (R56): little-endian, low byte first, no wrap inside a page, a fault at 0xFFFF. -/
def memRead16 (a : Word) (s : State) : Except Fault Word :=
  if a = 0xFFFF#16 then .error (.memoryAccess a)
  else
    match memRead a s with
    | .error f => .error f
    | .ok low =>
      match memRead (a + 1#16) s with
      | .error f => .error f
      | .ok high => .ok (joinBytes high low)

/-- The `n` byte reads from a upwards, in ascending order (R57). -/
def memReadUp (a : Word) (s : State) : Nat → Except Fault (List Byte)
  | 0 => .ok []
  | n + 1 =>
    match memRead a s with
    | .error f => .error f
    | .ok b =>
      match memReadUp (a + 1#16) s n with
      | .error f => .error f
      | .ok bs => .ok (b :: bs)

/-- MemReadN(a, n) (R57): the whole read is refused when it would pass 0xFFFF. -/
def memReadN (a : Word) (n : Nat) (s : State) : Except Fault (List Byte) :=
  if 0x10000 < a.toNat + n then .error (.memoryAccess a) else memReadUp a s n

/-! ## The stack -/

/-- The address SP names (10_state.md R24): always in 0x0100 to 0x01FF. -/
def stackAddress (sp : Byte) : Word := 0x0100#16 + sp.setWidth 16

/-- Push (R190): store, then decrement SP. -/
def push (v : Byte) (s : State) : Effect Unit :=
  (memWrite (stackAddress s.sp) v s).andThen fun _ s1 => .done () (s1.withSp (s1.sp - 1#8))

/-- Pull (R191): increment SP, read, clear the vacated byte. -/
def pull (s : State) : Effect Byte :=
  let s1 := s.withSp (s.sp + 1#8)
  onRead (memRead (stackAddress s1.sp) s1) s1 fun v =>
    (memWrite (stackAddress s1.sp) 0x00#8 s1).andThen fun _ s2 => .done v s2

/-- Push16 (R192): high byte first. -/
def push16 (w : Word) (s : State) : Effect Unit :=
  (push (highByte w) s).andThen fun _ s1 => push (lowByte w) s1

/-- Pull16 (R193): low byte first. -/
def pull16 (s : State) : Effect Word :=
  (pull s).andThen fun low s1 => (pull s1).andThen fun high s2 => .done (joinBytes high low) s2

/-! ## Taking an interrupt, and returning -/

/-- The three events of the interrupt mechanism (60_exceptions.md R240). -/
inductive InterruptKind where
  | brk
  | irq
  | nmi
deriving DecidableEq, Repr

/-- The status byte an entry pushes (10_state.md R29). -/
def InterruptKind.status (k : InterruptKind) (p : Byte) : Byte :=
  match k with
  | .brk => softwareStatus p
  | .irq => hardwareStatus p
  | .nmi => hardwareStatus p

/-- The state after the pushes of an entry: BRK also sets the live B5 and B4 (R211), NMI clears nmi_pending (R245),
each sets I and goes to its latched vector (10_state.md R30). -/
def InterruptKind.enter (k : InterruptKind) (s : State) : State :=
  match k with
  | .brk => (((s.withFlag .b5 true).withFlag .b4 true).withFlag .i true).withPc s.irqVec
  | .irq => (s.withFlag .i true).withPc s.irqVec
  | .nmi => ((s.withFlag .i true).withNmiPending false).withPc s.nmiVec

/-- Taking an interrupt, the one entry of BRK (R211) and of InterruptEntry (R245) up to its CLK line: push PC high
byte first, push P with the encoding of the kind, then set the flags and go to the latched vector. -/
def takeInterrupt (k : InterruptKind) (s : State) : Effect Unit :=
  (push16 s.pc s).andThen fun _ s1 =>
    (push (k.status s1.p) s1).andThen fun _ s2 => .done () (k.enter s2)

/-- The cost of an interrupt entry (R245). -/
def interruptCycles : Nat := 7

/-- InterruptEntry (R245), a whole step: CLK grows when every push completed. -/
def interruptEntry (k : InterruptKind) (s : State) : Effect Unit :=
  (takeInterrupt k s).andThen fun _ t => .done () (t.withClk (t.clk + interruptCycles))

/-- The return from an interrupt (R212): pull P, all eight bits, then PC without adjustment. -/
def returnFromInterrupt (s : State) : Effect Unit :=
  (pull s).andThen fun status s1 =>
    (pull16 (s1.withP status)).andThen fun w s2 => .done () (s2.withPc w)

/-! ## Reset -/

/-- The state with the registers of the first lines of the reset sequence (R270). -/
def resetRegisters (s : State) : State :=
  { s with a := 0x00, x := 0x00, y := 0x00, sp := 0xFF, p := 0x00, clk := 0, nmiPending := false }

/-- The reset sequence (R270, R273): the registers, then the three vectors in the order NMI, RESET, IRQ, then PC and
run_state. Memory is left as it is. -/
def resetSequence (s : State) : Effect Unit :=
  let s0 := resetRegisters s
  onRead (memRead16 0xFFFA#16 s0) s0 fun nmi =>
    let s1 := s0.withNmiVec nmi
    onRead (memRead16 0xFFFC#16 s1) s1 fun reset =>
      let s2 := s1.withResetVec reset
      onRead (memRead16 0xFFFE#16 s2) s2 fun irq =>
        .done () (((s2.withIrqVec irq).withPc reset).withRunState .running)

/-- The machine right after reset (10_state.md R35, 70_reset_and_hazards.md R270, R272) over any launch memory, on any
platform and with any inputs to come: the three things 93_implementation_defined.md Part 2 leaves free. The launch
memory is unconstrained (R275); State.reset is the instance of log entries 3 and 9. -/
def launch (p : Platform) (m : Memory) (inputs : List Sample) : State :=
  match resetSequence { State.reset with mem := m, platform := p, inputs := inputs } with
  | .done _ t => t
  | .raised f t => raiseFault f none t

end Sys2Proof.Machine
end

