-- ==== Sys2Proof/Machine/Operands.lean ====
section
/-! DEFINITION. The addressing-mode resolver (30_encoding.md R89 to R102), the Input kinds an operation accepts (R103),
and the executor's Operand and Store (R104, R105). -/

namespace Sys2Proof.Machine

/-- `zext_16` (00_scope.md R13). -/
def zext (b : Byte) : Word := b.setWidth 16

/-- `sext_16` (00_scope.md R13). -/
def sext (b : Byte) : Word := b.signExtend 16

/-- `Addr` of what a pointer read answered, after an adjustment. -/
def pointerInput (r : Except Fault Word) (adjust : Word → Word) : Except Fault Input :=
  match r with
  | .ok w => .ok (.addr (adjust w))
  | .error f => .error f

/-- `Resolve` (R89 to R102), in a state whose PC is already advanced. It reads memory in the three indirect modes only
and writes nothing. -/
def resolve (o : Operand) (s : State) : Except Fault Input :=
  match o with
  | .implied => .ok .none
  | .accumulator => .ok .acc
  | .immediate b => .ok (.imm b)
  | .relative d => .ok (.addr (s.pc + sext d))
  | .zeroPage b => .ok (.addr (zext b))
  | .zeroPageX b => .ok (.addr (zext (b + s.x)))
  | .zeroPageY b => .ok (.addr (zext (b + s.y)))
  | .absolute w => .ok (.addr w)
  | .absoluteX w => .ok (.addr (w + zext s.x))
  | .absoluteY w => .ok (.addr (w + zext s.y))
  | .indirect w => pointerInput (memRead16 w s) id
  | .indirectX b => pointerInput (memRead16 (zext (b + s.x)) s) id
  | .indirectY b => pointerInput (memRead16 (zext b) s) (· + zext s.y)

/-! ## The kinds an operation accepts (R103) -/

/-- Immediate byte or address: loads, arithmetic, compares, logic. -/
def Input.isData : Input → Bool
  | .none => false
  | .acc => false
  | .imm _ => true
  | .addr _ => true

/-- Address: stores, BIT, INC, DEC, branches, JMP, JSR. -/
def Input.isAddress : Input → Bool
  | .none => false
  | .acc => false
  | .imm _ => false
  | .addr _ => true

/-- Accumulator or address: shifts and rotates. -/
def Input.isPlace : Input → Bool
  | .none => false
  | .acc => true
  | .imm _ => false
  | .addr _ => true

/-- The Input of an operand, or ModeOperationMismatch when the operation does not accept its kind (R103). -/
def inputOf (accepts : Input → Bool) (o : Operand) (s : State) : Except Fault Input :=
  match resolve o s with
  | .ok i => if accepts i then .ok i else .error .modeOperationMismatch
  | .error f => .error f

/-! ## Operand and Store -/

/-- `Operand(input)` (R104). -/
def readInput (i : Input) (s : State) : Except Fault Byte :=
  match i with
  | .imm b => .ok b
  | .addr a => memRead a s
  | .acc => .ok s.a
  | .none => .error .modeOperationMismatch

/-- `Store(input, v)` (R105). -/
def storeInput (i : Input) (v : Byte) (s : State) : Effect Unit :=
  match i with
  | .addr a => memWrite a v s
  | .acc => .done () (s.withA v)
  | .imm _ => .raised .modeOperationMismatch s
  | .none => .raised .modeOperationMismatch s

/-! ## The shapes of the instruction rules -/

/-- The data byte of an operand whose kind the operation accepts: resolve, then read (R104). -/
def operandByte (accepts : Input → Bool) (o : Operand) (s : State) : Except Fault Byte :=
  match inputOf accepts o s with
  | .ok i => readInput i s
  | .error f => .error f

/-- An instruction that reads one data byte m and then writes registers and flags only. -/
def readAndUpdate (accepts : Input → Bool) (o : Operand) (s : State) (update : Byte → State) :
    Host.Outcome State Fault Refusal :=
  instruction o.length s (onRead (operandByte accepts o s) s fun m => .done () (update m))

/-- An instruction that stores a byte and does nothing else (R113 to R115). -/
def storeRegister (o : Operand) (v : Byte) (s : State) : Host.Outcome State Fault Refusal :=
  instruction o.length s (onRead (inputOf Input.isAddress o s) s fun i => storeInput i v s)

/-- A read-modify-write instruction (R144 to R147, R177, R178): read v, store `result v`, and only then write P. -/
def readModifyWrite (accepts : Input → Bool) (o : Operand) (s : State) (result : Byte → Byte)
    (status : Byte → Byte → Byte) : Host.Outcome State Fault Refusal :=
  instruction o.length s
    (onRead (inputOf accepts o s) s fun i =>
      onRead (readInput i s) s fun v =>
        (storeInput i (result v) s).andThen fun _ t => .done () (t.withP (status v t.p)))

/-- An instruction without an operand, whose effect cannot fault. -/
def registersOnly (t : State) : Host.Outcome State Fault Refusal := .next t

/-- A branch (R195): PC becomes the target when the condition holds. -/
def branchIf (cond : Bool) (d : Byte) (s : State) : Host.Outcome State Fault Refusal :=
  instruction 2 s
    (onRead (inputOf Input.isAddress (.relative d) s) s fun i =>
      match i with
      | .addr t => .done () (if cond then s.withPc t else s)
      | _ => .raised .modeOperationMismatch s)

/-- A jump (R204): PC becomes the address after `before` ran. -/
def jumpTo (o : Operand) (s : State) (before : State → Effect Unit) : Host.Outcome State Fault Refusal :=
  instruction o.length s
    (onRead (inputOf Input.isAddress o s) s fun i =>
      match i with
      | .addr t => (before s).andThen fun _ s1 => .done () (s1.withPc t)
      | _ => .raised .modeOperationMismatch s)

end Sys2Proof.Machine
end

