-- ==== Sys2Proof/Machine/Arithmetic.lean ====
section
/-! DEFINITION. The meanings of the arithmetic instructions and the compares (41_arithmetic.md R123 to R127). -/

namespace Sys2Proof.Machine

/-- ADC (R123): the additive operation of R121 and R122, binary whatever D is. -/
def execAdc (o : Operand) (s : State) : Host.Outcome State Fault Refusal :=
  readAndUpdate Input.isData o s fun m => s.addToA m

/-- SBC (R124): the additive operation on the complemented operand. -/
def execSbc (o : Operand) (s : State) : Host.Outcome State Fault Refusal :=
  readAndUpdate Input.isData o s fun m => s.addToA (~~~m)

/-- CMP (R125): C, Z and N from `A - m`; A and V stay. -/
def execCmp (o : Operand) (s : State) : Host.Outcome State Fault Refusal :=
  readAndUpdate Input.isData o s fun m => s.withP (compareStatus s.a m s.p)

/-- CPX (R126). -/
def execCpx (o : Operand) (s : State) : Host.Outcome State Fault Refusal :=
  readAndUpdate Input.isData o s fun m => s.withP (compareStatus s.x m s.p)

/-- CPY (R127). -/
def execCpy (o : Operand) (s : State) : Host.Outcome State Fault Refusal :=
  readAndUpdate Input.isData o s fun m => s.withP (compareStatus s.y m s.p)

end Sys2Proof.Machine
end

