-- ==== Sys2Proof/Machine/Control.lean ====
section
/-! DEFINITION. The meanings of the branches, jumps, subroutine, stack, break and return instructions (44_control_stack.md
R195 to R212) and of the undefined opcodes (30_encoding.md R86). -/

namespace Sys2Proof.Machine

/-- BCC (R196): `cond = (P.C = 0)`. -/
def execBcc (d : Byte) (s : State) : Host.Outcome State Fault Refusal :=
  branchIf (!s.flag .c) d s

/-- BCS (R197): `cond = (P.C = 1)`. -/
def execBcs (d : Byte) (s : State) : Host.Outcome State Fault Refusal :=
  branchIf (s.flag .c) d s

/-- BEQ (R198): `cond = (P.Z = 1)`. -/
def execBeq (d : Byte) (s : State) : Host.Outcome State Fault Refusal :=
  branchIf (s.flag .z) d s

/-- BNE (R199): `cond = (P.Z = 0)`. -/
def execBne (d : Byte) (s : State) : Host.Outcome State Fault Refusal :=
  branchIf (!s.flag .z) d s

/-- BMI (R200): `cond = (P.N = 1)`. -/
def execBmi (d : Byte) (s : State) : Host.Outcome State Fault Refusal :=
  branchIf (s.flag .n) d s

/-- BPL (R201): `cond = (P.N = 0)`. -/
def execBpl (d : Byte) (s : State) : Host.Outcome State Fault Refusal :=
  branchIf (!s.flag .n) d s

/-- BVC (R202): `cond = (P.V = 0)`. -/
def execBvc (d : Byte) (s : State) : Host.Outcome State Fault Refusal :=
  branchIf (!s.flag .v) d s

/-- BVS (R203): `cond = (P.V = 1)`. -/
def execBvs (d : Byte) (s : State) : Host.Outcome State Fault Refusal :=
  branchIf (s.flag .v) d s

/-- JMP (R204): `PC <- a`. -/
def execJmp (o : Operand) (s : State) : Host.Outcome State Fault Refusal :=
  jumpTo o s fun s1 => .done () s1

/-- JSR (R205): `Push16(PC -16 1); PC <- a`. -/
def execJsr (a : Word) (s : State) : Host.Outcome State Fault Refusal :=
  jumpTo (.absolute a) s fun s1 => push16 (s1.pc - 1#16) s1

/-- RTS (R206): `w <- Pull16(); PC <- w +16 1`. -/
def execRts (s : State) : Host.Outcome State Fault Refusal :=
  instruction 1 s ((pull16 s).andThen fun w s1 => .done () (s1.withPc (w + 1#16)))

/-- PHA (R207). -/
def execPha (s : State) : Host.Outcome State Fault Refusal :=
  instruction 1 s (push s.a s)

/-- PHP (R208): pushes the software encoding; the live P stays. -/
def execPhp (s : State) : Host.Outcome State Fault Refusal :=
  instruction 1 s (push (softwareStatus s.p) s)

/-- PLA (R209): `A <- Pull(); SetZN(A)`. -/
def execPla (s : State) : Host.Outcome State Fault Refusal :=
  instruction 1 s ((pull s).andThen fun v s1 => .done () ((s1.withA v).setZN v))

/-- PLP (R210): all eight bits. -/
def execPlp (s : State) : Host.Outcome State Fault Refusal :=
  instruction 1 s ((pull s).andThen fun v s1 => .done () (s1.withP v))

/-- BRK (R211): the interrupt entry of an instruction; PC is the byte after the opcode. -/
def execBrk (s : State) : Host.Outcome State Fault Refusal :=
  instruction 1 s (takeInterrupt .brk s)

/-- RTI (R212). -/
def execRti (s : State) : Host.Outcome State Fault Refusal :=
  instruction 1 s (returnFromInterrupt s)

/-- An undefined opcode (R86, R234): raises UnsupportedOperation with the opcode byte; PC is already one past it. -/
def execUnsupported (opcode : Byte) (s : State) : Host.Outcome State Fault Refusal :=
  instruction 1 s (.raised (.unsupportedOperation opcode) s)

end Sys2Proof.Machine
end

