-- ==== Sys2Proof/Machine/LoadStore.lean ====
section
/-! DEFINITION. The meanings of the load and store instructions (40_load_store.md R110 to R115). -/

namespace Sys2Proof.Machine

/-- LDA (R110): `m <- Operand(input); A <- m; SetZN(m)`. -/
def execLda (o : Operand) (s : State) : Host.Outcome State Fault Refusal :=
  readAndUpdate Input.isData o s fun m => (s.withA m).setZN m

/-- LDX (R111). -/
def execLdx (o : Operand) (s : State) : Host.Outcome State Fault Refusal :=
  readAndUpdate Input.isData o s fun m => (s.withX m).setZN m

/-- LDY (R112). -/
def execLdy (o : Operand) (s : State) : Host.Outcome State Fault Refusal :=
  readAndUpdate Input.isData o s fun m => (s.withY m).setZN m

/-- STA (R113): one write of A, no read of the target, no flag. -/
def execSta (o : Operand) (s : State) : Host.Outcome State Fault Refusal :=
  storeRegister o s.a s

/-- STX (R114). -/
def execStx (o : Operand) (s : State) : Host.Outcome State Fault Refusal :=
  storeRegister o s.x s

/-- STY (R115). -/
def execSty (o : Operand) (s : State) : Host.Outcome State Fault Refusal :=
  storeRegister o s.y s

end Sys2Proof.Machine
end

