-- ==== Sys2Proof/Machine/Logic.lean ====
section
/-! DEFINITION. The meanings of the logical, bit-test, shift and rotate instructions (42_logic_shift.md R140 to R147). -/

namespace Sys2Proof.Machine

/-- AND (R140). -/
def execAnd (o : Operand) (s : State) : Host.Outcome State Fault Refusal :=
  readAndUpdate Input.isData o s fun m => (s.withA (s.a &&& m)).setZN (s.a &&& m)

/-- ORA (R141). -/
def execOra (o : Operand) (s : State) : Host.Outcome State Fault Refusal :=
  readAndUpdate Input.isData o s fun m => (s.withA (s.a ||| m)).setZN (s.a ||| m)

/-- EOR (R142). -/
def execEor (o : Operand) (s : State) : Host.Outcome State Fault Refusal :=
  readAndUpdate Input.isData o s fun m => (s.withA (s.a ^^^ m)).setZN (s.a ^^^ m)

/-- BIT (R143): Z from `A & m`, N and V from m; memory operands only. -/
def execBit (o : Operand) (s : State) : Host.Outcome State Fault Refusal :=
  readAndUpdate Input.isAddress o s fun m => s.withP (bitStatus s.a m s.p)

/-- ASL (R144): C is the old bit 7. -/
def execAsl (o : Operand) (s : State) : Host.Outcome State Fault Refusal :=
  readModifyWrite Input.isPlace o s aslResult fun v => shiftStatus (v.getLsbD 7) (aslResult v)

/-- LSR (R145): C is the old bit 0. -/
def execLsr (o : Operand) (s : State) : Host.Outcome State Fault Refusal :=
  readModifyWrite Input.isPlace o s lsrResult fun v => shiftStatus (v.getLsbD 0) (lsrResult v)

/-- ROL (R146): the old carry enters bit 0, C is the old bit 7. -/
def execRol (o : Operand) (s : State) : Host.Outcome State Fault Refusal :=
  let c := s.flag .c
  readModifyWrite Input.isPlace o s (rolResult · c) fun v => shiftStatus (v.getLsbD 7) (rolResult v c)

/-- ROR (R147): the old carry enters bit 7, C is the old bit 0. -/
def execRor (o : Operand) (s : State) : Host.Outcome State Fault Refusal :=
  let c := s.flag .c
  readModifyWrite Input.isPlace o s (rorResult · c) fun v => shiftStatus (v.getLsbD 0) (rorResult v c)

end Sys2Proof.Machine
end

