-- ==== Sys2Proof/Machine/Registers.lean ====
section
/-! DEFINITION. The meanings of the flag, transfer, increment, decrement and no-operation instructions
(43_flags_transfers_incdec.md R160 to R179). -/

namespace Sys2Proof.Machine

/-- CLC (R160): `P.C <- 0`, no other flag. -/
def execClc (s : State) : Host.Outcome State Fault Refusal :=
  registersOnly (s.withFlag .c false)

/-- CLD (R161): `P.D <- 0`, no other flag. -/
def execCld (s : State) : Host.Outcome State Fault Refusal :=
  registersOnly (s.withFlag .d false)

/-- CLI (R162): `P.I <- 0`, no other flag. -/
def execCli (s : State) : Host.Outcome State Fault Refusal :=
  registersOnly (s.withFlag .i false)

/-- CLV (R163): `P.V <- 0`, no other flag. -/
def execClv (s : State) : Host.Outcome State Fault Refusal :=
  registersOnly (s.withFlag .v false)

/-- SEC (R164): `P.C <- 1`, no other flag. -/
def execSec (s : State) : Host.Outcome State Fault Refusal :=
  registersOnly (s.withFlag .c true)

/-- SED (R165): `P.D <- 1`, no other flag. -/
def execSed (s : State) : Host.Outcome State Fault Refusal :=
  registersOnly (s.withFlag .d true)

/-- SEI (R166): `P.I <- 1`, no other flag. -/
def execSei (s : State) : Host.Outcome State Fault Refusal :=
  registersOnly (s.withFlag .i true)

/-- TAX (R167). -/
def execTax (s : State) : Host.Outcome State Fault Refusal :=
  registersOnly ((s.withX s.a).setZN s.a)

/-- TAY (R168). -/
def execTay (s : State) : Host.Outcome State Fault Refusal :=
  registersOnly ((s.withY s.a).setZN s.a)

/-- TXA (R169). -/
def execTxa (s : State) : Host.Outcome State Fault Refusal :=
  registersOnly ((s.withA s.x).setZN s.x)

/-- TYA (R170). -/
def execTya (s : State) : Host.Outcome State Fault Refusal :=
  registersOnly ((s.withA s.y).setZN s.y)

/-- TSX (R171). -/
def execTsx (s : State) : Host.Outcome State Fault Refusal :=
  registersOnly ((s.withX s.sp).setZN s.sp)

/-- TXS (R172): no flag. -/
def execTxs (s : State) : Host.Outcome State Fault Refusal :=
  registersOnly (s.withSp s.x)

/-- INX (R173): wraps in 8 bits. -/
def execInx (s : State) : Host.Outcome State Fault Refusal :=
  registersOnly ((s.withX (s.x + 1#8)).setZN (s.x + 1#8))

/-- INY (R174): wraps in 8 bits. -/
def execIny (s : State) : Host.Outcome State Fault Refusal :=
  registersOnly ((s.withY (s.y + 1#8)).setZN (s.y + 1#8))

/-- DEX (R175): wraps in 8 bits. -/
def execDex (s : State) : Host.Outcome State Fault Refusal :=
  registersOnly ((s.withX (s.x - 1#8)).setZN (s.x - 1#8))

/-- DEY (R176): wraps in 8 bits. -/
def execDey (s : State) : Host.Outcome State Fault Refusal :=
  registersOnly ((s.withY (s.y - 1#8)).setZN (s.y - 1#8))

/-- INC (R177): one read and one write of the effective address; Z and N after the write. -/
def execInc (o : Operand) (s : State) : Host.Outcome State Fault Refusal :=
  readModifyWrite Input.isAddress o s (· + 1#8) fun v => zn (v + 1#8)

/-- DEC (R178). -/
def execDec (o : Operand) (s : State) : Host.Outcome State Fault Refusal :=
  readModifyWrite Input.isAddress o s (· - 1#8) fun v => zn (v - 1#8)

/-- NOP (R179): nothing. -/
def execNop (s : State) : Host.Outcome State Fault Refusal :=
  registersOnly s

end Sys2Proof.Machine
end

