-- ==== Sys2Proof/Machine/Cycle.lean ====
section
/-! DEFINITION. The instruction cycle and the sample point of 30_encoding.md R83, line by line, and the placing of a
table word where the next fetch reads it. Machine/Step.lean only calls these. -/

namespace Sys2Proof.Machine

/-- Line 12: CLK grows by the shape's cycles, unless the instruction raised a fault (R236). -/
def retire (cycles : Nat) (r : Host.Outcome State Fault Refusal) : Host.Outcome State Fault Refusal :=
  match r with
  | .next t => if t.runState = .running then .next (t.withClk (t.clk + cycles)) else .next t
  | .fault f => .fault f
  | .refused f => .refused f

/-- Lines 6 to 12: fetch the opcode, look its shape up, read the instruction's bytes (the opcode a second time,
20_memory.md R62), check their number (R88), advance PC, execute, and count the cycles. -/
def instructionCycle (s : State) : Host.Outcome State Fault Refusal :=
  match memRead s.pc s with
  | .error f => .next (raiseFault f (some s.pc) s)
  | .ok opcode =>
    match memReadN s.pc (lookup opcode).length s with
    | .error f => .next (raiseFault f (some s.pc) s)
    | .ok bytes =>
      if bytes.length ≠ (lookup opcode).mode.length then
        .next (raiseFault .decodingInconsistency (some s.pc) s)
      else
        match decode bytes with
        | .error e => .next (raiseFault (decodeFault e) (some s.pc) s)
        | .ok (i, _) =>
          retire (lookup opcode).cycles (exec i (s.withPc (s.pc + BitVec.ofNat 16 (lookup opcode).length)))

/-- The inputs at this sample point; every input is at its default when no sample is left. -/
def State.sample (s : State) : Sample := s.inputs.headD Sample.quiet

/-- Lines 1 to 5 and then the cycle, in a running state whose sample is `q` (60_exceptions.md R243, R244): stop,
boundary, NMI, IRQ, fetch. An entry's fault record holds the PC of the sample point (R231). -/
def runningStep (q : Sample) (s : State) : Host.Outcome State Fault Refusal :=
  if q.stopRequest then .next (s.withRunState (.halted .externalStop))
  else if s.platform.stopBoundary.toNat ≤ s.pc.toNat then .next (s.withRunState (.halted .boundary))
  else
    let s1 := if q.nmiEdge then s.withNmiPending true else s
    if s1.nmiPending then conclude (some s1.pc) (interruptEntry .nmi s1)
    else if q.irqLine && !s1.flag .i then conclude (some s1.pc) (interruptEntry .irq s1)
    else instructionCycle s1

/-- One step with the inputs `q`, the sample already taken off: the reset input runs the reset sequence from any
run_state (70_reset_and_hazards.md R273); otherwise only a running core does anything (10_state.md R33,
60_exceptions.md R260). -/
def stepWith (q : Sample) (s : State) : Host.Outcome State Fault Refusal :=
  if q.reset then conclude none (resetSequence s)
  else if s.runState = .running then runningStep q s
  else .next s

/-- One step: take the next sample off and act on it. -/
def oneStep (s : State) : Host.Outcome State Fault Refusal :=
  stepWith s.sample (s.withInputs s.inputs.tail)

/-- The memory with bytes placed upwards from an address, as far as the address space goes. -/
def placeBytes (m : Memory) (a : Nat) : List Byte → Memory
  | [] => m
  | b :: rest => placeBytes (if a < 65536 then Memory.write m a b else m) (a + 1) rest

/-- The state with the bytes of a table word at PC, running, with nothing that would come before the fetch: no
pending NMI, and the coming sample quiet (log entry 9). -/
def placeAtFetch (s : State) (nbits w : Nat) : State :=
  { s with
    mem := placeBytes s.mem s.pc.toNat (tableWordBytes nbits w)
    runState := .running
    nmiPending := false
    inputs := match s.inputs with
      | [] => []
      | _ :: rest => Sample.quiet :: rest }

end Sys2Proof.Machine
end

