-- ==== Sys2Proof/Machine/Step.lean ====
section
/-! DEFINITION. The machine's step (30_encoding.md R83, with the reset input of 70_reset_and_hazards.md R273), and the
host's placing of one instruction where the step fetches next. Both are in Machine/Cycle.lean. -/

namespace Sys2Proof.Machine

/-- One step of the machine. It answers a next state from every state (log entry 1). -/
def step : State → Host.Outcome State Fault Refusal := oneStep

/-- The state whose next step runs the table word `w`, where PC is below STOP_BOUNDARY and the instruction's bytes
are addressable, as they are at State.reset. -/
def State.withFetchWord (s : State) (nbits w : Nat) : State := placeAtFetch s nbits w

end Sys2Proof.Machine
end

