-- ==== Sys2Proof/Safety.lean ====
section
/-! DEFINITION. What counts as a good state and a safe step, and the words the statements are written in: what the
table's cycles are, which kinds of Input an operation accepts, what an operand's data byte is, what a status byte and the
memory are after an instruction, and what stays unchanged. -/

namespace Sys2Proof.Machine

/-! ## States -/

/-- The model's invariant: the memory list has its canonical form. The spec's own bounds (widths, SP in its page, CLK
a natural number) hold by the types. -/
def State.Inv (s : State) : Prop := Memory.wf s.mem = true

/-- The run has not ended in a fault (60_exceptions.md R236: a fault is never the successful end of a run). -/
def State.faultFree (s : State) : Bool :=
  match s.runState with
  | .running => true
  | .halted _ => true
  | .faulted _ => false

/-- The fault classes that no run reaches (60_exceptions.md R233, R235). -/
def Fault.isInternal : Fault → Bool
  | .memoryAccess _ => false
  | .decodingInconsistency => true
  | .unsupportedOperation _ => false
  | .modeOperationMismatch => true

/-- The state has not faulted with an internal class. Halted states and the other faults have this too. -/
def State.NoInternalFault (s : State) : Prop := ∀ r, s.runState = .faulted r → r.fault.isInternal = false

/-- The step fetches: the core runs below the stop boundary, no input asks for anything at the coming sample point
and no NMI waits (30_encoding.md R83 lines 1 to 5). -/
def State.fetches (s : State) : Prop :=
  s.runState = .running ∧ s.sample = Sample.quiet ∧ s.nmiPending = false ∧
    s.pc.toNat < s.platform.stopBoundary.toNat

/-- The lines of a sample point ask for an interrupt entry (60_exceptions.md R244 (3), (4)): an NMI edge or a waiting
NMI, or IRQ with I clear. -/
def State.interrupted (s : State) : Prop :=
  s.sample.nmiEdge = true ∨ s.nmiPending = true ∨ (s.sample.irqLine = true ∧ s.flag .i = false)

/-! ## What the table says -/

/-- The base cycles of one row of the opcode grid (30_encoding.md R106, R107): the bytes with one high nibble. -/
def rowCycles (high : Nat) : List Nat := (List.range 16).map fun low => (lookup (BitVec.ofNat 8 (16 * high + low))).cycles

/-! ## Which kinds of Input an operation accepts -/

/-- The four kinds of Input (30_encoding.md R89). -/
inductive InputKind where
  | none
  | acc
  | imm
  | addr
deriving DecidableEq, Repr

def Input.kind : Input → InputKind
  | .none => .none
  | .acc => .acc
  | .imm _ => .imm
  | .addr _ => .addr

/-- The Input kinds that an operation's rule lists (R103): immediate byte or address for the operations that read data,
address for the stores, BIT, INC, DEC, the branches and the jumps, accumulator or address for the shifts and rotates,
none for the others. -/
def acceptedKinds : Operation → List InputKind
  | .lda | .ldx | .ldy | .adc | .sbc | .cmp | .cpx | .cpy | .and | .ora | .eor => [.imm, .addr]
  | .sta | .stx | .sty | .bit | .inc | .dec => [.addr]
  | .asl | .lsr | .rol | .ror => [.acc, .addr]
  | .bcc | .bcs | .beq | .bne | .bmi | .bpl | .bvc | .bvs | .jmp | .jsr => [.addr]
  | .clc | .cld | .cli | .clv | .sec | .sed | .sei | .tax | .tay | .txa | .tya | .tsx | .txs => [.none]
  | .inx | .iny | .dex | .dey | .nop | .rts | .pha | .php | .pla | .plp | .brk | .rti | .unsupported => [.none]

/-! ## What an instruction reads -/

/-- `m` is the operand's data byte: the immediate byte, or the byte at the effective address, which is addressable
(30_encoding.md R104). -/
def DataByte (o : Operand) (s : State) (m : Byte) : Prop :=
  o = .immediate m ∨ ∃ a, resolve o s = .ok (.addr a) ∧ addressable s.platform a = true ∧ byteAt s a = m

/-- The address an instruction of a running program stands at, when PC is already advanced past it. -/
def instrAddress (i : Instr) (s : State) : Word := s.pc - BitVec.ofNat 16 i.length

/-- An access of the operand that faults ends the run with MemoryAccessFault and changes nothing else: the effective
address is not addressable, or the pointer read of an indirect mode faults. -/
def FaultsWithOperand (i : Instr) (s : State) : Prop :=
  (∀ a, resolve i.operand s = .ok (.addr a) → addressable s.platform a = false →
    exec i s = .next (raiseFault (.memoryAccess a) (some (instrAddress i s)) s)) ∧
  (∀ f, resolve i.operand s = .error f → exec i s = .next (raiseFault f (some (instrAddress i s)) s))

/-! ## What an instruction leaves -/

/-- Of the flags of P, the listed ones have the listed values in `p` and the others are as in `p0`. -/
def StatusAfter (p0 p : Byte) (written : List (Flag × Bool)) : Prop :=
  ∀ f : Flag, getFlag f p = (written.lookup f).getD (getFlag f p0)

/-- SetZN (41_arithmetic.md R120) as a list of written flags. -/
def znOf (v : Byte) : List (Flag × Bool) := [(.z, decide (v = 0)), (.n, v.getLsbD 7)]

/-- Of the bytes of memory, the listed ones read as listed in `m` and the others as in `s`. -/
def MemoryAfter (s : State) (m : Memory) (written : List (Word × Byte)) : Prop :=
  ∀ a : Word, Memory.read m a.toNat = (written.lookup a).getD (byteAt s a)

/-- Every byte of memory reads as before. -/
def SameMemory (s t : State) : Prop := ∀ a : Word, byteAt t a = byteAt s a

/-- Every byte of memory but those at the listed addresses reads as before. -/
def SameMemoryOutside (written : List Word) (s t : State) : Prop :=
  ∀ a : Word, a ∉ written → byteAt t a = byteAt s a

/-- What no instruction changes: the latched vectors, CLK (the driver counts), nmi_pending, the platform and the
inputs to come (10_state.md R30 to R32). -/
def SameSystem (s t : State) : Prop :=
  t.nmiVec = s.nmiVec ∧ t.resetVec = s.resetVec ∧ t.irqVec = s.irqVec ∧ t.clk = s.clk ∧
    t.nmiPending = s.nmiPending ∧ t.platform = s.platform ∧ t.inputs = s.inputs

end Sys2Proof.Machine
end

