-- ==== Sys2Proof/Certificates/Slice0/Obligations.lean ====
section
/-! DEFINITION. The statements for the provers. `exec i s` runs in a state whose PC is already advanced past `i`
(10_state.md R26); a fault of the spec is a next state whose run_state is Faulted (log entry 1). -/

open Sys2Proof Sys2Proof.Machine

/-! ## Encoding -/

/-- Decoding the bytes of any well-formed instruction, whatever follows them, gives it back with every operand. -/
def Obligations.DecodeOfEncodeIsTheInstruction : Prop :=
  ∀ (i : Instr) (rest : List Byte), i.wf = true → decode (encode i ++ rest) = .ok (i, rest)

/-- Bytes that decode to an instruction are its encoding, and the instruction is well-formed: each word has one
meaning. -/
def Obligations.DecodedBytesAreTheEncoding : Prop :=
  ∀ (bytes : List Byte) (i : Instr) (rest : List Byte),
    decode bytes = .ok (i, rest) → i.wf = true ∧ encode i ++ rest = bytes

/-- Every opcode byte has a shape, and the shape's bytes always decode (R84, R88): operation, mode and length are the
table's, and what follows is left over. -/
def Obligations.EveryFetchedInstructionDecodes : Prop :=
  ∀ (opcode : Byte) (rest : List Byte), (lookup opcode).length ≤ rest.length + 1 →
    ∃ i, decode (opcode :: rest) = .ok (i, rest.drop ((lookup opcode).length - 1)) ∧
      i.operation = (lookup opcode).operation ∧ i.operand.mode = (lookup opcode).mode ∧
      i.length = (lookup opcode).length ∧ (lookup opcode).length = (lookup opcode).mode.length

/-- The bytes outside the 151 defined rows have the shape (Unsupported, Implied, 1, 0) (R86), and the defined rows
have none of them. -/
def Obligations.UndefinedBytesHaveUnsupportedShape : Prop :=
  ∀ b : Byte, (b ∈ undefinedBytes ↔ (lookup b).operation = .unsupported) ∧
    (b ∈ undefinedBytes → lookup b = ⟨.unsupported, .implied, 1, 0⟩) ∧ undefinedBytes.length = 105

/-- A few words written out from the encodings of opcode_table.json; and the base cycles of all 256 rows (the cyc column
of R106, and 0 for an undefined byte, R86), written out in the grid of R107: row by high nibble, column by low. -/
def Obligations.SpecWordsDecode : Prop :=
  decodeTableWord 8 0x00 = some .brk ∧
  decodeTableWord 16 0x10A9 = some (.lda (.immediate 0x10)) ∧
  decodeTableWord 16 0xFB30 = some (.bmi 0xFB) ∧
  decodeTableWord 24 0x1234BD = some (.lda (.absoluteX 0x1234)) ∧
  decodeTableWord 16 0x2091 = some (.sta (.indirectY 0x20)) ∧
  decodeTableWord 24 0x12FF6C = some (.jmp (.indirect 0x12FF)) ∧
  decodeTableWord 8 0x6A = some (.ror .accumulator) ∧
  decodeTableWord 8 0x02 = some (.unsupported 0x02) ∧
  rowCycles 0x0 = [7, 6, 0, 0, 0, 3, 5, 0, 3, 2, 2, 0, 0, 4, 6, 0] ∧
  rowCycles 0x1 = [2, 5, 0, 0, 0, 4, 6, 0, 2, 4, 0, 0, 0, 4, 7, 0] ∧
  rowCycles 0x2 = [6, 6, 0, 0, 3, 3, 5, 0, 4, 2, 2, 0, 4, 4, 6, 0] ∧
  rowCycles 0x3 = [2, 5, 0, 0, 0, 4, 6, 0, 2, 4, 0, 0, 0, 4, 7, 0] ∧
  rowCycles 0x4 = [6, 6, 0, 0, 0, 3, 5, 0, 3, 2, 2, 0, 3, 4, 6, 0] ∧
  rowCycles 0x5 = [2, 5, 0, 0, 0, 4, 6, 0, 2, 4, 0, 0, 0, 4, 7, 0] ∧
  rowCycles 0x6 = [6, 6, 0, 0, 0, 3, 5, 0, 4, 2, 2, 0, 5, 4, 6, 0] ∧
  rowCycles 0x7 = [2, 5, 0, 0, 0, 4, 6, 0, 2, 4, 0, 0, 0, 4, 7, 0] ∧
  rowCycles 0x8 = [0, 6, 0, 0, 3, 3, 3, 0, 2, 0, 2, 0, 4, 4, 4, 0] ∧
  rowCycles 0x9 = [2, 6, 0, 0, 4, 4, 4, 0, 2, 5, 2, 0, 0, 5, 0, 0] ∧
  rowCycles 0xA = [2, 6, 2, 0, 3, 3, 3, 0, 2, 2, 2, 0, 4, 4, 4, 0] ∧
  rowCycles 0xB = [2, 5, 0, 0, 4, 4, 4, 0, 2, 4, 2, 0, 4, 4, 4, 0] ∧
  rowCycles 0xC = [2, 6, 0, 0, 3, 3, 5, 0, 2, 2, 2, 0, 4, 4, 6, 0] ∧
  rowCycles 0xD = [2, 5, 0, 0, 0, 4, 6, 0, 2, 4, 0, 0, 0, 4, 7, 0] ∧
  rowCycles 0xE = [2, 6, 0, 0, 3, 3, 5, 0, 2, 2, 2, 0, 4, 4, 6, 0] ∧
  rowCycles 0xF = [2, 5, 0, 0, 0, 4, 6, 0, 2, 4, 0, 0, 0, 4, 7, 0]

/-! ## Memory contract -/

/-- A byte store of an addressable address is seen by the next read of it, every other read is as before, and nothing
but memory changes; at any other address it faults and changes nothing (R51, R52). That memory gives back what was
stored is the model's choice of plain RAM (log entry 4). -/
def Obligations.StoredByteIsReadBack : Prop :=
  ∀ (a : Word) (v : Byte) (s : State),
    (addressable s.platform a = true →
      ∃ m, MemoryAfter s m [(a, v)] ∧ memWrite a v s = .done () { s with mem := m }) ∧
    (addressable s.platform a = false → memWrite a v s = .raised (.memoryAccess a) s) ∧
    (addressable s.platform a = true → memRead a s = .ok (byteAt s a)) ∧
    (addressable s.platform a = false → memRead a s = .error (.memoryAccess a))

/-- A 16-bit read (R56): a fault at 0xFFFF; elsewhere the low byte from `a` and the high byte from `a + 1`, with no
wrap inside a page; the first byte that is not addressable is the fault. -/
def Obligations.WordReadIsLittleEndianWithoutPageWrap : Prop :=
  ∀ (a : Word) (s : State),
    (a = 0xFFFF#16 → memRead16 a s = .error (.memoryAccess 0xFFFF#16)) ∧
    (a ≠ 0xFFFF#16 →
      (addressable s.platform a = true → addressable s.platform (a + 1#16) = true →
        ∃ w : Word, memRead16 a s = .ok w ∧
          w.toNat = (Memory.read s.mem a.toNat).toNat + 256 * (Memory.read s.mem (a.toNat + 1)).toNat) ∧
      (addressable s.platform a = false → memRead16 a s = .error (.memoryAccess a)) ∧
      (addressable s.platform a = true → addressable s.platform (a + 1#16) = false →
        memRead16 a s = .error (.memoryAccess (a + 1#16))))

/-- The fetch read (R57): refused as a whole when it would pass 0xFFFF; otherwise the bytes in ascending order, or the
fault of the first one that is not addressable. -/
def Obligations.FetchReadIsAscendingAndBounded : Prop :=
  ∀ (a : Word) (n : Nat) (s : State),
    (0x10000 < a.toNat + n → memReadN a n s = .error (.memoryAccess a)) ∧
    (a.toNat + n ≤ 0x10000 →
      ((∀ k, k < n → addressable s.platform (a + BitVec.ofNat 16 k) = true) →
        memReadN a n s = .ok ((List.range n).map fun k => Memory.read s.mem (a.toNat + k))) ∧
      (∀ k, k < n → addressable s.platform (a + BitVec.ofNat 16 k) = false →
        (∀ j, j < k → addressable s.platform (a + BitVec.ofNat 16 j) = true) →
        memReadN a n s = .error (.memoryAccess (a + BitVec.ofNat 16 k))))

/-! ## Addressing modes -/

/-- The modes that read no memory (R90 to R99): no input, accumulator, immediate byte, or an address, with 8-bit
wrap in the zero page and 16-bit wrap elsewhere; a branch target is relative to the advanced PC. -/
def Obligations.DirectModesResolve : Prop :=
  ∀ (s : State) (b : Byte) (w : Word),
    resolve .implied s = .ok .none ∧ resolve .accumulator s = .ok .acc ∧ resolve (.immediate b) s = .ok (.imm b) ∧
    (∃ a : Word, resolve (.relative b) s = .ok (.addr a) ∧
      (a.toNat : Int) = ((s.pc.toNat : Int) + b.toNat - (if 128 ≤ b.toNat then 256 else 0)) % 65536) ∧
    (∃ a : Word, resolve (.zeroPage b) s = .ok (.addr a) ∧ a.toNat = b.toNat) ∧
    (∃ a : Word, resolve (.zeroPageX b) s = .ok (.addr a) ∧ a.toNat = (b.toNat + s.x.toNat) % 256) ∧
    (∃ a : Word, resolve (.zeroPageY b) s = .ok (.addr a) ∧ a.toNat = (b.toNat + s.y.toNat) % 256) ∧
    resolve (.absolute w) s = .ok (.addr w) ∧
    (∃ a : Word, resolve (.absoluteX w) s = .ok (.addr a) ∧ a.toNat = (w.toNat + s.x.toNat) % 65536) ∧
    (∃ a : Word, resolve (.absoluteY w) s = .ok (.addr a) ∧ a.toNat = (w.toNat + s.y.toNat) % 65536)

/-- The three indirect modes (R100 to R102): the pointer's location wraps inside the zero page for (Indirect,X), its
second byte never does, Y is added with 16-bit wrap, and the pointer read's fault is the resolver's. -/
def Obligations.IndirectModesDereference : Prop :=
  ∀ (s : State) (b : Byte) (p : Word),
    resolve (.indirect p) s = (memRead16 p s).map Input.addr ∧
    (∃ z : Word, z.toNat = (b.toNat + s.x.toNat) % 256 ∧ resolve (.indirectX b) s = (memRead16 z s).map Input.addr) ∧
    (∃ z : Word, z.toNat = b.toNat ∧
      ((∃ f, memRead16 z s = .error f ∧ resolve (.indirectY b) s = .error f) ∨
       (∃ w a : Word, memRead16 z s = .ok w ∧ resolve (.indirectY b) s = .ok (.addr a) ∧
          a.toNat = (w.toNat + s.y.toNat) % 65536)))

/-! ## Loads and stores -/

/-- LDA, LDX and LDY (R110 to R112) copy the operand's byte into their register and set Z and N from it; nothing else
changes. -/
def Obligations.LoadsCopyTheOperand : Prop :=
  ∀ (o : Operand) (s : State),
    (∀ m, DataByte o s m → ∃ p, StatusAfter s.p p (znOf m) ∧
      exec (.lda o) s = .next { s with a := m, p := p } ∧
      exec (.ldx o) s = .next { s with x := m, p := p } ∧
      exec (.ldy o) s = .next { s with y := m, p := p }) ∧
    FaultsWithOperand (.lda o) s ∧ FaultsWithOperand (.ldx o) s ∧ FaultsWithOperand (.ldy o) s

/-- STA, STX and STY (R113 to R115) write their register to the effective address and change nothing else. -/
def Obligations.StoresWriteTheRegister : Prop :=
  ∀ (o : Operand) (s : State),
    (∀ a, resolve o s = .ok (.addr a) → addressable s.platform a = true →
      (∃ m, MemoryAfter s m [(a, s.a)] ∧ exec (.sta o) s = .next { s with mem := m }) ∧
      (∃ m, MemoryAfter s m [(a, s.x)] ∧ exec (.stx o) s = .next { s with mem := m }) ∧
      (∃ m, MemoryAfter s m [(a, s.y)] ∧ exec (.sty o) s = .next { s with mem := m })) ∧
    FaultsWithOperand (.sta o) s ∧ FaultsWithOperand (.stx o) s ∧ FaultsWithOperand (.sty o) s

/-! ## Arithmetic and compares -/

/-- ADC (R123): the sum of A, the operand and C as a natural number, its low byte in A, C iff it passes 255, V iff the
signed sum leaves -128 to 127, Z and N from the result; D is not read. -/
def Obligations.AdcAddsWithCarry : Prop :=
  ∀ (o : Operand) (s : State),
    (∀ m, DataByte o s m → ∃ (r p : Byte),
      r.toNat = (s.a.toNat + m.toNat + (s.flag .c).toNat) % 256 ∧
      StatusAfter s.p p ([(.c, decide (255 < s.a.toNat + m.toNat + (s.flag .c).toNat)),
        (.v, decide (s.a.toInt + m.toInt + (s.flag .c).toInt < -128 ∨ 127 < s.a.toInt + m.toInt + (s.flag .c).toInt))]
        ++ znOf r) ∧
      exec (.adc o) s = .next { s with a := r, p := p }) ∧
    FaultsWithOperand (.adc o) s

/-- SBC (R124): the difference A - m - (1 - C), its low byte in A, C iff there is no borrow, V iff the signed
difference leaves -128 to 127, Z and N from the result; D is not read. -/
def Obligations.SbcSubtractsWithBorrow : Prop :=
  ∀ (o : Operand) (s : State),
    (∀ m, DataByte o s m → ∃ (r p : Byte),
      (r.toNat : Int) = ((s.a.toNat : Int) - m.toNat - (1 - (s.flag .c).toInt)) % 256 ∧
      StatusAfter s.p p ([(.c, decide (m.toNat + (1 - (s.flag .c).toNat) ≤ s.a.toNat)),
        (.v, decide (s.a.toInt - m.toInt - (1 - (s.flag .c).toInt) < -128 ∨
          127 < s.a.toInt - m.toInt - (1 - (s.flag .c).toInt)))] ++ znOf r) ∧
      exec (.sbc o) s = .next { s with a := r, p := p }) ∧
    FaultsWithOperand (.sbc o) s

/-- CMP, CPX and CPY (R125 to R127): C iff the register is at least the operand as an unsigned number, Z iff they are
equal, N bit 7 of the 8-bit difference; no register and no other flag changes. -/
def Obligations.ComparesSetCarryZeroNegative : Prop :=
  ∀ (o : Operand) (s : State),
    (∀ m, DataByte o s m →
      (∃ p, StatusAfter s.p p [(.c, decide (m.toNat ≤ s.a.toNat)), (.z, decide (s.a = m)),
          (.n, decide (128 ≤ (s.a.toNat + 256 - m.toNat) % 256))] ∧ exec (.cmp o) s = .next { s with p := p }) ∧
      (∃ p, StatusAfter s.p p [(.c, decide (m.toNat ≤ s.x.toNat)), (.z, decide (s.x = m)),
          (.n, decide (128 ≤ (s.x.toNat + 256 - m.toNat) % 256))] ∧ exec (.cpx o) s = .next { s with p := p }) ∧
      (∃ p, StatusAfter s.p p [(.c, decide (m.toNat ≤ s.y.toNat)), (.z, decide (s.y = m)),
          (.n, decide (128 ≤ (s.y.toNat + 256 - m.toNat) % 256))] ∧ exec (.cpy o) s = .next { s with p := p })) ∧
    FaultsWithOperand (.cmp o) s ∧ FaultsWithOperand (.cpx o) s ∧ FaultsWithOperand (.cpy o) s

/-! ## Logic, bit test, shifts and rotates -/

/-- AND, ORA and EOR (R140 to R142): A becomes the bitwise result with the operand, Z and N from it. -/
def Obligations.LogicCombinesWithAccumulator : Prop :=
  ∀ (o : Operand) (s : State),
    (∀ m, DataByte o s m →
      (∃ p, StatusAfter s.p p (znOf (s.a &&& m)) ∧ exec (.and o) s = .next { s with a := s.a &&& m, p := p }) ∧
      (∃ p, StatusAfter s.p p (znOf (s.a ||| m)) ∧ exec (.ora o) s = .next { s with a := s.a ||| m, p := p }) ∧
      (∃ p, StatusAfter s.p p (znOf (s.a ^^^ m)) ∧ exec (.eor o) s = .next { s with a := s.a ^^^ m, p := p })) ∧
    FaultsWithOperand (.and o) s ∧ FaultsWithOperand (.ora o) s ∧ FaultsWithOperand (.eor o) s

/-- BIT (R143): Z iff A and the memory byte have no bit in common, N and V are bits 7 and 6 of the memory byte; A and
memory stay. -/
def Obligations.BitTestsMemory : Prop :=
  ∀ (o : Operand) (s : State),
    (∀ a, resolve o s = .ok (.addr a) → addressable s.platform a = true →
      ∃ p, StatusAfter s.p p [(.z, decide (s.a &&& byteAt s a = 0)), (.n, decide (128 ≤ (byteAt s a).toNat)),
          (.v, decide (64 ≤ (byteAt s a).toNat % 128))] ∧
        exec (.bit o) s = .next { s with p := p }) ∧
    FaultsWithOperand (.bit o) s

/-- ASL, LSR, ROL and ROR of the accumulator (R144 to R147): the result as arithmetic on the old value v and the old
carry c, C the bit shifted out, Z and N from the result. -/
def Obligations.ShiftsOfTheAccumulator : Prop :=
  ∀ (s : State),
    (∃ r p : Byte, r.toNat = s.a.toNat * 2 % 256 ∧
      StatusAfter s.p p ((.c, decide (128 ≤ s.a.toNat)) :: znOf r) ∧
      exec (.asl .accumulator) s = .next { s with a := r, p := p }) ∧
    (∃ r p : Byte, r.toNat = s.a.toNat / 2 ∧
      StatusAfter s.p p ((.c, decide (s.a.toNat % 2 = 1)) :: znOf r) ∧
      exec (.lsr .accumulator) s = .next { s with a := r, p := p }) ∧
    (∃ r p : Byte, r.toNat = s.a.toNat * 2 % 256 + (s.flag .c).toNat ∧
      StatusAfter s.p p ((.c, decide (128 ≤ s.a.toNat)) :: znOf r) ∧
      exec (.rol .accumulator) s = .next { s with a := r, p := p }) ∧
    (∃ r p : Byte, r.toNat = s.a.toNat / 2 + 128 * (s.flag .c).toNat ∧
      StatusAfter s.p p ((.c, decide (s.a.toNat % 2 = 1)) :: znOf r) ∧
      exec (.ror .accumulator) s = .next { s with a := r, p := p })

/-- ASL, LSR, ROL and ROR of a memory byte (R144 to R147): one read and one write of the effective address, the flags
as for the accumulator; no register changes. -/
def Obligations.ShiftsOfMemory : Prop :=
  ∀ (o : Operand) (s : State),
    (∀ a, resolve o s = .ok (.addr a) → addressable s.platform a = true →
      (∃ (r p : Byte) (m : Memory), r.toNat = (byteAt s a).toNat * 2 % 256 ∧
        StatusAfter s.p p ((.c, decide (128 ≤ (byteAt s a).toNat)) :: znOf r) ∧ MemoryAfter s m [(a, r)] ∧
        exec (.asl o) s = .next { s with mem := m, p := p }) ∧
      (∃ (r p : Byte) (m : Memory), r.toNat = (byteAt s a).toNat / 2 ∧
        StatusAfter s.p p ((.c, decide ((byteAt s a).toNat % 2 = 1)) :: znOf r) ∧ MemoryAfter s m [(a, r)] ∧
        exec (.lsr o) s = .next { s with mem := m, p := p }) ∧
      (∃ (r p : Byte) (m : Memory), r.toNat = (byteAt s a).toNat * 2 % 256 + (s.flag .c).toNat ∧
        StatusAfter s.p p ((.c, decide (128 ≤ (byteAt s a).toNat)) :: znOf r) ∧ MemoryAfter s m [(a, r)] ∧
        exec (.rol o) s = .next { s with mem := m, p := p }) ∧
      (∃ (r p : Byte) (m : Memory), r.toNat = (byteAt s a).toNat / 2 + 128 * (s.flag .c).toNat ∧
        StatusAfter s.p p ((.c, decide ((byteAt s a).toNat % 2 = 1)) :: znOf r) ∧ MemoryAfter s m [(a, r)] ∧
        exec (.ror o) s = .next { s with mem := m, p := p })) ∧
    FaultsWithOperand (.asl o) s ∧ FaultsWithOperand (.lsr o) s ∧
    FaultsWithOperand (.rol o) s ∧ FaultsWithOperand (.ror o) s

/-- A rotate left and then a rotate right of the accumulator give back A and the carry (a 9-bit rotate). -/
def Obligations.RotatesAreInverse : Prop :=
  ∀ s t u : State, exec (.rol .accumulator) s = .next t → exec (.ror .accumulator) t = .next u →
    u.a = s.a ∧ u.flag .c = s.flag .c ∧ t.flag .c = s.a.getLsbD 7

/-! ## Flags, transfers, increments and decrements -/

/-- CLC, CLD, CLI, CLV, SEC, SED and SEI (R160 to R166) write exactly one flag; NOP (R179) writes nothing. -/
def Obligations.FlagInstructionsWriteOneFlag : Prop :=
  ∀ s : State,
    (∃ p, StatusAfter s.p p [(.c, false)] ∧ exec .clc s = .next { s with p := p }) ∧
    (∃ p, StatusAfter s.p p [(.d, false)] ∧ exec .cld s = .next { s with p := p }) ∧
    (∃ p, StatusAfter s.p p [(.i, false)] ∧ exec .cli s = .next { s with p := p }) ∧
    (∃ p, StatusAfter s.p p [(.v, false)] ∧ exec .clv s = .next { s with p := p }) ∧
    (∃ p, StatusAfter s.p p [(.c, true)] ∧ exec .sec s = .next { s with p := p }) ∧
    (∃ p, StatusAfter s.p p [(.d, true)] ∧ exec .sed s = .next { s with p := p }) ∧
    (∃ p, StatusAfter s.p p [(.i, true)] ∧ exec .sei s = .next { s with p := p }) ∧
    exec .nop s = .next s

/-- TAX, TAY, TXA, TYA and TSX (R167 to R171) copy a register and set Z and N from it; TXS (R172) writes no flag. -/
def Obligations.TransfersCopyARegister : Prop :=
  ∀ s : State,
    (∃ p, StatusAfter s.p p (znOf s.a) ∧ exec .tax s = .next { s with x := s.a, p := p } ∧
      exec .tay s = .next { s with y := s.a, p := p }) ∧
    (∃ p, StatusAfter s.p p (znOf s.x) ∧ exec .txa s = .next { s with a := s.x, p := p }) ∧
    (∃ p, StatusAfter s.p p (znOf s.y) ∧ exec .tya s = .next { s with a := s.y, p := p }) ∧
    (∃ p, StatusAfter s.p p (znOf s.sp) ∧ exec .tsx s = .next { s with x := s.sp, p := p }) ∧
    exec .txs s = .next { s with sp := s.x }

/-- INX, INY, DEX and DEY (R173 to R176): plus or minus one modulo 256, Z and N from the result, no other flag. -/
def Obligations.IndexRegistersCountModulo256 : Prop :=
  ∀ s : State,
    (∃ r p : Byte, r.toNat = (s.x.toNat + 1) % 256 ∧ StatusAfter s.p p (znOf r) ∧
      exec .inx s = .next { s with x := r, p := p }) ∧
    (∃ r p : Byte, r.toNat = (s.y.toNat + 1) % 256 ∧ StatusAfter s.p p (znOf r) ∧
      exec .iny s = .next { s with y := r, p := p }) ∧
    (∃ r p : Byte, r.toNat = (s.x.toNat + 255) % 256 ∧ StatusAfter s.p p (znOf r) ∧
      exec .dex s = .next { s with x := r, p := p }) ∧
    (∃ r p : Byte, r.toNat = (s.y.toNat + 255) % 256 ∧ StatusAfter s.p p (znOf r) ∧
      exec .dey s = .next { s with y := r, p := p })

/-- INC and DEC (R177, R178): the byte at the effective address plus or minus one modulo 256, Z and N from the
result. -/
def Obligations.MemoryCountsModulo256 : Prop :=
  ∀ (o : Operand) (s : State),
    (∀ a, resolve o s = .ok (.addr a) → addressable s.platform a = true →
      (∃ (r p : Byte) (m : Memory), r.toNat = ((byteAt s a).toNat + 1) % 256 ∧ StatusAfter s.p p (znOf r) ∧
        MemoryAfter s m [(a, r)] ∧ exec (.inc o) s = .next { s with mem := m, p := p }) ∧
      (∃ (r p : Byte) (m : Memory), r.toNat = ((byteAt s a).toNat + 255) % 256 ∧ StatusAfter s.p p (znOf r) ∧
        MemoryAfter s m [(a, r)] ∧ exec (.dec o) s = .next { s with mem := m, p := p })) ∧
    FaultsWithOperand (.inc o) s ∧ FaultsWithOperand (.dec o) s

/-! ## Branches, jumps and subroutines -/

/-- The eight branches (R195 to R203): PC becomes the advanced PC plus the signed displacement modulo 2^16 when the
flag has the branch's value, and stays the advanced PC otherwise; nothing else changes. -/
def Obligations.BranchesFollowTheirFlag : Prop :=
  ∀ (d : Byte) (s : State), ∃ target : Word,
    (target.toNat : Int) = ((s.pc.toNat : Int) + d.toNat - (if 128 ≤ d.toNat then 256 else 0)) % 65536 ∧
    exec (.bcc d) s = .next { s with pc := if s.flag .c = false then target else s.pc } ∧
    exec (.bcs d) s = .next { s with pc := if s.flag .c = true then target else s.pc } ∧
    exec (.beq d) s = .next { s with pc := if s.flag .z = true then target else s.pc } ∧
    exec (.bne d) s = .next { s with pc := if s.flag .z = false then target else s.pc } ∧
    exec (.bmi d) s = .next { s with pc := if s.flag .n = true then target else s.pc } ∧
    exec (.bpl d) s = .next { s with pc := if s.flag .n = false then target else s.pc } ∧
    exec (.bvc d) s = .next { s with pc := if s.flag .v = false then target else s.pc } ∧
    exec (.bvs d) s = .next { s with pc := if s.flag .v = true then target else s.pc }

/-- JMP (R204): PC becomes the operand's address, for Indirect the word at the pointer; a pointer read that faults
ends the run and changes nothing else. -/
def Obligations.JumpGoesToItsAddress : Prop :=
  ∀ (s : State) (w : Word),
    exec (.jmp (.absolute w)) s = .next { s with pc := w } ∧
    (∀ target, memRead16 w s = .ok target → exec (.jmp (.indirect w)) s = .next { s with pc := target }) ∧
    (∀ f, memRead16 w s = .error f →
      exec (.jmp (.indirect w)) s = .next (raiseFault f (some (s.pc - 3#16)) s))

/-- JSR (R205): pushes the address of its own last byte (the advanced PC minus 1), high byte first, and jumps; the
first push that faults ends the run with what is pushed so far. -/
def Obligations.JsrPushesReturnAddress : Prop :=
  ∀ (a : Word) (s : State),
    (addressable s.platform (stackAddress s.sp) = true → addressable s.platform (stackAddress (s.sp - 1#8)) = true →
      ∃ m, MemoryAfter s m [(stackAddress s.sp, BitVec.ofNat 8 ((s.pc - 1#16).toNat / 256)),
          (stackAddress (s.sp - 1#8), BitVec.ofNat 8 (s.pc - 1#16).toNat)] ∧
        exec (.jsr a) s = .next { s with mem := m, sp := s.sp - 2#8, pc := a }) ∧
    (addressable s.platform (stackAddress s.sp) = false →
      exec (.jsr a) s = .next (raiseFault (.memoryAccess (stackAddress s.sp)) (some (s.pc - 3#16)) s)) ∧
    (addressable s.platform (stackAddress s.sp) = true → addressable s.platform (stackAddress (s.sp - 1#8)) = false →
      ∃ m, MemoryAfter s m [(stackAddress s.sp, BitVec.ofNat 8 ((s.pc - 1#16).toNat / 256))] ∧
        exec (.jsr a) s = .next (raiseFault (.memoryAccess (stackAddress (s.sp - 1#8))) (some (s.pc - 3#16))
          { s with mem := m, sp := s.sp - 1#8 }))

/-- RTS (R206): PC becomes the pulled word (low byte first) plus 1 modulo 2^16; both stack bytes are cleared. The
first pull that faults ends the run with SP already incremented for it. -/
def Obligations.RtsReturnsPastPulledAddress : Prop :=
  ∀ (s : State),
    (addressable s.platform (stackAddress (s.sp + 1#8)) = true →
      addressable s.platform (stackAddress (s.sp + 2#8)) = true →
      ∃ (m : Memory) (target : Word), MemoryAfter s m [(stackAddress (s.sp + 1#8), 0#8), (stackAddress (s.sp + 2#8), 0#8)] ∧
        target.toNat = ((byteAt s (stackAddress (s.sp + 1#8))).toNat +
          256 * (byteAt s (stackAddress (s.sp + 2#8))).toNat + 1) % 65536 ∧
        exec .rts s = .next { s with mem := m, sp := s.sp + 2#8, pc := target }) ∧
    (addressable s.platform (stackAddress (s.sp + 1#8)) = false →
      exec .rts s = .next (raiseFault (.memoryAccess (stackAddress (s.sp + 1#8))) (some (s.pc - 1#16))
        { s with sp := s.sp + 1#8 })) ∧
    (addressable s.platform (stackAddress (s.sp + 1#8)) = true →
      addressable s.platform (stackAddress (s.sp + 2#8)) = false →
      ∃ m, MemoryAfter s m [(stackAddress (s.sp + 1#8), 0#8)] ∧
        exec .rts s = .next (raiseFault (.memoryAccess (stackAddress (s.sp + 2#8))) (some (s.pc - 1#16))
          { s with mem := m, sp := s.sp + 2#8 }))

/-- A JSR and then an RTS with the stack untouched between them: PC is the address after the JSR and SP is restored. -/
def Obligations.JsrThenRtsComesBack : Prop :=
  ∀ (a : Word) (s t u : State), exec (.jsr a) s = .next t → t.runState = .running → exec .rts t = .next u →
    u.pc = s.pc ∧ u.sp = s.sp ∧
      SameMemoryOutside [stackAddress s.sp, stackAddress (s.sp - 1#8)] s u ∧
      byteAt u (stackAddress s.sp) = 0 ∧ byteAt u (stackAddress (s.sp - 1#8)) = 0

/-! ## The stack -/

/-- The address SP names is 0x0100 + SP, in the stack page (R24, R61). -/
def Obligations.StackAddressIsInItsPage : Prop :=
  ∀ sp : Byte, (stackAddress sp).toNat = 256 + sp.toNat ∧ 0x0100 ≤ (stackAddress sp).toNat ∧
    (stackAddress sp).toNat ≤ 0x01FF

/-- Push (R190): the byte at 0x0100 + SP, then SP minus 1 modulo 256; a write that faults leaves everything. -/
def Obligations.PushStoresThenDecrements : Prop :=
  ∀ (v : Byte) (s : State),
    (addressable s.platform (stackAddress s.sp) = true →
      ∃ (m : Memory) (r : Byte), MemoryAfter s m [(stackAddress s.sp, v)] ∧ r.toNat = (s.sp.toNat + 255) % 256 ∧
        push v s = .done () { s with mem := m, sp := r }) ∧
    (addressable s.platform (stackAddress s.sp) = false →
      push v s = .raised (.memoryAccess (stackAddress s.sp)) s)

/-- Pull (R191): SP plus 1 modulo 256, then the byte at 0x0100 + SP, which is then cleared; a read that faults leaves
SP incremented and nothing else changed. -/
def Obligations.PullIncrementsReadsAndClears : Prop :=
  ∀ (s : State), ∃ r : Byte, r.toNat = (s.sp.toNat + 1) % 256 ∧
    (addressable s.platform (stackAddress r) = true →
      ∃ m, MemoryAfter s m [(stackAddress r, 0#8)] ∧
        pull s = .done (byteAt s (stackAddress r)) { s with mem := m, sp := r }) ∧
    (addressable s.platform (stackAddress r) = false →
      pull s = .raised (.memoryAccess (stackAddress r)) { s with sp := r })

/-- The stack law (R194): a push and then a pull return the byte and the old SP, leave the stack byte 0x00 and every
other byte as it was. -/
def Obligations.PushThenPullRestoresSp : Prop :=
  ∀ (v : Byte) (s t : State), push v s = .done () t →
    ∃ u, pull t = .done v u ∧ u.sp = s.sp ∧ byteAt u (stackAddress s.sp) = 0 ∧
      SameMemoryOutside [stackAddress s.sp] s u

/-- PHA (R207) pushes A, PHP (R208) pushes P with bits 5 and 4 set; no register but SP changes, and P stays. A push
that faults ends the run. -/
def Obligations.PhaAndPhpPush : Prop :=
  ∀ (s : State),
    (addressable s.platform (stackAddress s.sp) = true →
      (∃ m, MemoryAfter s m [(stackAddress s.sp, s.a)] ∧ exec .pha s = .next { s with mem := m, sp := s.sp - 1#8 }) ∧
      (∃ (m : Memory) (b : Byte), StatusAfter s.p b [(.b5, true), (.b4, true)] ∧
        MemoryAfter s m [(stackAddress s.sp, b)] ∧ exec .php s = .next { s with mem := m, sp := s.sp - 1#8 })) ∧
    (addressable s.platform (stackAddress s.sp) = false →
      exec .pha s = .next (raiseFault (.memoryAccess (stackAddress s.sp)) (some (s.pc - 1#16)) s) ∧
      exec .php s = .next (raiseFault (.memoryAccess (stackAddress s.sp)) (some (s.pc - 1#16)) s))

/-- PLA (R209) pulls A and sets Z and N from it, PLP (R210) pulls all eight bits of P; the vacated byte is cleared. A
pull that faults ends the run with SP already incremented. -/
def Obligations.PlaAndPlpPull : Prop :=
  ∀ (s : State),
    (addressable s.platform (stackAddress (s.sp + 1#8)) = true →
      ∃ m, MemoryAfter s m [(stackAddress (s.sp + 1#8), 0#8)] ∧
        (∃ p, StatusAfter s.p p (znOf (byteAt s (stackAddress (s.sp + 1#8)))) ∧
          exec .pla s = .next { s with mem := m, sp := s.sp + 1#8, a := byteAt s (stackAddress (s.sp + 1#8)), p := p }) ∧
        exec .plp s = .next { s with mem := m, sp := s.sp + 1#8, p := byteAt s (stackAddress (s.sp + 1#8)) }) ∧
    (addressable s.platform (stackAddress (s.sp + 1#8)) = false →
      exec .pla s = .next (raiseFault (.memoryAccess (stackAddress (s.sp + 1#8))) (some (s.pc - 1#16))
        { s with sp := s.sp + 1#8 }) ∧
      exec .plp s = .next (raiseFault (.memoryAccess (stackAddress (s.sp + 1#8))) (some (s.pc - 1#16))
        { s with sp := s.sp + 1#8 }))

/-- A PHP and then a PLP load P back with bits 5 and 4 set. -/
def Obligations.PhpThenPlpSetsBreakBits : Prop :=
  ∀ s t u : State, exec .php s = .next t → t.runState = .running → exec .plp t = .next u →
    u.p = s.p ||| 0x30 ∧ u.sp = s.sp

/-! ## Break, return and interrupts -/

/-- BRK (R211): pushes the advanced PC, high byte first, and P with bits 5 and 4 set; sets the live B5, B4 and I; goes
to the latched IRQ vector. The first push that faults ends the run with what is pushed so far. -/
def Obligations.BrkEntersTheHandler : Prop :=
  ∀ (s : State),
    (addressable s.platform (stackAddress s.sp) = true → addressable s.platform (stackAddress (s.sp - 1#8)) = true →
      addressable s.platform (stackAddress (s.sp - 2#8)) = true →
      ∃ (m : Memory) (p b : Byte), StatusAfter s.p b [(.b5, true), (.b4, true)] ∧
        MemoryAfter s m [(stackAddress s.sp, BitVec.ofNat 8 (s.pc.toNat / 256)),
          (stackAddress (s.sp - 1#8), BitVec.ofNat 8 s.pc.toNat), (stackAddress (s.sp - 2#8), b)] ∧
        StatusAfter s.p p [(.b5, true), (.b4, true), (.i, true)] ∧
        exec .brk s = .next { s with mem := m, sp := s.sp - 3#8, p := p, pc := s.irqVec }) ∧
    (addressable s.platform (stackAddress s.sp) = false →
      exec .brk s = .next (raiseFault (.memoryAccess (stackAddress s.sp)) (some (s.pc - 1#16)) s)) ∧
    (addressable s.platform (stackAddress s.sp) = true → addressable s.platform (stackAddress (s.sp - 1#8)) = false →
      ∃ m, MemoryAfter s m [(stackAddress s.sp, BitVec.ofNat 8 (s.pc.toNat / 256))] ∧
        exec .brk s = .next (raiseFault (.memoryAccess (stackAddress (s.sp - 1#8))) (some (s.pc - 1#16))
          { s with mem := m, sp := s.sp - 1#8 })) ∧
    (addressable s.platform (stackAddress s.sp) = true → addressable s.platform (stackAddress (s.sp - 1#8)) = true →
      addressable s.platform (stackAddress (s.sp - 2#8)) = false →
      ∃ m, MemoryAfter s m [(stackAddress s.sp, BitVec.ofNat 8 (s.pc.toNat / 256)),
          (stackAddress (s.sp - 1#8), BitVec.ofNat 8 s.pc.toNat)] ∧
        exec .brk s = .next (raiseFault (.memoryAccess (stackAddress (s.sp - 2#8))) (some (s.pc - 1#16))
          { s with mem := m, sp := s.sp - 2#8 }))

/-- RTI (R212): pulls all eight bits of P, then PC low byte first and without adjustment; the three bytes are
cleared. The first pull that faults ends the run with what the pulls before it did, P included. -/
def Obligations.RtiRestoresStatusAndPc : Prop :=
  ∀ (s : State),
    (addressable s.platform (stackAddress (s.sp + 1#8)) = true →
      addressable s.platform (stackAddress (s.sp + 2#8)) = true →
      addressable s.platform (stackAddress (s.sp + 3#8)) = true →
      ∃ (m : Memory) (target : Word),
        MemoryAfter s m [(stackAddress (s.sp + 1#8), 0#8), (stackAddress (s.sp + 2#8), 0#8), (stackAddress (s.sp + 3#8), 0#8)] ∧
        target.toNat = (byteAt s (stackAddress (s.sp + 2#8))).toNat +
          256 * (byteAt s (stackAddress (s.sp + 3#8))).toNat ∧
        exec .rti s = .next { s with mem := m, sp := s.sp + 3#8, p := byteAt s (stackAddress (s.sp + 1#8)), pc := target }) ∧
    (addressable s.platform (stackAddress (s.sp + 1#8)) = false →
      exec .rti s = .next (raiseFault (.memoryAccess (stackAddress (s.sp + 1#8))) (some (s.pc - 1#16))
        { s with sp := s.sp + 1#8 })) ∧
    (addressable s.platform (stackAddress (s.sp + 1#8)) = true →
      addressable s.platform (stackAddress (s.sp + 2#8)) = false →
      ∃ m, MemoryAfter s m [(stackAddress (s.sp + 1#8), 0#8)] ∧
        exec .rti s = .next (raiseFault (.memoryAccess (stackAddress (s.sp + 2#8))) (some (s.pc - 1#16))
          { s with mem := m, sp := s.sp + 2#8, p := byteAt s (stackAddress (s.sp + 1#8)) })) ∧
    (addressable s.platform (stackAddress (s.sp + 1#8)) = true →
      addressable s.platform (stackAddress (s.sp + 2#8)) = true →
      addressable s.platform (stackAddress (s.sp + 3#8)) = false →
      ∃ m, MemoryAfter s m [(stackAddress (s.sp + 1#8), 0#8), (stackAddress (s.sp + 2#8), 0#8)] ∧
        exec .rti s = .next (raiseFault (.memoryAccess (stackAddress (s.sp + 3#8))) (some (s.pc - 1#16))
          { s with mem := m, sp := s.sp + 3#8, p := byteAt s (stackAddress (s.sp + 1#8)) }))

/-- A step that takes an interrupt (R245): with an NMI edge or a waiting NMI, or else with IRQ asserted and I clear,
and no stop and no boundary before it (R244), the step pushes PC and P with bit 5 set and bit 4 clear, sets I, clears
nmi_pending for NMI, goes to the latched vector of its kind and adds 7 to CLK. -/
def Obligations.InterruptEntryStep : Prop :=
  ∀ (s : State), s.runState = .running → s.sample.reset = false → s.sample.stopRequest = false →
    s.pc.toNat < s.platform.stopBoundary.toNat →
    addressable s.platform (stackAddress s.sp) = true → addressable s.platform (stackAddress (s.sp - 1#8)) = true →
    addressable s.platform (stackAddress (s.sp - 2#8)) = true →
      ∃ (m : Memory) (p b : Byte), StatusAfter s.p b [(.b5, true), (.b4, false)] ∧
        MemoryAfter s m [(stackAddress s.sp, BitVec.ofNat 8 (s.pc.toNat / 256)),
          (stackAddress (s.sp - 1#8), BitVec.ofNat 8 s.pc.toNat), (stackAddress (s.sp - 2#8), b)] ∧
        StatusAfter s.p p [(.i, true)] ∧
        (s.sample.nmiEdge = true ∨ s.nmiPending = true →
          step s = .next { s with mem := m, sp := s.sp - 3#8, p := p, pc := s.nmiVec, clk := s.clk + 7,
                                  nmiPending := false, inputs := s.inputs.tail }) ∧
        (s.sample.nmiEdge = false → s.nmiPending = false → s.sample.irqLine = true → s.flag .i = false →
          step s = .next { s with mem := m, sp := s.sp - 3#8, p := p, pc := s.irqVec, clk := s.clk + 7,
                                  inputs := s.inputs.tail })

/-- A push of an interrupt entry that faults (R231, R245) ends the run: pc0 is the PC of the sample point, what is
pushed so far stays, CLK does not move, and a waiting NMI still waits. -/
def Obligations.InterruptEntryPushFault : Prop :=
  ∀ (s : State), s.runState = .running → s.sample.reset = false → s.sample.stopRequest = false →
    s.pc.toNat < s.platform.stopBoundary.toNat →
    s.sample.nmiEdge = true ∨ s.nmiPending = true ∨ (s.sample.irqLine = true ∧ s.flag .i = false) →
    let pending := s.sample.nmiEdge || s.nmiPending
    (addressable s.platform (stackAddress s.sp) = false →
      step s = .next (raiseFault (.memoryAccess (stackAddress s.sp)) (some s.pc)
        { s with nmiPending := pending, inputs := s.inputs.tail })) ∧
    (addressable s.platform (stackAddress s.sp) = true → addressable s.platform (stackAddress (s.sp - 1#8)) = false →
      ∃ m, MemoryAfter s m [(stackAddress s.sp, BitVec.ofNat 8 (s.pc.toNat / 256))] ∧
        step s = .next (raiseFault (.memoryAccess (stackAddress (s.sp - 1#8))) (some s.pc)
          { s with mem := m, sp := s.sp - 1#8, nmiPending := pending, inputs := s.inputs.tail })) ∧
    (addressable s.platform (stackAddress s.sp) = true → addressable s.platform (stackAddress (s.sp - 1#8)) = true →
      addressable s.platform (stackAddress (s.sp - 2#8)) = false →
      ∃ m, MemoryAfter s m [(stackAddress s.sp, BitVec.ofNat 8 (s.pc.toNat / 256)),
          (stackAddress (s.sp - 1#8), BitVec.ofNat 8 s.pc.toNat)] ∧
        step s = .next (raiseFault (.memoryAccess (stackAddress (s.sp - 2#8))) (some s.pc)
          { s with mem := m, sp := s.sp - 2#8, nmiPending := pending, inputs := s.inputs.tail }))

/-- IRQ is masked by I (R241): with I set and no NMI, a step with IRQ asserted is the step without it. -/
def Obligations.MaskedIrqIsIgnored : Prop :=
  ∀ (s : State) (q : Sample) (rest : List Sample), s.flag .i = true → s.inputs = q :: rest →
    step s = step { s with inputs := { q with irqLine := false } :: rest }

/-- The two halts come before everything else at a sample point (R244): a stop request halts whatever else is asked
for, then PC at or above STOP_BOUNDARY does; nothing but run_state (and the sample used, log entry 6) changes. -/
def Obligations.HaltsComeFirst : Prop :=
  ∀ (s : State), s.runState = .running → s.sample.reset = false →
    (s.sample.stopRequest = true →
      step s = .next { s with runState := .halted .externalStop, inputs := s.inputs.tail }) ∧
    (s.sample.stopRequest = false → s.platform.stopBoundary.toNat ≤ s.pc.toNat →
      step s = .next { s with runState := .halted .boundary, inputs := s.inputs.tail })

/-- Halted and Faulted are left by reset alone (10_state.md R33, R260): without a reset input the step changes
nothing but the sample used (log entries 6 and 8). -/
def Obligations.OnlyResetLeavesAStoppedRun : Prop :=
  ∀ (s : State), s.runState ≠ .running → s.sample.reset = false → step s = .next { s with inputs := s.inputs.tail }

/-! ## Reset -/

/-- The reset input (R270, R273): from any run_state the registers take the reset values, the three vectors are
latched from 0xFFFA to 0xFFFF little-endian, PC is the RESET vector, and memory stays. That the reset input comes
before the other inputs of its sample is the model's choice (log entry 7). -/
def Obligations.ResetSetsEveryRegister : Prop :=
  ∀ (s : State), s.sample.reset = true →
    (∀ a : Word, 0xFFFA ≤ a.toNat → addressable s.platform a = true) →
      ∃ nmi reset irq : Word,
        nmi.toNat = (Memory.read s.mem 0xFFFA).toNat + 256 * (Memory.read s.mem 0xFFFB).toNat ∧
        reset.toNat = (Memory.read s.mem 0xFFFC).toNat + 256 * (Memory.read s.mem 0xFFFD).toNat ∧
        irq.toNat = (Memory.read s.mem 0xFFFE).toNat + 256 * (Memory.read s.mem 0xFFFF).toNat ∧
        step s = .next { s with a := 0x00, x := 0x00, y := 0x00, sp := 0xFF, p := 0x00, clk := 0, nmiPending := false, nmiVec := nmi, resetVec := reset, irqVec := irq, pc := reset, runState := .running, inputs := s.inputs.tail }

/-- A vector read that faults at reset ends the run before it starts, with no pc0 in the record, and memory stays (R272).
That this holds whatever else the sample asks for is the model's choice (log entry 7). -/
def Obligations.FailedVectorReadFaultsReset : Prop :=
  ∀ (s : State) (a : Word), s.sample.reset = true → 0xFFFA ≤ a.toNat → addressable s.platform a = false →
    (∀ b : Word, 0xFFFA ≤ b.toNat → b.toNat < a.toNat → addressable s.platform b = true) →
      ∃ t, step s = .next t ∧ t.runState = .faulted ⟨.memoryAccess a, none⟩ ∧ SameMemory s t

/-! ## Faults -/

/-- An undefined opcode (R86, R234) raises UnsupportedOperation with its byte, at the address one below the advanced
PC, and changes nothing else; and the codes of the four classes are 1 to 4 (R231). -/
def Obligations.UndefinedOpcodeFaults : Prop :=
  (∀ (b : Byte) (s : State), exec (.unsupported b) s =
    .next { s with runState := .faulted ⟨.unsupportedOperation b, some (s.pc - 1#16)⟩ }) ∧
  (∀ a, (Fault.memoryAccess a).code = 1) ∧ Fault.decodingInconsistency.code = 2 ∧
  (∀ b, (Fault.unsupportedOperation b).code = 3) ∧ Fault.modeOperationMismatch.code = 4

/-- A well-formed instruction never raises ModeOperationMismatch or DecodingInconsistency (R103, R233, R235). -/
def Obligations.WellFormedNeverMismatches : Prop :=
  ∀ (i : Instr) (s t : State) (r : FaultRecord), i.wf = true → s.runState = .running → exec i s = .next t →
    t.runState = .faulted r → r.fault ≠ .modeOperationMismatch ∧ r.fault ≠ .decodingInconsistency

/-- DecodingInconsistency and ModeOperationMismatch are unreachable (R88, R233, R235), as an invariant: a step from any
state that has not faulted with one of them (running, halted, faulted with another class, with or without a reset input)
gives such a state. That the state after reset is one is part of ResetStateIsCanonical. -/
def Obligations.InternalFaultsAreUnreachable : Prop :=
  ∀ s t : State, s.NoInternalFault → step s = .next t → t.NoInternalFault

/-- Which kinds of Input an operation accepts (R103, R235): for every instruction whose operand resolves, a kind that its
operation does not accept raises ModeOperationMismatch and changes nothing else, and no accepted kind raises it. No
fetched instruction has such a kind. That exec also runs an accepted kind that is no row of the table is log entry 12. -/
def Obligations.UnacceptedKindsMismatch : Prop :=
  ∀ (i : Instr) (s : State) (input : Input), resolve i.operand s = .ok input →
    (input.kind ∉ acceptedKinds i.operation →
      exec i s = .next (raiseFault .modeOperationMismatch (some (instrAddress i s)) s)) ∧
    (input.kind ∈ acceptedKinds i.operation → ∀ (t : State) (r : FaultRecord), s.runState = .running →
      exec i s = .next t → t.runState = .faulted r → r.fault ≠ .modeOperationMismatch)

/-- A fetch that faults (R83 lines 7 to 9, R57, R236) leaves PC at the instruction, records it as pc0, and changes nothing
else: an opcode that is not addressable, bytes past 0xFFFF, or an opcode or operand byte that is not addressable, the
first such byte being the faulting address. -/
def Obligations.FetchFaultsLeaveThePc : Prop :=
  ∀ (s : State), s.fetches →
    (addressable s.platform s.pc = false →
      step s = .next { s with runState := .faulted ⟨.memoryAccess s.pc, some s.pc⟩, inputs := s.inputs.tail }) ∧
    (addressable s.platform s.pc = true → 0x10000 < s.pc.toNat + (lookup (byteAt s s.pc)).length →
      step s = .next { s with runState := .faulted ⟨.memoryAccess s.pc, some s.pc⟩, inputs := s.inputs.tail }) ∧
    (s.pc.toNat + (lookup (byteAt s s.pc)).length ≤ 0x10000 → ∀ k, k < (lookup (byteAt s s.pc)).length →
      (∀ j, j < k → addressable s.platform (s.pc + BitVec.ofNat 16 j) = true) →
      addressable s.platform (s.pc + BitVec.ofNat 16 k) = false →
      step s = .next { s with
        runState := .faulted ⟨.memoryAccess (s.pc + BitVec.ofNat 16 k), some s.pc⟩, inputs := s.inputs.tail })

/-! ## The step -/

/-- When the bytes at PC decode to a well-formed instruction, and the step fetches, the step is exec of that
instruction in the state with PC advanced past it, and CLK then grows by the cycles of its row unless a fault was
raised (R83, R26, R256). -/
def Obligations.StepRunsTheDecodedInstruction : Prop :=
  ∀ (s : State) (i : Instr), s.fetches → i.wf = true → s.pc.toNat + i.length ≤ 0x10000 →
    (∀ k, k < i.length → addressable s.platform (s.pc + BitVec.ofNat 16 k) = true) →
    decode ((List.range i.length).map fun k => Memory.read s.mem (s.pc.toNat + k)) = .ok (i, []) →
      step s = match exec i { s with pc := s.pc + BitVec.ofNat 16 i.length, inputs := s.inputs.tail } with
        | .next t =>
          if t.runState = .running then .next { t with clk := t.clk + (lookup (byteAt s s.pc)).cycles } else .next t
        | .fault f => .fault f
        | .refused r => .refused r

/-- Every step answers a next state: a fault of the spec is one whose run_state is Faulted (the model's reading of R231,
log entry 1), and no instruction of the opcode table is refused. -/
def Obligations.EveryStepHasANextState : Prop :=
  (∀ s : State, ∃ t, step s = .next t) ∧ (∀ (i : Instr) (s : State), ∃ t, exec i s = .next t)

/-- A memory in canonical form stays so: an invariant of every step, from every state that has it. The form of the
memory list is the model's choice (log entry 3). -/
def Obligations.StepKeepsCanonicalMemory : Prop :=
  ∀ s t : State, s.Inv → step s = .next t → t.Inv

/-- The state after reset (R35, R270, R272) has both invariants, is running and at the vector its memory holds. Its empty
launch memory, and so its vectors, its platform and its inputs are the model's choice (log entries 3, 5, 6 and 9): it is
one instance of `launch`. The rest is about every launch memory (R275): any 65536 bytes are one, and over any of them, on
any platform and with any inputs to come, `launch` leaves the memory as it is, has both invariants, and has the reset
values and the vectors of that memory, or the fault of the first vector byte that is not addressable. -/
def Obligations.ResetStateIsCanonical : Prop :=
  (State.reset.Inv ∧ State.reset.NoInternalFault ∧ State.reset.faultFree = true ∧ State.reset.fetches ∧
    memRead16 0xFFFC#16 State.reset = .ok State.reset.pc ∧ launch Platform.standard [] [] = State.reset) ∧
  (∀ contents : Word → Byte, ∃ m, Memory.wf m = true ∧ ∀ a : Word, Memory.read m a.toNat = contents a) ∧
  ∀ (p : Platform) (m : Memory) (inputs : List Sample),
    (Memory.wf m = true → (launch p m inputs).Inv) ∧ (launch p m inputs).NoInternalFault ∧
    (launch p m inputs).mem = m ∧
    ((∀ a : Word, 0xFFFA ≤ a.toNat → addressable p a = true) →
      ∃ nmi reset irq : Word,
        nmi.toNat = (Memory.read m 0xFFFA).toNat + 256 * (Memory.read m 0xFFFB).toNat ∧
        reset.toNat = (Memory.read m 0xFFFC).toNat + 256 * (Memory.read m 0xFFFD).toNat ∧
        irq.toNat = (Memory.read m 0xFFFE).toNat + 256 * (Memory.read m 0xFFFF).toNat ∧
        launch p m inputs = { a := 0x00, x := 0x00, y := 0x00, sp := 0xFF, p := 0x00, pc := reset, nmiVec := nmi, resetVec := reset, irqVec := irq, clk := 0, nmiPending := false, runState := .running, mem := m, platform := p, inputs := inputs }) ∧
    (∀ a : Word, 0xFFFA ≤ a.toNat → addressable p a = false →
      (∀ b : Word, 0xFFFA ≤ b.toNat → b.toNat < a.toNat → addressable p b = true) →
      (launch p m inputs).runState = .faulted ⟨.memoryAccess a, none⟩)

/-- The latched vectors change at a reset input only (10_state.md R30). No step changes the platform: STOP_BOUNDARY and
ADDRESSABLE are parameters of the spec (00_scope.md R8, R11), and that they stand in a field of State is the model's own
(log entry 5). -/
def Obligations.VectorsChangeOnlyAtReset : Prop :=
  ∀ s t : State, step s = .next t →
    t.platform = s.platform ∧
    (s.sample.reset = false → t.nmiVec = s.nmiVec ∧ t.resetVec = s.resetVec ∧ t.irqVec = s.irqVec)

/-- CLK (R256, R285), case by case: a reset input sets it to 0; a step of a stopped run, a halt and a fault leave it; a
completed interrupt entry adds 7; a completed instruction adds the base cycles of the opcode at PC. Without a reset
input it never decreases. -/
def Obligations.ClkGrowsByCycles : Prop :=
  ∀ s t : State, step s = .next t →
    (s.sample.reset = true → t.clk = 0) ∧
    (s.sample.reset = false →
      s.clk ≤ t.clk ∧
      (s.runState ≠ .running → t.clk = s.clk) ∧
      (t.runState ≠ .running → t.clk = s.clk) ∧
      (s.runState = .running → t.runState = .running → s.interrupted → t.clk = s.clk + 7) ∧
      (s.runState = .running → t.runState = .running → ¬s.interrupted →
        t.clk = s.clk + (lookup (byteAt s s.pc)).cycles))

/-! ## Frames over all instructions -/

/-- No instruction changes a latched vector, nmi_pending or CLK (R30 to R32; CLK is counted by the step), nor the platform
or the inputs: those two are fields of the model's own (log entries 5 and 6). -/
def Obligations.InstructionsLeaveTheSystemState : Prop :=
  ∀ (i : Instr) (s t : State), exec i s = .next t → SameSystem s t

/-- Which instructions write which register (10_state.md R21 to R24): any other instruction leaves it, whether it
completes or faults. -/
def Obligations.OnlyTheirInstructionsWriteRegisters : Prop :=
  ∀ (i : Instr) (s t : State), exec i s = .next t →
    (t.a ≠ s.a → i.operation ∈ [Operation.lda, .adc, .sbc, .and, .ora, .eor, .txa, .tya, .pla] ∨
      (i.operation ∈ [Operation.asl, .lsr, .rol, .ror] ∧ i.operand = .accumulator)) ∧
    (t.x ≠ s.x → i.operation ∈ [Operation.ldx, .tax, .tsx, .inx, .dex]) ∧
    (t.y ≠ s.y → i.operation ∈ [Operation.ldy, .tay, .iny, .dey]) ∧
    (t.sp ≠ s.sp → i.operation ∈ [Operation.pha, .php, .pla, .plp, .jsr, .rts, .brk, .rti, .txs]) ∧
    (t.pc ≠ s.pc → i.operation ∈ [Operation.bcc, .bcs, .beq, .bne, .bmi, .bpl, .bvc, .bvs, .jmp, .jsr, .rts, .rti, .brk])

/-- Which instructions write which flag (10_state.md R28): any other instruction leaves it. -/
def Obligations.OnlyTheirInstructionsWriteFlags : Prop :=
  ∀ (i : Instr) (s t : State), exec i s = .next t →
    let zn : List Operation := [.lda, .ldx, .ldy, .adc, .sbc, .cmp, .cpx, .cpy, .and, .ora, .eor, .bit, .asl, .lsr,
      .rol, .ror, .inc, .dec, .inx, .iny, .dex, .dey, .tax, .tay, .txa, .tya, .tsx, .pla, .plp, .rti]
    (t.flag .n ≠ s.flag .n → i.operation ∈ zn) ∧ (t.flag .z ≠ s.flag .z → i.operation ∈ zn) ∧
    (t.flag .v ≠ s.flag .v → i.operation ∈ [Operation.adc, .sbc, .bit, .clv, .plp, .rti]) ∧
    (t.flag .b5 ≠ s.flag .b5 → i.operation ∈ [Operation.brk, .plp, .rti]) ∧
    (t.flag .b4 ≠ s.flag .b4 → i.operation ∈ [Operation.brk, .plp, .rti]) ∧
    (t.flag .d ≠ s.flag .d → i.operation ∈ [Operation.cld, .sed, .plp, .rti]) ∧
    (t.flag .i ≠ s.flag .i → i.operation ∈ [Operation.cli, .sei, .brk, .plp, .rti]) ∧
    (t.flag .c ≠ s.flag .c → i.operation ∈ [Operation.adc, .sbc, .cmp, .cpx, .cpy, .asl, .lsr, .rol, .ror, .clc,
      .sec, .plp, .rti])

/-- Which bytes of memory an instruction writes (20_memory.md R63), whether it completes or faults: a store or a
read-modify-write its effective address, a push or a pull its stack bytes, every other form nothing. -/
def Obligations.OnlyStoredBytesChange : Prop :=
  ∀ (i : Instr) (s t : State), exec i s = .next t →
    (i.operation ∈ [Operation.sta, .stx, .sty, .asl, .lsr, .rol, .ror, .inc, .dec] →
      (∀ a, resolve i.operand s = .ok (.addr a) → SameMemoryOutside [a] s t) ∧
      ((∀ a, resolve i.operand s ≠ .ok (.addr a)) → SameMemory s t)) ∧
    (i.operation ∈ [Operation.pha, .php] → SameMemoryOutside [stackAddress s.sp] s t) ∧
    (i.operation = .jsr → SameMemoryOutside [stackAddress s.sp, stackAddress (s.sp - 1#8)] s t) ∧
    (i.operation = .brk →
      SameMemoryOutside [stackAddress s.sp, stackAddress (s.sp - 1#8), stackAddress (s.sp - 2#8)] s t) ∧
    (i.operation ∈ [Operation.pla, .plp] → SameMemoryOutside [stackAddress (s.sp + 1#8)] s t) ∧
    (i.operation = .rts → SameMemoryOutside [stackAddress (s.sp + 1#8), stackAddress (s.sp + 2#8)] s t) ∧
    (i.operation = .rti →
      SameMemoryOutside [stackAddress (s.sp + 1#8), stackAddress (s.sp + 2#8), stackAddress (s.sp + 3#8)] s t) ∧
    (i.operation ∉ [Operation.sta, .stx, .sty, .asl, .lsr, .rol, .ror, .inc, .dec, .pha, .php, .jsr, .brk, .pla, .plp,
      .rts, .rti] → SameMemory s t)
end

