-- ==== Sys2Proof/Laws/State.lean ====
section
/-! SUPPORT. One lemma per field per update of the state, so that no proof unfolds a record update; and what the
derived updates of Machine/Flags.lean and Machine/Ops.lean are in terms of them. -/

namespace Sys2Proof.Machine

@[simp] theorem State.withA_a (s : State) (v : Byte) : (s.withA v).a = v := rfl
@[simp] theorem State.withA_x (s : State) (v : Byte) : (s.withA v).x = s.x := rfl
@[simp] theorem State.withA_y (s : State) (v : Byte) : (s.withA v).y = s.y := rfl
@[simp] theorem State.withA_sp (s : State) (v : Byte) : (s.withA v).sp = s.sp := rfl
@[simp] theorem State.withA_p (s : State) (v : Byte) : (s.withA v).p = s.p := rfl
@[simp] theorem State.withA_pc (s : State) (v : Byte) : (s.withA v).pc = s.pc := rfl
@[simp] theorem State.withA_nmiVec (s : State) (v : Byte) : (s.withA v).nmiVec = s.nmiVec := rfl
@[simp] theorem State.withA_resetVec (s : State) (v : Byte) : (s.withA v).resetVec = s.resetVec := rfl
@[simp] theorem State.withA_irqVec (s : State) (v : Byte) : (s.withA v).irqVec = s.irqVec := rfl
@[simp] theorem State.withA_clk (s : State) (v : Byte) : (s.withA v).clk = s.clk := rfl
@[simp] theorem State.withA_nmiPending (s : State) (v : Byte) : (s.withA v).nmiPending = s.nmiPending := rfl
@[simp] theorem State.withA_runState (s : State) (v : Byte) : (s.withA v).runState = s.runState := rfl
@[simp] theorem State.withA_mem (s : State) (v : Byte) : (s.withA v).mem = s.mem := rfl
@[simp] theorem State.withA_platform (s : State) (v : Byte) : (s.withA v).platform = s.platform := rfl
@[simp] theorem State.withA_inputs (s : State) (v : Byte) : (s.withA v).inputs = s.inputs := rfl

@[simp] theorem State.withX_a (s : State) (v : Byte) : (s.withX v).a = s.a := rfl
@[simp] theorem State.withX_x (s : State) (v : Byte) : (s.withX v).x = v := rfl
@[simp] theorem State.withX_y (s : State) (v : Byte) : (s.withX v).y = s.y := rfl
@[simp] theorem State.withX_sp (s : State) (v : Byte) : (s.withX v).sp = s.sp := rfl
@[simp] theorem State.withX_p (s : State) (v : Byte) : (s.withX v).p = s.p := rfl
@[simp] theorem State.withX_pc (s : State) (v : Byte) : (s.withX v).pc = s.pc := rfl
@[simp] theorem State.withX_nmiVec (s : State) (v : Byte) : (s.withX v).nmiVec = s.nmiVec := rfl
@[simp] theorem State.withX_resetVec (s : State) (v : Byte) : (s.withX v).resetVec = s.resetVec := rfl
@[simp] theorem State.withX_irqVec (s : State) (v : Byte) : (s.withX v).irqVec = s.irqVec := rfl
@[simp] theorem State.withX_clk (s : State) (v : Byte) : (s.withX v).clk = s.clk := rfl
@[simp] theorem State.withX_nmiPending (s : State) (v : Byte) : (s.withX v).nmiPending = s.nmiPending := rfl
@[simp] theorem State.withX_runState (s : State) (v : Byte) : (s.withX v).runState = s.runState := rfl
@[simp] theorem State.withX_mem (s : State) (v : Byte) : (s.withX v).mem = s.mem := rfl
@[simp] theorem State.withX_platform (s : State) (v : Byte) : (s.withX v).platform = s.platform := rfl
@[simp] theorem State.withX_inputs (s : State) (v : Byte) : (s.withX v).inputs = s.inputs := rfl

@[simp] theorem State.withY_a (s : State) (v : Byte) : (s.withY v).a = s.a := rfl
@[simp] theorem State.withY_x (s : State) (v : Byte) : (s.withY v).x = s.x := rfl
@[simp] theorem State.withY_y (s : State) (v : Byte) : (s.withY v).y = v := rfl
@[simp] theorem State.withY_sp (s : State) (v : Byte) : (s.withY v).sp = s.sp := rfl
@[simp] theorem State.withY_p (s : State) (v : Byte) : (s.withY v).p = s.p := rfl
@[simp] theorem State.withY_pc (s : State) (v : Byte) : (s.withY v).pc = s.pc := rfl
@[simp] theorem State.withY_nmiVec (s : State) (v : Byte) : (s.withY v).nmiVec = s.nmiVec := rfl
@[simp] theorem State.withY_resetVec (s : State) (v : Byte) : (s.withY v).resetVec = s.resetVec := rfl
@[simp] theorem State.withY_irqVec (s : State) (v : Byte) : (s.withY v).irqVec = s.irqVec := rfl
@[simp] theorem State.withY_clk (s : State) (v : Byte) : (s.withY v).clk = s.clk := rfl
@[simp] theorem State.withY_nmiPending (s : State) (v : Byte) : (s.withY v).nmiPending = s.nmiPending := rfl
@[simp] theorem State.withY_runState (s : State) (v : Byte) : (s.withY v).runState = s.runState := rfl
@[simp] theorem State.withY_mem (s : State) (v : Byte) : (s.withY v).mem = s.mem := rfl
@[simp] theorem State.withY_platform (s : State) (v : Byte) : (s.withY v).platform = s.platform := rfl
@[simp] theorem State.withY_inputs (s : State) (v : Byte) : (s.withY v).inputs = s.inputs := rfl

@[simp] theorem State.withSp_a (s : State) (v : Byte) : (s.withSp v).a = s.a := rfl
@[simp] theorem State.withSp_x (s : State) (v : Byte) : (s.withSp v).x = s.x := rfl
@[simp] theorem State.withSp_y (s : State) (v : Byte) : (s.withSp v).y = s.y := rfl
@[simp] theorem State.withSp_sp (s : State) (v : Byte) : (s.withSp v).sp = v := rfl
@[simp] theorem State.withSp_p (s : State) (v : Byte) : (s.withSp v).p = s.p := rfl
@[simp] theorem State.withSp_pc (s : State) (v : Byte) : (s.withSp v).pc = s.pc := rfl
@[simp] theorem State.withSp_nmiVec (s : State) (v : Byte) : (s.withSp v).nmiVec = s.nmiVec := rfl
@[simp] theorem State.withSp_resetVec (s : State) (v : Byte) : (s.withSp v).resetVec = s.resetVec := rfl
@[simp] theorem State.withSp_irqVec (s : State) (v : Byte) : (s.withSp v).irqVec = s.irqVec := rfl
@[simp] theorem State.withSp_clk (s : State) (v : Byte) : (s.withSp v).clk = s.clk := rfl
@[simp] theorem State.withSp_nmiPending (s : State) (v : Byte) : (s.withSp v).nmiPending = s.nmiPending := rfl
@[simp] theorem State.withSp_runState (s : State) (v : Byte) : (s.withSp v).runState = s.runState := rfl
@[simp] theorem State.withSp_mem (s : State) (v : Byte) : (s.withSp v).mem = s.mem := rfl
@[simp] theorem State.withSp_platform (s : State) (v : Byte) : (s.withSp v).platform = s.platform := rfl
@[simp] theorem State.withSp_inputs (s : State) (v : Byte) : (s.withSp v).inputs = s.inputs := rfl

@[simp] theorem State.withP_a (s : State) (v : Byte) : (s.withP v).a = s.a := rfl
@[simp] theorem State.withP_x (s : State) (v : Byte) : (s.withP v).x = s.x := rfl
@[simp] theorem State.withP_y (s : State) (v : Byte) : (s.withP v).y = s.y := rfl
@[simp] theorem State.withP_sp (s : State) (v : Byte) : (s.withP v).sp = s.sp := rfl
@[simp] theorem State.withP_p (s : State) (v : Byte) : (s.withP v).p = v := rfl
@[simp] theorem State.withP_pc (s : State) (v : Byte) : (s.withP v).pc = s.pc := rfl
@[simp] theorem State.withP_nmiVec (s : State) (v : Byte) : (s.withP v).nmiVec = s.nmiVec := rfl
@[simp] theorem State.withP_resetVec (s : State) (v : Byte) : (s.withP v).resetVec = s.resetVec := rfl
@[simp] theorem State.withP_irqVec (s : State) (v : Byte) : (s.withP v).irqVec = s.irqVec := rfl
@[simp] theorem State.withP_clk (s : State) (v : Byte) : (s.withP v).clk = s.clk := rfl
@[simp] theorem State.withP_nmiPending (s : State) (v : Byte) : (s.withP v).nmiPending = s.nmiPending := rfl
@[simp] theorem State.withP_runState (s : State) (v : Byte) : (s.withP v).runState = s.runState := rfl
@[simp] theorem State.withP_mem (s : State) (v : Byte) : (s.withP v).mem = s.mem := rfl
@[simp] theorem State.withP_platform (s : State) (v : Byte) : (s.withP v).platform = s.platform := rfl
@[simp] theorem State.withP_inputs (s : State) (v : Byte) : (s.withP v).inputs = s.inputs := rfl

@[simp] theorem State.withPc_a (s : State) (v : Word) : (s.withPc v).a = s.a := rfl
@[simp] theorem State.withPc_x (s : State) (v : Word) : (s.withPc v).x = s.x := rfl
@[simp] theorem State.withPc_y (s : State) (v : Word) : (s.withPc v).y = s.y := rfl
@[simp] theorem State.withPc_sp (s : State) (v : Word) : (s.withPc v).sp = s.sp := rfl
@[simp] theorem State.withPc_p (s : State) (v : Word) : (s.withPc v).p = s.p := rfl
@[simp] theorem State.withPc_pc (s : State) (v : Word) : (s.withPc v).pc = v := rfl
@[simp] theorem State.withPc_nmiVec (s : State) (v : Word) : (s.withPc v).nmiVec = s.nmiVec := rfl
@[simp] theorem State.withPc_resetVec (s : State) (v : Word) : (s.withPc v).resetVec = s.resetVec := rfl
@[simp] theorem State.withPc_irqVec (s : State) (v : Word) : (s.withPc v).irqVec = s.irqVec := rfl
@[simp] theorem State.withPc_clk (s : State) (v : Word) : (s.withPc v).clk = s.clk := rfl
@[simp] theorem State.withPc_nmiPending (s : State) (v : Word) : (s.withPc v).nmiPending = s.nmiPending := rfl
@[simp] theorem State.withPc_runState (s : State) (v : Word) : (s.withPc v).runState = s.runState := rfl
@[simp] theorem State.withPc_mem (s : State) (v : Word) : (s.withPc v).mem = s.mem := rfl
@[simp] theorem State.withPc_platform (s : State) (v : Word) : (s.withPc v).platform = s.platform := rfl
@[simp] theorem State.withPc_inputs (s : State) (v : Word) : (s.withPc v).inputs = s.inputs := rfl

@[simp] theorem State.withNmiVec_a (s : State) (v : Word) : (s.withNmiVec v).a = s.a := rfl
@[simp] theorem State.withNmiVec_x (s : State) (v : Word) : (s.withNmiVec v).x = s.x := rfl
@[simp] theorem State.withNmiVec_y (s : State) (v : Word) : (s.withNmiVec v).y = s.y := rfl
@[simp] theorem State.withNmiVec_sp (s : State) (v : Word) : (s.withNmiVec v).sp = s.sp := rfl
@[simp] theorem State.withNmiVec_p (s : State) (v : Word) : (s.withNmiVec v).p = s.p := rfl
@[simp] theorem State.withNmiVec_pc (s : State) (v : Word) : (s.withNmiVec v).pc = s.pc := rfl
@[simp] theorem State.withNmiVec_nmiVec (s : State) (v : Word) : (s.withNmiVec v).nmiVec = v := rfl
@[simp] theorem State.withNmiVec_resetVec (s : State) (v : Word) : (s.withNmiVec v).resetVec = s.resetVec := rfl
@[simp] theorem State.withNmiVec_irqVec (s : State) (v : Word) : (s.withNmiVec v).irqVec = s.irqVec := rfl
@[simp] theorem State.withNmiVec_clk (s : State) (v : Word) : (s.withNmiVec v).clk = s.clk := rfl
@[simp] theorem State.withNmiVec_nmiPending (s : State) (v : Word) : (s.withNmiVec v).nmiPending = s.nmiPending := rfl
@[simp] theorem State.withNmiVec_runState (s : State) (v : Word) : (s.withNmiVec v).runState = s.runState := rfl
@[simp] theorem State.withNmiVec_mem (s : State) (v : Word) : (s.withNmiVec v).mem = s.mem := rfl
@[simp] theorem State.withNmiVec_platform (s : State) (v : Word) : (s.withNmiVec v).platform = s.platform := rfl
@[simp] theorem State.withNmiVec_inputs (s : State) (v : Word) : (s.withNmiVec v).inputs = s.inputs := rfl

@[simp] theorem State.withResetVec_a (s : State) (v : Word) : (s.withResetVec v).a = s.a := rfl
@[simp] theorem State.withResetVec_x (s : State) (v : Word) : (s.withResetVec v).x = s.x := rfl
@[simp] theorem State.withResetVec_y (s : State) (v : Word) : (s.withResetVec v).y = s.y := rfl
@[simp] theorem State.withResetVec_sp (s : State) (v : Word) : (s.withResetVec v).sp = s.sp := rfl
@[simp] theorem State.withResetVec_p (s : State) (v : Word) : (s.withResetVec v).p = s.p := rfl
@[simp] theorem State.withResetVec_pc (s : State) (v : Word) : (s.withResetVec v).pc = s.pc := rfl
@[simp] theorem State.withResetVec_nmiVec (s : State) (v : Word) : (s.withResetVec v).nmiVec = s.nmiVec := rfl
@[simp] theorem State.withResetVec_resetVec (s : State) (v : Word) : (s.withResetVec v).resetVec = v := rfl
@[simp] theorem State.withResetVec_irqVec (s : State) (v : Word) : (s.withResetVec v).irqVec = s.irqVec := rfl
@[simp] theorem State.withResetVec_clk (s : State) (v : Word) : (s.withResetVec v).clk = s.clk := rfl
@[simp] theorem State.withResetVec_nmiPending (s : State) (v : Word) : (s.withResetVec v).nmiPending = s.nmiPending := rfl
@[simp] theorem State.withResetVec_runState (s : State) (v : Word) : (s.withResetVec v).runState = s.runState := rfl
@[simp] theorem State.withResetVec_mem (s : State) (v : Word) : (s.withResetVec v).mem = s.mem := rfl
@[simp] theorem State.withResetVec_platform (s : State) (v : Word) : (s.withResetVec v).platform = s.platform := rfl
@[simp] theorem State.withResetVec_inputs (s : State) (v : Word) : (s.withResetVec v).inputs = s.inputs := rfl

@[simp] theorem State.withIrqVec_a (s : State) (v : Word) : (s.withIrqVec v).a = s.a := rfl
@[simp] theorem State.withIrqVec_x (s : State) (v : Word) : (s.withIrqVec v).x = s.x := rfl
@[simp] theorem State.withIrqVec_y (s : State) (v : Word) : (s.withIrqVec v).y = s.y := rfl
@[simp] theorem State.withIrqVec_sp (s : State) (v : Word) : (s.withIrqVec v).sp = s.sp := rfl
@[simp] theorem State.withIrqVec_p (s : State) (v : Word) : (s.withIrqVec v).p = s.p := rfl
@[simp] theorem State.withIrqVec_pc (s : State) (v : Word) : (s.withIrqVec v).pc = s.pc := rfl
@[simp] theorem State.withIrqVec_nmiVec (s : State) (v : Word) : (s.withIrqVec v).nmiVec = s.nmiVec := rfl
@[simp] theorem State.withIrqVec_resetVec (s : State) (v : Word) : (s.withIrqVec v).resetVec = s.resetVec := rfl
@[simp] theorem State.withIrqVec_irqVec (s : State) (v : Word) : (s.withIrqVec v).irqVec = v := rfl
@[simp] theorem State.withIrqVec_clk (s : State) (v : Word) : (s.withIrqVec v).clk = s.clk := rfl
@[simp] theorem State.withIrqVec_nmiPending (s : State) (v : Word) : (s.withIrqVec v).nmiPending = s.nmiPending := rfl
@[simp] theorem State.withIrqVec_runState (s : State) (v : Word) : (s.withIrqVec v).runState = s.runState := rfl
@[simp] theorem State.withIrqVec_mem (s : State) (v : Word) : (s.withIrqVec v).mem = s.mem := rfl
@[simp] theorem State.withIrqVec_platform (s : State) (v : Word) : (s.withIrqVec v).platform = s.platform := rfl
@[simp] theorem State.withIrqVec_inputs (s : State) (v : Word) : (s.withIrqVec v).inputs = s.inputs := rfl

@[simp] theorem State.withClk_a (s : State) (v : Nat) : (s.withClk v).a = s.a := rfl
@[simp] theorem State.withClk_x (s : State) (v : Nat) : (s.withClk v).x = s.x := rfl
@[simp] theorem State.withClk_y (s : State) (v : Nat) : (s.withClk v).y = s.y := rfl
@[simp] theorem State.withClk_sp (s : State) (v : Nat) : (s.withClk v).sp = s.sp := rfl
@[simp] theorem State.withClk_p (s : State) (v : Nat) : (s.withClk v).p = s.p := rfl
@[simp] theorem State.withClk_pc (s : State) (v : Nat) : (s.withClk v).pc = s.pc := rfl
@[simp] theorem State.withClk_nmiVec (s : State) (v : Nat) : (s.withClk v).nmiVec = s.nmiVec := rfl
@[simp] theorem State.withClk_resetVec (s : State) (v : Nat) : (s.withClk v).resetVec = s.resetVec := rfl
@[simp] theorem State.withClk_irqVec (s : State) (v : Nat) : (s.withClk v).irqVec = s.irqVec := rfl
@[simp] theorem State.withClk_clk (s : State) (v : Nat) : (s.withClk v).clk = v := rfl
@[simp] theorem State.withClk_nmiPending (s : State) (v : Nat) : (s.withClk v).nmiPending = s.nmiPending := rfl
@[simp] theorem State.withClk_runState (s : State) (v : Nat) : (s.withClk v).runState = s.runState := rfl
@[simp] theorem State.withClk_mem (s : State) (v : Nat) : (s.withClk v).mem = s.mem := rfl
@[simp] theorem State.withClk_platform (s : State) (v : Nat) : (s.withClk v).platform = s.platform := rfl
@[simp] theorem State.withClk_inputs (s : State) (v : Nat) : (s.withClk v).inputs = s.inputs := rfl

@[simp] theorem State.withNmiPending_a (s : State) (v : Bool) : (s.withNmiPending v).a = s.a := rfl
@[simp] theorem State.withNmiPending_x (s : State) (v : Bool) : (s.withNmiPending v).x = s.x := rfl
@[simp] theorem State.withNmiPending_y (s : State) (v : Bool) : (s.withNmiPending v).y = s.y := rfl
@[simp] theorem State.withNmiPending_sp (s : State) (v : Bool) : (s.withNmiPending v).sp = s.sp := rfl
@[simp] theorem State.withNmiPending_p (s : State) (v : Bool) : (s.withNmiPending v).p = s.p := rfl
@[simp] theorem State.withNmiPending_pc (s : State) (v : Bool) : (s.withNmiPending v).pc = s.pc := rfl
@[simp] theorem State.withNmiPending_nmiVec (s : State) (v : Bool) : (s.withNmiPending v).nmiVec = s.nmiVec := rfl
@[simp] theorem State.withNmiPending_resetVec (s : State) (v : Bool) : (s.withNmiPending v).resetVec = s.resetVec := rfl
@[simp] theorem State.withNmiPending_irqVec (s : State) (v : Bool) : (s.withNmiPending v).irqVec = s.irqVec := rfl
@[simp] theorem State.withNmiPending_clk (s : State) (v : Bool) : (s.withNmiPending v).clk = s.clk := rfl
@[simp] theorem State.withNmiPending_nmiPending (s : State) (v : Bool) : (s.withNmiPending v).nmiPending = v := rfl
@[simp] theorem State.withNmiPending_runState (s : State) (v : Bool) : (s.withNmiPending v).runState = s.runState := rfl
@[simp] theorem State.withNmiPending_mem (s : State) (v : Bool) : (s.withNmiPending v).mem = s.mem := rfl
@[simp] theorem State.withNmiPending_platform (s : State) (v : Bool) : (s.withNmiPending v).platform = s.platform := rfl
@[simp] theorem State.withNmiPending_inputs (s : State) (v : Bool) : (s.withNmiPending v).inputs = s.inputs := rfl

@[simp] theorem State.withRunState_a (s : State) (v : RunState) : (s.withRunState v).a = s.a := rfl
@[simp] theorem State.withRunState_x (s : State) (v : RunState) : (s.withRunState v).x = s.x := rfl
@[simp] theorem State.withRunState_y (s : State) (v : RunState) : (s.withRunState v).y = s.y := rfl
@[simp] theorem State.withRunState_sp (s : State) (v : RunState) : (s.withRunState v).sp = s.sp := rfl
@[simp] theorem State.withRunState_p (s : State) (v : RunState) : (s.withRunState v).p = s.p := rfl
@[simp] theorem State.withRunState_pc (s : State) (v : RunState) : (s.withRunState v).pc = s.pc := rfl
@[simp] theorem State.withRunState_nmiVec (s : State) (v : RunState) : (s.withRunState v).nmiVec = s.nmiVec := rfl
@[simp] theorem State.withRunState_resetVec (s : State) (v : RunState) : (s.withRunState v).resetVec = s.resetVec := rfl
@[simp] theorem State.withRunState_irqVec (s : State) (v : RunState) : (s.withRunState v).irqVec = s.irqVec := rfl
@[simp] theorem State.withRunState_clk (s : State) (v : RunState) : (s.withRunState v).clk = s.clk := rfl
@[simp] theorem State.withRunState_nmiPending (s : State) (v : RunState) : (s.withRunState v).nmiPending = s.nmiPending := rfl
@[simp] theorem State.withRunState_runState (s : State) (v : RunState) : (s.withRunState v).runState = v := rfl
@[simp] theorem State.withRunState_mem (s : State) (v : RunState) : (s.withRunState v).mem = s.mem := rfl
@[simp] theorem State.withRunState_platform (s : State) (v : RunState) : (s.withRunState v).platform = s.platform := rfl
@[simp] theorem State.withRunState_inputs (s : State) (v : RunState) : (s.withRunState v).inputs = s.inputs := rfl

@[simp] theorem State.withMem_a (s : State) (v : Memory) : (s.withMem v).a = s.a := rfl
@[simp] theorem State.withMem_x (s : State) (v : Memory) : (s.withMem v).x = s.x := rfl
@[simp] theorem State.withMem_y (s : State) (v : Memory) : (s.withMem v).y = s.y := rfl
@[simp] theorem State.withMem_sp (s : State) (v : Memory) : (s.withMem v).sp = s.sp := rfl
@[simp] theorem State.withMem_p (s : State) (v : Memory) : (s.withMem v).p = s.p := rfl
@[simp] theorem State.withMem_pc (s : State) (v : Memory) : (s.withMem v).pc = s.pc := rfl
@[simp] theorem State.withMem_nmiVec (s : State) (v : Memory) : (s.withMem v).nmiVec = s.nmiVec := rfl
@[simp] theorem State.withMem_resetVec (s : State) (v : Memory) : (s.withMem v).resetVec = s.resetVec := rfl
@[simp] theorem State.withMem_irqVec (s : State) (v : Memory) : (s.withMem v).irqVec = s.irqVec := rfl
@[simp] theorem State.withMem_clk (s : State) (v : Memory) : (s.withMem v).clk = s.clk := rfl
@[simp] theorem State.withMem_nmiPending (s : State) (v : Memory) : (s.withMem v).nmiPending = s.nmiPending := rfl
@[simp] theorem State.withMem_runState (s : State) (v : Memory) : (s.withMem v).runState = s.runState := rfl
@[simp] theorem State.withMem_mem (s : State) (v : Memory) : (s.withMem v).mem = v := rfl
@[simp] theorem State.withMem_platform (s : State) (v : Memory) : (s.withMem v).platform = s.platform := rfl
@[simp] theorem State.withMem_inputs (s : State) (v : Memory) : (s.withMem v).inputs = s.inputs := rfl

@[simp] theorem State.withInputs_a (s : State) (v : List Sample) : (s.withInputs v).a = s.a := rfl
@[simp] theorem State.withInputs_x (s : State) (v : List Sample) : (s.withInputs v).x = s.x := rfl
@[simp] theorem State.withInputs_y (s : State) (v : List Sample) : (s.withInputs v).y = s.y := rfl
@[simp] theorem State.withInputs_sp (s : State) (v : List Sample) : (s.withInputs v).sp = s.sp := rfl
@[simp] theorem State.withInputs_p (s : State) (v : List Sample) : (s.withInputs v).p = s.p := rfl
@[simp] theorem State.withInputs_pc (s : State) (v : List Sample) : (s.withInputs v).pc = s.pc := rfl
@[simp] theorem State.withInputs_nmiVec (s : State) (v : List Sample) : (s.withInputs v).nmiVec = s.nmiVec := rfl
@[simp] theorem State.withInputs_resetVec (s : State) (v : List Sample) : (s.withInputs v).resetVec = s.resetVec := rfl
@[simp] theorem State.withInputs_irqVec (s : State) (v : List Sample) : (s.withInputs v).irqVec = s.irqVec := rfl
@[simp] theorem State.withInputs_clk (s : State) (v : List Sample) : (s.withInputs v).clk = s.clk := rfl
@[simp] theorem State.withInputs_nmiPending (s : State) (v : List Sample) : (s.withInputs v).nmiPending = s.nmiPending := rfl
@[simp] theorem State.withInputs_runState (s : State) (v : List Sample) : (s.withInputs v).runState = s.runState := rfl
@[simp] theorem State.withInputs_mem (s : State) (v : List Sample) : (s.withInputs v).mem = s.mem := rfl
@[simp] theorem State.withInputs_platform (s : State) (v : List Sample) : (s.withInputs v).platform = s.platform := rfl
@[simp] theorem State.withInputs_inputs (s : State) (v : List Sample) : (s.withInputs v).inputs = v := rfl

/-! ## Updates and record updates -/

theorem State.withA_eq (s : State) (v : Byte) : s.withA v = { s with a := v } := rfl
theorem State.withX_eq (s : State) (v : Byte) : s.withX v = { s with x := v } := rfl
theorem State.withY_eq (s : State) (v : Byte) : s.withY v = { s with y := v } := rfl
theorem State.withSp_eq (s : State) (v : Byte) : s.withSp v = { s with sp := v } := rfl
theorem State.withP_eq (s : State) (v : Byte) : s.withP v = { s with p := v } := rfl
theorem State.withPc_eq (s : State) (v : Word) : s.withPc v = { s with pc := v } := rfl
theorem State.withNmiVec_eq (s : State) (v : Word) : s.withNmiVec v = { s with nmiVec := v } := rfl
theorem State.withResetVec_eq (s : State) (v : Word) : s.withResetVec v = { s with resetVec := v } := rfl
theorem State.withIrqVec_eq (s : State) (v : Word) : s.withIrqVec v = { s with irqVec := v } := rfl
theorem State.withClk_eq (s : State) (v : Nat) : s.withClk v = { s with clk := v } := rfl
theorem State.withNmiPending_eq (s : State) (v : Bool) : s.withNmiPending v = { s with nmiPending := v } := rfl
theorem State.withRunState_eq (s : State) (v : RunState) : s.withRunState v = { s with runState := v } := rfl
theorem State.withMem_eq (s : State) (v : Memory) : s.withMem v = { s with mem := v } := rfl
theorem State.withInputs_eq (s : State) (v : List Sample) : s.withInputs v = { s with inputs := v } := rfl

@[simp] theorem State.withFlag_eq (s : State) (f : Flag) (b : Bool) : s.withFlag f b = s.withP (setFlag f b s.p) := rfl

@[simp] theorem State.setZN_eq (s : State) (v : Byte) : s.setZN v = s.withP (zn v s.p) := rfl

@[simp] theorem raiseFault_eq (f : Fault) (pc0 : Option Word) (s : State) :
    raiseFault f pc0 s = s.withRunState (.faulted ⟨f, pc0⟩) := rfl

/-! ## Reading a byte of the state's memory -/

theorem byteAt_eq (s : State) (a : Word) : byteAt s a = Memory.read s.mem a.toNat := rfl

/-- Two states with the same memory read the same bytes. -/
theorem byteAt_congr {s t : State} (h : t.mem = s.mem) (a : Word) : byteAt t a = byteAt s a := by
  simp [byteAt, h]

end Sys2Proof.Machine
end

