-- ==== Sys2Proof/Laws/Flags.lean ====
section
/-! SUPPORT. The flags: reading a flag after setting one, what each status computation of Machine/Flags.lean leaves as
a StatusAfter, and the results, carries and overflows as arithmetic on natural numbers and integers. -/

namespace Sys2Proof.Machine

/-! ## One flag -/

theorem getFlag_setFlag (f g : Flag) (b : Bool) (p : Byte) :
    getFlag g (setFlag f b p) = if g = f then b else getFlag g p := by
  cases f <;> cases g <;> cases b <;> simp [getFlag, setFlag, Flag.bit]

/-- Two status bytes with the same eight flags are the same byte. -/
theorem status_ext {p q : Byte} (h : ∀ f, getFlag f p = getFlag f q) : p = q := by
  apply BitVec.eq_of_getLsbD_eq
  intro i hi
  match i, hi with
  | 0, _ => exact h .c
  | 1, _ => exact h .z
  | 2, _ => exact h .i
  | 3, _ => exact h .d
  | 4, _ => exact h .b4
  | 5, _ => exact h .b5
  | 6, _ => exact h .v
  | 7, _ => exact h .n

theorem lsb7_eq (v : Byte) : v.getLsbD 7 = decide (128 ≤ v.toNat) := by
  simpa [BitVec.msb, BitVec.getMsbD] using BitVec.msb_eq_decide v

theorem lsb6_eq (v : Byte) : v.getLsbD 6 = decide (64 ≤ v.toNat % 128) := by
  rw [BitVec.getLsbD, Nat.testBit_eq_decide_div_mod_eq]
  simp only [decide_eq_decide]
  omega

theorem lsb0_eq (v : Byte) : v.getLsbD 0 = decide (v.toNat % 2 = 1) := by
  rw [BitVec.getLsbD, Nat.testBit_eq_decide_div_mod_eq]
  simp

/-! ## Status bytes after an instruction -/

theorem statusAfter_self (p : Byte) : StatusAfter p p [] := fun _ => rfl

/-- Setting a flag adds it to the written ones. -/
theorem statusAfter_setFlag {p0 p : Byte} {w : List (Flag × Bool)} (h : StatusAfter p0 p w) (f : Flag) (b : Bool) :
    StatusAfter p0 (setFlag f b p) ((f, b) :: w) := by
  intro g
  rw [getFlag_setFlag, h g]
  by_cases hg : g = f
  · simp [hg]
  · have : (g == f) = false := by simpa using hg
    simp [hg, List.lookup, this]

/-- What is written may be listed in any order. -/
theorem statusAfter_congr {p0 p : Byte} {w w' : List (Flag × Bool)} (h : StatusAfter p0 p w)
    (hw : ∀ f, w.lookup f = w'.lookup f) : StatusAfter p0 p w' := fun f => by rw [h f, hw f]

theorem statusAfter_zn {p0 p : Byte} {w : List (Flag × Bool)} (h : StatusAfter p0 p w) (v : Byte) :
    StatusAfter p0 (zn v p) ((.n, v.getLsbD 7) :: (.z, v == 0) :: w) :=
  statusAfter_setFlag (statusAfter_setFlag h _ _) _ _

/-- SetZN writes Z and N and nothing else. -/
theorem zn_statusAfter (v p : Byte) : StatusAfter p (zn v p) (znOf v) :=
  statusAfter_congr (statusAfter_zn (statusAfter_self p) v) fun f => by
    cases f <;> simp [znOf, List.lookup, Bool.beq_eq_decide_eq]

theorem setFlag_statusAfter (f : Flag) (b : Bool) (p : Byte) : StatusAfter p (setFlag f b p) [(f, b)] :=
  statusAfter_setFlag (statusAfter_self p) f b

theorem shiftStatus_statusAfter (out : Bool) (r p : Byte) :
    StatusAfter p (shiftStatus out r p) ((.c, out) :: znOf r) :=
  statusAfter_congr (statusAfter_zn (setFlag_statusAfter .c out p) r) fun f => by
    cases f <;> simp [znOf, List.lookup] <;> rfl

theorem addStatus_statusAfter (a m : Byte) (c : Bool) (p : Byte) :
    StatusAfter p (addStatus a m c p)
      ([(.c, addCarry a m c), (.v, addOverflow a m c)] ++ znOf (addResult a m c)) :=
  statusAfter_congr
    (statusAfter_zn (statusAfter_setFlag (setFlag_statusAfter .c (addCarry a m c) p) .v (addOverflow a m c)) _)
    fun f => by cases f <;> simp [znOf, List.lookup] <;> rfl

theorem compareStatus_statusAfter (reg m p : Byte) :
    StatusAfter p (compareStatus reg m p) ((.c, decide (m.toNat ≤ reg.toNat)) :: znOf (reg - m)) :=
  statusAfter_congr (statusAfter_zn (setFlag_statusAfter .c _ p) (reg - m)) fun f => by
    cases f <;> simp [znOf, List.lookup] <;> rfl

theorem bitStatus_statusAfter (a m p : Byte) :
    StatusAfter p (bitStatus a m p) [(.z, decide (a &&& m = 0)), (.n, m.getLsbD 7), (.v, m.getLsbD 6)] :=
  statusAfter_congr (statusAfter_setFlag (statusAfter_setFlag (setFlag_statusAfter .z _ p) .n _) .v _) fun f => by
    cases f <;> simp [List.lookup] <;> rfl

theorem softwareStatus_statusAfter (p : Byte) : StatusAfter p (softwareStatus p) [(.b5, true), (.b4, true)] := by
  intro f
  cases f <;> simp [getFlag, softwareStatus, Flag.bit, List.lookup] <;> rfl

theorem hardwareStatus_statusAfter (p : Byte) : StatusAfter p (hardwareStatus p) [(.b5, true), (.b4, false)] := by
  intro f
  cases f <;> simp [getFlag, hardwareStatus, Flag.bit, List.lookup] <;> rfl

/-! ## Results as arithmetic -/

theorem addResult_toNat (a m : Byte) (c : Bool) : (addResult a m c).toNat = (a.toNat + m.toNat + c.toNat) % 256 := by
  simp [addResult, addSum]

theorem toInt_eq (v : Byte) : v.toInt = if v.toNat < 128 then (v.toNat : Int) else v.toNat - 256 := by
  rw [BitVec.toInt_eq_toNat_cond]
  split <;> split <;> omega

/-- The overflow rule (R122) is the signed sum leaving -128 to 127. -/
theorem addOverflow_eq (a m : Byte) (c : Bool) :
    addOverflow a m c = decide (a.toInt + m.toInt + c.toInt < -128 ∨ 127 < a.toInt + m.toInt + c.toInt) := by
  have hr := addResult_toNat a m c
  have ha := a.isLt
  have hm := m.isLt
  simp only [addOverflow, BitVec.getLsbD_and, BitVec.getLsbD_xor]
  simp only [lsb7_eq, toInt_eq, hr]
  rw [Bool.eq_iff_iff]
  simp only [Bool.and_eq_true, bne_iff_ne, ne_eq, decide_eq_decide, decide_eq_true_eq]
  cases c <;> simp only [Bool.toNat_false, Bool.toNat_true, Bool.toInt_false, Bool.toInt_true] <;>
    split <;> split <;> omega

theorem complement_toNat (m : Byte) : (~~~m).toNat = 255 - m.toNat := by
  simp [BitVec.toNat_not]

theorem complement_toInt (m : Byte) : (~~~m).toInt = -m.toInt - 1 := by
  have := m.isLt
  rw [toInt_eq, toInt_eq, complement_toNat]
  split <;> split <;> omega

/-! ## Shifts and rotates as arithmetic (42_logic_shift.md R144 to R147) -/

theorem aslResult_toNat (v : Byte) : (aslResult v).toNat = v.toNat * 2 % 256 := by
  simp [aslResult, Nat.shiftLeft_eq]

theorem lsrResult_toNat (v : Byte) : (lsrResult v).toNat = v.toNat / 2 := by
  simp [lsrResult, Nat.shiftRight_eq_div_pow]

theorem rolResult_toNat (v : Byte) (c : Bool) : (rolResult v c).toNat = v.toNat * 2 % 256 + c.toNat := by
  revert v c
  decide +kernel

theorem rorResult_toNat (v : Byte) (c : Bool) : (rorResult v c).toNat = v.toNat / 2 + 128 * c.toNat := by
  revert v c
  decide +kernel

end Sys2Proof.Machine
end

