-- ==== Sys2Proof/Laws/Memory.lean ====
section
/-! SUPPORT. The memory list: a read after a write, for every list and so for every state; the canonical form is kept
by every operation; equal memories in canonical form are equal lists. -/

namespace Sys2Proof.Machine

/-! ## Reading after an operation -/

theorem Memory.read_erase (m : Memory) (a b : Nat) :
    Memory.read (Memory.erase m a) b = if b = a then unlistedByte else Memory.read m b := by
  induction m with
  | nil => simp [Memory.erase, Memory.read]
  | cons c rest ih =>
    obtain ⟨k, v⟩ := c
    simp only [Memory.erase, List.filter_cons] at ih ⊢
    by_cases hk : k = a
    · subst hk
      simp only [bne_self_eq_false, Bool.false_eq_true, if_false, ih, Memory.read]
      by_cases hb : b = k
      · simp [hb]
      · simp [hb, Ne.symm hb]
    · simp only [bne_iff_ne, ne_eq, hk, not_false_eq_true, if_true, Memory.read, ih]
      by_cases hb : k = b
      · subst hb; simp [hk]
      · simp [hb]

theorem Memory.read_insert (m : Memory) (a b : Nat) (v : Byte) (h : ∀ c ∈ m, c.1 ≠ a) :
    Memory.read (Memory.insert m a v) b = if b = a then v else Memory.read m b := by
  induction m with
  | nil => simp [Memory.insert, Memory.read, eq_comm]
  | cons c rest ih =>
    obtain ⟨k, w⟩ := c
    have hk : k ≠ a := h (k, w) (by simp)
    have ih := ih fun c hc => h c (by simp [hc])
    by_cases hlt : a < k
    · simp [Memory.insert, hlt, Memory.read, eq_comm (a := a)]
    · simp only [Memory.insert, hlt, if_false, Memory.read, ih]
      by_cases hb : k = b
      · subst hb; simp [hk]
      · simp [hb]

theorem Memory.mem_erase {m : Memory} {a : Nat} {c : Host.Cell} (h : c ∈ Memory.erase m a) : c ∈ m ∧ c.1 ≠ a := by
  simpa [Memory.erase] using h

/-- The one law of reading and writing: a write is seen at its own address and nowhere else. -/
theorem Memory.read_write (m : Memory) (a b : Nat) (v : Byte) :
    Memory.read (Memory.write m a v) b = if b = a then v else Memory.read m b := by
  unfold Memory.write
  split
  · next hv => simp [Memory.read_erase, hv]
  · rw [Memory.read_insert _ _ _ _ fun c hc => (Memory.mem_erase hc).2, Memory.read_erase]
    split <;> rfl

/-! ## The canonical form -/

theorem Memory.wf_cons (k : Nat) (v : Byte) (rest : Memory) :
    Memory.wf ((k, v) :: rest) = true ↔
      k < 65536 ∧ v ≠ unlistedByte ∧ (∀ c ∈ rest, k < c.1) ∧ Memory.wf rest = true := by
  simp [Memory.wf, and_assoc]

theorem Memory.wf_erase {m : Memory} (h : Memory.wf m = true) (a : Nat) : Memory.wf (Memory.erase m a) = true := by
  induction m with
  | nil => rfl
  | cons c rest ih =>
    obtain ⟨k, v⟩ := c
    obtain ⟨hk, hv, hlt, hr⟩ := (Memory.wf_cons k v rest).1 h
    by_cases hka : k = a
    · simpa [Memory.erase, hka] using ih hr
    · have : Memory.erase ((k, v) :: rest) a = (k, v) :: Memory.erase rest a := by simp [Memory.erase, hka]
      rw [this, Memory.wf_cons]
      exact ⟨hk, hv, fun c hc => hlt c (Memory.mem_erase hc).1, ih hr⟩

theorem Memory.mem_insert {m : Memory} {a : Nat} {v : Byte} {c : Host.Cell} (h : c ∈ Memory.insert m a v) :
    c = (a, v) ∨ c ∈ m := by
  induction m with
  | nil => simpa [Memory.insert] using h
  | cons d rest ih =>
    obtain ⟨k, w⟩ := d
    unfold Memory.insert at h
    split at h
    · simpa using h
    · rcases List.mem_cons.1 h with h | h
      · simp [h]
      · rcases ih h with h | h <;> simp [h]

theorem Memory.wf_insert {m : Memory} (h : Memory.wf m = true) {a : Nat} {v : Byte} (ha : a < 65536)
    (hv : v ≠ unlistedByte) (hm : ∀ c ∈ m, c.1 ≠ a) : Memory.wf (Memory.insert m a v) = true := by
  induction m with
  | nil => simp [Memory.insert, Memory.wf, ha, hv]
  | cons c rest ih =>
    obtain ⟨k, w⟩ := c
    obtain ⟨hk, hw, hlt, hr⟩ := (Memory.wf_cons k w rest).1 h
    have hka : k ≠ a := hm (k, w) (by simp)
    unfold Memory.insert
    split
    · next hak =>
      refine (Memory.wf_cons _ _ _).2 ⟨ha, hv, ?_, h⟩
      intro c hc
      rcases List.mem_cons.1 hc with hc | hc
      · simpa [hc] using hak
      · exact Nat.lt_trans hak (hlt c hc)
    · next hak =>
      refine (Memory.wf_cons _ _ _).2 ⟨hk, hw, ?_, ih hr fun c hc => hm c (by simp [hc])⟩
      intro c hc
      rcases Memory.mem_insert hc with hc | hc
      · subst hc
        exact Nat.lt_of_le_of_ne (Nat.le_of_not_lt hak) hka
      · exact hlt c hc

/-- Every write keeps the canonical form. -/
theorem Memory.wf_write {m : Memory} (h : Memory.wf m = true) {a : Nat} (ha : a < 65536) (v : Byte) :
    Memory.wf (Memory.write m a v) = true := by
  unfold Memory.write
  split
  · exact Memory.wf_erase h a
  · next hv => exact Memory.wf_insert (Memory.wf_erase h a) ha hv fun c hc => (Memory.mem_erase hc).2

/-- A store at a 16-bit address keeps the canonical form. -/
theorem Memory.wf_writeWord {m : Memory} (h : Memory.wf m = true) (a : Word) (v : Byte) :
    Memory.wf (Memory.write m a.toNat v) = true := Memory.wf_write h a.isLt v

/-- The memory of the reset state has the canonical form. -/
theorem Memory.wf_reset : Memory.wf State.reset.mem = true := rfl

/-- Below every entry a memory reads as unlisted. -/
theorem Memory.read_below {m : Memory} {a : Nat} (h : ∀ c ∈ m, a < c.1) : Memory.read m a = unlistedByte := by
  induction m with
  | nil => rfl
  | cons c rest ih =>
    obtain ⟨k, v⟩ := c
    have hk : a < k := h (k, v) (by simp)
    have : k ≠ a := Nat.ne_of_gt hk
    simpa [Memory.read, this] using ih fun c hc => h c (by simp [hc])

/-- Two memories in canonical form that read the same everywhere are the same list. -/
theorem Memory.eq_of_read_eq {m n : Memory} (hm : Memory.wf m = true) (hn : Memory.wf n = true)
    (h : ∀ a, Memory.read m a = Memory.read n a) : m = n := by
  induction m generalizing n with
  | nil =>
    match n with
    | [] => rfl
    | (k, v) :: rest =>
      have hv := ((Memory.wf_cons k v rest).1 hn).2.1
      exact absurd (by simpa [Memory.read] using (h k).symm) hv
  | cons c rest ih =>
    obtain ⟨k, v⟩ := c
    obtain ⟨hk, hv, hlt, hr⟩ := (Memory.wf_cons k v rest).1 hm
    match n with
    | [] => exact absurd (by simpa [Memory.read] using h k) hv
    | (l, w) :: rest' =>
      obtain ⟨_, hw, hlt', hr'⟩ := (Memory.wf_cons l w rest').1 hn
      have hkl : k = l := by
        rcases Nat.lt_trichotomy k l with hkl | hkl | hkl
        · have h1 : Memory.read ((l, w) :: rest') k = unlistedByte := by
            apply Memory.read_below
            intro c hc
            rcases List.mem_cons.1 hc with hc | hc
            · simpa [hc] using hkl
            · exact Nat.lt_trans hkl (hlt' c hc)
          exact absurd (by simpa [Memory.read] using (h k).trans h1) hv
        · exact hkl
        · have h1 : Memory.read ((k, v) :: rest) l = unlistedByte := by
            apply Memory.read_below
            intro c hc
            rcases List.mem_cons.1 hc with hc | hc
            · simpa [hc] using hkl
            · exact Nat.lt_trans hkl (hlt c hc)
          exact absurd (by simpa [Memory.read] using (h l).symm.trans h1) hw
      subst hkl
      have hvw : v = w := by simpa [Memory.read] using h k
      subst hvw
      congr 1
      apply ih hr hr'
      intro a
      by_cases hak : k = a
      · subst hak
        rw [Memory.read_below hlt, Memory.read_below hlt']
      · simpa [Memory.read, hak] using h a

/-- Any bytes below an address are the contents of some memory in canonical form (70_reset_and_hazards.md R275). -/
theorem Memory.exists_below (contents : Nat → Byte) (n : Nat) (hn : n ≤ 65536) :
    ∃ m, Memory.wf m = true ∧ ∀ a, a < n → Memory.read m a = contents a := by
  induction n with
  | zero => exact ⟨[], rfl, fun a h => absurd h (Nat.not_lt_zero a)⟩
  | succ n ih =>
    obtain ⟨m, hm, hr⟩ := ih (by omega)
    refine ⟨Memory.write m n (contents n), Memory.wf_write hm (by omega) _, fun a ha => ?_⟩
    rw [Memory.read_write]
    split
    · next h => rw [h]
    · next h => exact hr a (by omega)

end Sys2Proof.Machine
end

