-- ==== Sys2Proof/Laws/Ops.lean ====
section
/-! SUPPORT. One lemma for each shared operation that says everything it can do: which answer it gives under which
condition on the state. Provers cite these and do not unfold the operations. -/

namespace Sys2Proof.Machine

/-! ## Sequencing -/

@[simp] theorem andThen_done {α β : Type} (v : α) (s : State) (k : α → State → Effect β) :
    (Effect.done v s).andThen k = k v s := rfl

@[simp] theorem andThen_raised {α β : Type} (f : Fault) (s : State) (k : α → State → Effect β) :
    (Effect.raised f s : Effect α).andThen k = .raised f s := rfl

@[simp] theorem onRead_ok {α β : Type} (v : α) (s : State) (k : α → Effect β) : onRead (.ok v) s k = k v := rfl

@[simp] theorem onRead_error {α β : Type} (f : Fault) (s : State) (k : α → Effect β) :
    onRead (.error f) s k = .raised f s := rfl

@[simp] theorem conclude_done (pc0 : Option Word) (s : State) : conclude pc0 (.done () s) = .next s := rfl

@[simp] theorem conclude_raised (pc0 : Option Word) (f : Fault) (s : State) :
    conclude pc0 (.raised f s) = .next (raiseFault f pc0 s) := rfl

/-- The answer of an instruction is always a next state. -/
theorem instruction_next (n : Nat) (s : State) (e : Effect Unit) : ∃ t, instruction n s e = .next t := by
  cases e with
  | done v t => exact ⟨t, rfl⟩
  | raised f t => exact ⟨_, rfl⟩

/-! ## Memory after a write -/

/-- A write adds its byte to the written ones. -/
theorem memoryAfter_write {s : State} {m : Memory} {w : List (Word × Byte)} (h : MemoryAfter s m w) (a : Word)
    (v : Byte) : MemoryAfter s (Memory.write m a.toNat v) ((a, v) :: w) := by
  intro b
  rw [Memory.read_write, h b]
  by_cases hb : b = a
  · simp [hb]
  · have h1 : b.toNat ≠ a.toNat := fun he => hb (BitVec.eq_of_toNat_eq he)
    have h2 : (b == a) = false := by simpa using hb
    simp [h1, List.lookup, h2]

theorem memoryAfter_self (s : State) : MemoryAfter s s.mem [] := fun _ => rfl

/-- What is written may be listed in any order that answers the same. -/
theorem memoryAfter_congr {s : State} {m : Memory} {w w' : List (Word × Byte)} (h : MemoryAfter s m w)
    (hw : ∀ a, w.lookup a = w'.lookup a) : MemoryAfter s m w' := fun a => by rw [h a, hw a]

theorem byteAt_write (s : State) (a b : Word) (v : Byte) :
    Memory.read (Memory.write s.mem a.toNat v) b.toNat = if b = a then v else byteAt s b := by
  rw [Memory.read_write]
  by_cases hb : b = a
  · simp [hb]
  · have h1 : b.toNat ≠ a.toNat := fun he => hb (BitVec.eq_of_toNat_eq he)
    simp [h1, hb, byteAt]

/-- Two keys that differ may be listed in either order. -/
theorem lookup_swap {a b : Word} {v w : Byte} (h : a ≠ b) (c : Word) :
    List.lookup c [(a, v), (b, w)] = List.lookup c [(b, w), (a, v)] := by
  by_cases h1 : c = a
  · subst h1
    have : (c == b) = false := by simpa using h
    simp [List.lookup, this]
  · have k1 : (c == a) = false := by simpa using h1
    by_cases h2 : c = b
    · subst h2; simp [List.lookup, k1]
    · have : (c == b) = false := by simpa using h2
      simp [List.lookup, this, k1]

theorem memoryAfter_one (s : State) (a : Word) (v : Byte) : MemoryAfter s (Memory.write s.mem a.toNat v) [(a, v)] :=
  memoryAfter_write (memoryAfter_self s) a v

theorem memoryAfter_two (s : State) {a b : Word} (v w : Byte) (h : a ≠ b) :
    MemoryAfter s (Memory.write (Memory.write s.mem a.toNat v) b.toNat w) [(a, v), (b, w)] :=
  memoryAfter_congr (memoryAfter_write (memoryAfter_one s a v) b w) fun c => lookup_swap h.symm c

theorem memoryAfter_three (s : State) {a b c : Word} (v w x : Byte) (h : a ≠ b) (h1 : a ≠ c) (h2 : b ≠ c) :
    MemoryAfter s (Memory.write (Memory.write (Memory.write s.mem a.toNat v) b.toNat w) c.toNat x)
      [(a, v), (b, w), (c, x)] :=
  memoryAfter_congr (memoryAfter_write (memoryAfter_two s v w h) c x) fun e => by
    by_cases k : e = c
    · subst k
      have k1 : (e == a) = false := by simpa using h1.symm
      have k2 : (e == b) = false := by simpa using h2.symm
      simp [List.lookup, k1, k2]
    · have k : (e == c) = false := by simpa using k
      simp only [List.lookup, k]

/-- A memory after writes is unchanged outside the addresses written. -/
theorem MemoryAfter.sameOutside {s t : State} {w : List (Word × Byte)} (h : MemoryAfter s t.mem w) :
    SameMemoryOutside (w.map Prod.fst) s t := by
  intro a ha
  have hn : w.lookup a = none := by
    rw [List.lookup_eq_none_iff]
    intro p hp
    have : a ≠ p.1 := by
      rintro rfl
      exact ha (List.mem_map_of_mem hp)
    simpa using this
  rw [byteAt, h a, hn]
  rfl

/-! ## The memory contract -/

theorem memRead_eq (a : Word) (s : State) :
    memRead a s = if addressable s.platform a then .ok (byteAt s a) else .error (.memoryAccess a) := rfl

theorem memWrite_eq (a : Word) (v : Byte) (s : State) :
    memWrite a v s = if addressable s.platform a then .done () { s with mem := Memory.write s.mem a.toNat v }
      else .raised (.memoryAccess a) s := rfl

theorem memRead16_eq (a : Word) (s : State) :
    memRead16 a s =
      if a = 0xFFFF#16 then .error (.memoryAccess a)
      else if addressable s.platform a then
        if addressable s.platform (a + 1#16) then .ok (joinBytes (byteAt s (a + 1#16)) (byteAt s a))
        else .error (.memoryAccess (a + 1#16))
      else .error (.memoryAccess a) := by
  unfold memRead16
  split
  · rfl
  · simp only [memRead_eq]
    by_cases h1 : addressable s.platform a <;> by_cases h2 : addressable s.platform (a + 1#16) <;> simp [h1, h2]

theorem joinBytes_toNat (high low : Byte) : (joinBytes high low).toNat = low.toNat + 256 * high.toNat := by
  have h1 := low.isLt
  have h2 := high.isLt
  simp only [joinBytes, BitVec.toNat_append]
  rw [← Nat.shiftLeft_add_eq_or_of_lt h1, Nat.shiftLeft_eq]
  omega

theorem lowByte_eq (w : Word) : lowByte w = BitVec.ofNat 8 w.toNat := by
  apply BitVec.eq_of_toNat_eq
  simp [lowByte]

theorem highByte_eq (w : Word) : highByte w = BitVec.ofNat 8 (w.toNat / 256) := by
  apply BitVec.eq_of_toNat_eq
  simp [highByte, Nat.shiftRight_eq_div_pow]

theorem joinBytes_high_low (w : Word) : joinBytes (highByte w) (lowByte w) = w := by
  apply BitVec.eq_of_toNat_eq
  have := w.isLt
  rw [joinBytes_toNat, lowByte_eq, highByte_eq]
  simp only [BitVec.toNat_ofNat]
  omega

/-! ## The stack -/

theorem stackAddress_toNat (sp : Byte) : (stackAddress sp).toNat = 256 + sp.toNat := by
  have := sp.isLt
  simp [stackAddress]
  omega

/-- Two stack addresses are the same only for the same SP. -/
theorem stackAddress_inj {p q : Byte} : stackAddress p = stackAddress q ↔ p = q := by
  constructor
  · intro h
    have h := congrArg BitVec.toNat h
    rw [stackAddress_toNat, stackAddress_toNat] at h
    exact BitVec.eq_of_toNat_eq (by omega)
  · rintro rfl; rfl

theorem stackAddress_ne {p q : Byte} (h : p ≠ q) : stackAddress p ≠ stackAddress q := fun e => h (stackAddress_inj.1 e)

theorem push_eq (v : Byte) (s : State) :
    push v s =
      if addressable s.platform (stackAddress s.sp) then
        .done () { s with mem := Memory.write s.mem (stackAddress s.sp).toNat v, sp := s.sp - 1#8 }
      else .raised (.memoryAccess (stackAddress s.sp)) s := by
  unfold push
  rw [memWrite_eq]
  split <;> rfl

theorem pull_eq (s : State) :
    pull s =
      if addressable s.platform (stackAddress (s.sp + 1#8)) then
        .done (byteAt s (stackAddress (s.sp + 1#8)))
          { s with sp := s.sp + 1#8, mem := Memory.write s.mem (stackAddress (s.sp + 1#8)).toNat 0#8 }
      else .raised (.memoryAccess (stackAddress (s.sp + 1#8))) { s with sp := s.sp + 1#8 } := by
  unfold pull
  simp only [memRead_eq, memWrite_eq]
  by_cases h : addressable s.platform (stackAddress (s.sp + 1#8)) <;> simp [h] <;> simp [State.withSp_eq, byteAt]

theorem push16_eq (w : Word) (s : State) :
    push16 w s =
      if addressable s.platform (stackAddress s.sp) then
        if addressable s.platform (stackAddress (s.sp - 1#8)) then
          .done () { s with
            mem := Memory.write (Memory.write s.mem (stackAddress s.sp).toNat (highByte w))
              (stackAddress (s.sp - 1#8)).toNat (lowByte w)
            sp := s.sp - 2#8 }
        else .raised (.memoryAccess (stackAddress (s.sp - 1#8)))
          { s with mem := Memory.write s.mem (stackAddress s.sp).toNat (highByte w), sp := s.sp - 1#8 }
      else .raised (.memoryAccess (stackAddress s.sp)) s := by
  have h2 : s.sp - 1#8 - 1#8 = s.sp - 2#8 := by bv_omega
  unfold push16
  rw [push_eq]
  by_cases h : addressable s.platform (stackAddress s.sp) <;> simp [h, push_eq, h2]

theorem pull16_eq (s : State) :
    pull16 s =
      if addressable s.platform (stackAddress (s.sp + 1#8)) then
        if addressable s.platform (stackAddress (s.sp + 2#8)) then
          .done (joinBytes (byteAt s (stackAddress (s.sp + 2#8))) (byteAt s (stackAddress (s.sp + 1#8))))
            { s with
              sp := s.sp + 2#8
              mem := Memory.write (Memory.write s.mem (stackAddress (s.sp + 1#8)).toNat 0#8)
                (stackAddress (s.sp + 2#8)).toNat 0#8 }
        else .raised (.memoryAccess (stackAddress (s.sp + 2#8)))
          { s with sp := s.sp + 2#8, mem := Memory.write s.mem (stackAddress (s.sp + 1#8)).toNat 0#8 }
      else .raised (.memoryAccess (stackAddress (s.sp + 1#8))) { s with sp := s.sp + 1#8 } := by
  have h2 : s.sp + 1#8 + 1#8 = s.sp + 2#8 := by bv_omega
  have hne : stackAddress (s.sp + 2#8) ≠ stackAddress (s.sp + 1#8) := by
    rw [Ne, stackAddress_inj]; bv_omega
  unfold pull16
  rw [pull_eq]
  by_cases h : addressable s.platform (stackAddress (s.sp + 1#8)) <;> simp [h, pull_eq, h2]
  by_cases h' : addressable s.platform (stackAddress (s.sp + 2#8)) <;> simp [h']
  rw [byteAt, byteAt_write, if_neg hne]

/-! ## Interrupts -/

theorem takeInterrupt_eq (k : InterruptKind) (s : State) :
    takeInterrupt k s =
      if addressable s.platform (stackAddress s.sp) then
        if addressable s.platform (stackAddress (s.sp - 1#8)) then
          if addressable s.platform (stackAddress (s.sp - 2#8)) then
            .done () (k.enter { s with
              mem := Memory.write (Memory.write (Memory.write s.mem (stackAddress s.sp).toNat (highByte s.pc))
                (stackAddress (s.sp - 1#8)).toNat (lowByte s.pc)) (stackAddress (s.sp - 2#8)).toNat (k.status s.p)
              sp := s.sp - 3#8 })
          else .raised (.memoryAccess (stackAddress (s.sp - 2#8)))
            { s with
              mem := Memory.write (Memory.write s.mem (stackAddress s.sp).toNat (highByte s.pc))
                (stackAddress (s.sp - 1#8)).toNat (lowByte s.pc)
              sp := s.sp - 2#8 }
        else .raised (.memoryAccess (stackAddress (s.sp - 1#8)))
          { s with mem := Memory.write s.mem (stackAddress s.sp).toNat (highByte s.pc), sp := s.sp - 1#8 }
      else .raised (.memoryAccess (stackAddress s.sp)) s := by
  have h3 : s.sp - 2#8 - 1#8 = s.sp - 3#8 := by bv_omega
  unfold takeInterrupt
  rw [push16_eq]
  by_cases h : addressable s.platform (stackAddress s.sp) <;> simp [h]
  by_cases h' : addressable s.platform (stackAddress (s.sp - 1#8)) <;> simp [h', push_eq, h3]
  by_cases h'' : addressable s.platform (stackAddress (s.sp - 2#8)) <;> simp [h'']

theorem returnFromInterrupt_eq (s : State) :
    returnFromInterrupt s =
      if addressable s.platform (stackAddress (s.sp + 1#8)) then
        if addressable s.platform (stackAddress (s.sp + 2#8)) then
          if addressable s.platform (stackAddress (s.sp + 3#8)) then
            .done () { s with
              mem := Memory.write (Memory.write (Memory.write s.mem (stackAddress (s.sp + 1#8)).toNat 0#8)
                (stackAddress (s.sp + 2#8)).toNat 0#8) (stackAddress (s.sp + 3#8)).toNat 0
              sp := s.sp + 3#8
              p := byteAt s (stackAddress (s.sp + 1#8))
              pc := joinBytes (byteAt s (stackAddress (s.sp + 3#8))) (byteAt s (stackAddress (s.sp + 2#8))) }
          else .raised (.memoryAccess (stackAddress (s.sp + 3#8)))
            { s with
              mem := Memory.write (Memory.write s.mem (stackAddress (s.sp + 1#8)).toNat 0#8)
                (stackAddress (s.sp + 2#8)).toNat 0
              sp := s.sp + 3#8
              p := byteAt s (stackAddress (s.sp + 1#8)) }
        else .raised (.memoryAccess (stackAddress (s.sp + 2#8)))
          { s with
            mem := Memory.write s.mem (stackAddress (s.sp + 1#8)).toNat 0
            sp := s.sp + 2#8
            p := byteAt s (stackAddress (s.sp + 1#8)) }
      else .raised (.memoryAccess (stackAddress (s.sp + 1#8))) { s with sp := s.sp + 1#8 } := by
  have h2 : s.sp + 1#8 + 1#8 = s.sp + 2#8 := by bv_omega
  have h3 : s.sp + 1#8 + 2#8 = s.sp + 3#8 := by bv_omega
  have hne2 : stackAddress (s.sp + 2#8) ≠ stackAddress (s.sp + 1#8) := by
    rw [Ne, stackAddress_inj]; bv_omega
  have hne3 : stackAddress (s.sp + 3#8) ≠ stackAddress (s.sp + 1#8) := by
    rw [Ne, stackAddress_inj]; bv_omega
  unfold returnFromInterrupt
  rw [pull_eq]
  by_cases h : addressable s.platform (stackAddress (s.sp + 1#8)) <;> simp [h, pull16_eq, h2, h3]
  by_cases h' : addressable s.platform (stackAddress (s.sp + 2#8)) <;> simp [h']
  by_cases h'' : addressable s.platform (stackAddress (s.sp + 3#8)) <;> simp [h'']
  simp only [State.withPc_eq, State.withP_eq, byteAt, byteAt_write, if_neg hne2, if_neg hne3]

end Sys2Proof.Machine
end

