-- ==== Sys2Proof/Laws/Operands.lean ====
section
/-! SUPPORT. The resolver, the kinds an operation accepts, and one equation for each shape of an instruction rule in
Machine/Operands.lean: what it answers, by what its operand resolves to. -/

namespace Sys2Proof.Machine

/-! ## Extension and kinds -/

theorem zext_toNat (b : Byte) : (zext b).toNat = b.toNat := by
  have := b.isLt
  simp only [zext, BitVec.toNat_setWidth]
  omega

theorem sext_toNat (b : Byte) : (sext b).toNat = b.toNat + if 128 ≤ b.toNat then 65280 else 0 := by
  have := b.isLt
  simp only [sext, BitVec.toNat_signExtend, BitVec.msb_eq_decide, BitVec.toNat_setWidth]
  simp only [Nat.reduceSub, Nat.reducePow, decide_eq_true_eq]
  split <;> omega

/-- The target of a branch as a signed sum (30_encoding.md R93). -/
theorem relativeTarget_toNat (pc : Word) (d : Byte) :
    ((pc + sext d).toNat : Int) = ((pc.toNat : Int) + d.toNat - (if 128 ≤ d.toNat then 256 else 0)) % 65536 := by
  rw [BitVec.toNat_add, sext_toNat]
  have := pc.isLt
  have := d.isLt
  split <;> omega

/-- An accepted kind that is an address. -/
theorem isAddress_iff {i : Input} : i.isAddress = true ↔ ∃ a, i = .addr a := by
  cases i <;> simp [Input.isAddress]

/-- Only an operand in Accumulator mode resolves to the accumulator. -/
theorem resolve_acc {o : Operand} {s : State} (h : resolve o s = .ok .acc) : o = .accumulator := by
  cases o <;> simp [resolve, pointerInput] at h ⊢ <;> (split at h <;> simp at h)

/-- Only an operand in Implied mode resolves to no input. -/
theorem resolve_none {o : Operand} {s : State} (h : resolve o s = .ok .none) : o = .implied := by
  cases o <;> simp [resolve, pointerInput] at h ⊢ <;> (split at h <;> simp at h)

/-- Only an operand in Immediate mode resolves to an immediate byte. -/
theorem resolve_imm {o : Operand} {s : State} {b : Byte} (h : resolve o s = .ok (.imm b)) : o = .immediate b := by
  cases o <;> (simp_all [resolve, pointerInput]; try (split at h <;> simp at h))

/-- A resolver's fault is a MemoryAccessFault of its pointer read (R100 to R102). -/
theorem resolve_error {o : Operand} {s : State} {f : Fault} (h : resolve o s = .error f) :
    ∃ a, f = .memoryAccess a := by
  have key : ∀ w g, memRead16 w s = .error g → ∃ a, g = .memoryAccess a := by
    intro w g hg
    rw [memRead16_eq] at hg
    split at hg
    · exact ⟨_, by simpa using hg.symm⟩
    · split at hg
      · split at hg
        · simp at hg
        · exact ⟨_, by simpa using hg.symm⟩
      · exact ⟨_, by simpa using hg.symm⟩
  cases o <;> simp [resolve, pointerInput] at h <;>
    (split at h <;> simp at h; subst h; exact key _ _ ‹_›)

theorem inputOf_eq (accepts : Input → Bool) (o : Operand) (s : State) :
    inputOf accepts o s =
      match resolve o s with
      | .ok i => if accepts i then .ok i else .error .modeOperationMismatch
      | .error f => .error f := rfl

/-- An accepted input is the resolver's. -/
theorem inputOf_ok {accepts : Input → Bool} {o : Operand} {s : State} {i : Input} (h : inputOf accepts o s = .ok i) :
    resolve o s = .ok i ∧ accepts i = true := by
  rw [inputOf_eq] at h
  split at h
  · next j hj =>
    split at h
    · next ha => simp at h; subst h; exact ⟨hj, ha⟩
    · simp at h
  · simp at h

/-- A kind that the operation does not accept is a mismatch (R103). -/
theorem inputOf_mismatch {accepts : Input → Bool} {o : Operand} {s : State} {i : Input} (h : resolve o s = .ok i)
    (ha : accepts i = false) : inputOf accepts o s = .error .modeOperationMismatch := by
  simp [inputOf_eq, h, ha]

/-- An accepted kind is the input (R103). -/
theorem inputOf_accepted {accepts : Input → Bool} {o : Operand} {s : State} {i : Input} (h : resolve o s = .ok i)
    (ha : accepts i = true) : inputOf accepts o s = .ok i := by
  simp [inputOf_eq, h, ha]

/-- The fault of an operand is its pointer read's, or the mismatch. -/
theorem inputOf_error {accepts : Input → Bool} {o : Operand} {s : State} {f : Fault}
    (h : inputOf accepts o s = .error f) :
    resolve o s = .error f ∨ (f = .modeOperationMismatch ∧ ∃ i, resolve o s = .ok i ∧ accepts i = false) := by
  rw [inputOf_eq] at h
  split at h
  · next j hj =>
    split at h
    · simp at h
    · next ha => exact .inr ⟨by simpa using h.symm, j, hj, by simpa using ha⟩
  · next g hg => simp at h; subst h; exact .inl hg

/-! ## The data byte -/

/-- The data byte of an operand that accepts immediate bytes and addresses. -/
theorem operandByte_data {o : Operand} {s : State} {m : Byte} (h : DataByte o s m) :
    operandByte Input.isData o s = .ok m := by
  rcases h with rfl | ⟨a, hr, ha, rfl⟩
  · rfl
  · simp [operandByte, inputOf_eq, hr, Input.isData, readInput, memRead_eq, ha]

theorem operandByte_addr {accepts : Input → Bool} {o : Operand} {s : State} {a : Word}
    (hacc : accepts (.addr a) = true) (hr : resolve o s = .ok (.addr a)) :
    operandByte accepts o s = memRead a s := by
  simp [operandByte, inputOf_eq, hr, hacc, readInput]

theorem operandByte_error {accepts : Input → Bool} {o : Operand} {s : State} {f : Fault}
    (hr : resolve o s = .error f) : operandByte accepts o s = .error f := by
  simp [operandByte, inputOf_eq, hr]

/-! ## The shapes -/

theorem readAndUpdate_eq (accepts : Input → Bool) (o : Operand) (s : State) (u : Byte → State) :
    readAndUpdate accepts o s u =
      match operandByte accepts o s with
      | .ok m => .next (u m)
      | .error f => .next (raiseFault f (some (s.pc - BitVec.ofNat 16 o.length)) s) := by
  unfold readAndUpdate
  cases operandByte accepts o s <;> rfl

theorem storeRegister_eq (o : Operand) (v : Byte) (s : State) :
    storeRegister o v s =
      match inputOf Input.isAddress o s with
      | .ok (.addr a) =>
        if addressable s.platform a then .next { s with mem := Memory.write s.mem a.toNat v }
        else .next (raiseFault (.memoryAccess a) (some (s.pc - BitVec.ofNat 16 o.length)) s)
      | .ok _ => .next (raiseFault .modeOperationMismatch (some (s.pc - BitVec.ofNat 16 o.length)) s)
      | .error f => .next (raiseFault f (some (s.pc - BitVec.ofNat 16 o.length)) s) := by
  unfold storeRegister
  cases h : inputOf Input.isAddress o s with
  | error f => rfl
  | ok i =>
    obtain ⟨a, rfl⟩ := isAddress_iff.1 (inputOf_ok h).2
    simp only [onRead_ok, storeInput, memWrite_eq]
    split <;> rfl

theorem readModifyWrite_eq (accepts : Input → Bool) (o : Operand) (s : State) (r : Byte → Byte)
    (st : Byte → Byte → Byte) :
    readModifyWrite accepts o s r st =
      match inputOf accepts o s with
      | .ok (.addr a) =>
        if addressable s.platform a then
          .next { s with mem := Memory.write s.mem a.toNat (r (byteAt s a)), p := st (byteAt s a) s.p }
        else .next (raiseFault (.memoryAccess a) (some (s.pc - BitVec.ofNat 16 o.length)) s)
      | .ok .acc => .next { s with a := r s.a, p := st s.a s.p }
      | .ok _ => .next (raiseFault .modeOperationMismatch (some (s.pc - BitVec.ofNat 16 o.length)) s)
      | .error f => .next (raiseFault f (some (s.pc - BitVec.ofNat 16 o.length)) s) := by
  unfold readModifyWrite
  cases h : inputOf accepts o s with
  | error f => rfl
  | ok i =>
    cases i with
    | none => rfl
    | acc => rfl
    | imm b => rfl
    | addr a =>
      simp only [onRead_ok, readInput, memRead_eq]
      by_cases ha : addressable s.platform a = true
      · simp only [ha, if_true, onRead_ok, storeInput, memWrite_eq, andThen_done]
        rfl
      · simp only [ha, if_false, Bool.false_eq_true, onRead_error]
        rfl

theorem branchIf_eq (cond : Bool) (d : Byte) (s : State) :
    branchIf cond d s = .next (if cond then { s with pc := s.pc + sext d } else s) := by
  cases cond <;> rfl

/-! ## Operand faults -/

theorem readAndUpdate_faultsWithOperand {i : Instr} {s : State} {accepts : Input → Bool} {u : Byte → State}
    (h : exec i s = readAndUpdate accepts i.operand s u) (ha : ∀ a, accepts (.addr a) = true) :
    FaultsWithOperand i s := by
  refine ⟨fun a hr hf => ?_, fun f hr => ?_⟩
  · rw [h, readAndUpdate_eq, operandByte_addr (ha a) hr, memRead_eq, hf]; rfl
  · rw [h, readAndUpdate_eq, operandByte_error hr]; rfl

theorem storeRegister_faultsWithOperand {i : Instr} {s : State} {v : Byte}
    (h : exec i s = storeRegister i.operand v s) : FaultsWithOperand i s := by
  refine ⟨fun a hr hf => ?_, fun f hr => ?_⟩
  · rw [h, storeRegister_eq, inputOf_eq, hr]
    simp only [Input.isAddress, if_true, hf, Bool.false_eq_true, if_false]
    rfl
  · rw [h, storeRegister_eq, inputOf_eq, hr]; rfl

theorem readModifyWrite_faultsWithOperand {i : Instr} {s : State} {accepts : Input → Bool} {r : Byte → Byte}
    {st : Byte → Byte → Byte} (h : exec i s = readModifyWrite accepts i.operand s r st)
    (ha : ∀ a, accepts (.addr a) = true) : FaultsWithOperand i s := by
  refine ⟨fun a hr hf => ?_, fun f hr => ?_⟩
  · rw [h, readModifyWrite_eq, inputOf_eq, hr]
    simp only [ha, if_true, hf, Bool.false_eq_true, if_false]
    rfl
  · rw [h, readModifyWrite_eq, inputOf_eq, hr]; rfl

/-! ## The states an instruction of a shape can lead to -/

/-- Reading a data byte gives the update for it, or a fault that changes nothing but run_state. -/
theorem readAndUpdate_cases {accepts : Input → Bool} {o : Operand} {s t : State} {u : Byte → State}
    (h : readAndUpdate accepts o s u = .next t) :
    (∃ m, operandByte accepts o s = .ok m ∧ t = u m) ∨
    (∃ f, operandByte accepts o s = .error f ∧
      t = { s with runState := .faulted ⟨f, some (s.pc - BitVec.ofNat 16 o.length)⟩ }) := by
  rw [readAndUpdate_eq] at h
  split at h
  · next m hm => exact .inl ⟨m, hm, (Host.Outcome.next.inj h).symm⟩
  · next f hf => exact .inr ⟨f, hf, (Host.Outcome.next.inj h).symm⟩

/-- A store writes one byte at the effective address, or faults and changes nothing but run_state. -/
theorem storeRegister_cases {o : Operand} {v : Byte} {s t : State} (h : storeRegister o v s = .next t) :
    (∃ a, resolve o s = .ok (.addr a) ∧ t = { s with mem := Memory.write s.mem a.toNat v }) ∨
    (∃ r, t = { s with runState := r }) := by
  rw [storeRegister_eq] at h
  split at h
  · next a ha =>
    split at h
    · exact .inl ⟨a, (inputOf_ok ha).1, (Host.Outcome.next.inj h).symm⟩
    · exact .inr ⟨_, (Host.Outcome.next.inj h).symm⟩
  · exact .inr ⟨_, (Host.Outcome.next.inj h).symm⟩
  · exact .inr ⟨_, (Host.Outcome.next.inj h).symm⟩

/-- A read-modify-write instruction writes one byte at the effective address, or A, and then P; or it faults and
changes nothing but run_state. -/
theorem readModifyWrite_cases {accepts : Input → Bool} {o : Operand} {s t : State} {r : Byte → Byte}
    {st : Byte → Byte → Byte} (h : readModifyWrite accepts o s r st = .next t) :
    (∃ a, resolve o s = .ok (.addr a) ∧
      t = { s with mem := Memory.write s.mem a.toNat (r (byteAt s a)), p := st (byteAt s a) s.p }) ∨
    (accepts .acc = true ∧ o = .accumulator ∧ t = { s with a := r s.a, p := st s.a s.p }) ∨
    (∃ r, t = { s with runState := r }) := by
  rw [readModifyWrite_eq] at h
  cases hi : inputOf accepts o s with
  | error f => rw [hi] at h; exact .inr (.inr ⟨_, (Host.Outcome.next.inj h).symm⟩)
  | ok i =>
    obtain ⟨hr, ha⟩ := inputOf_ok hi
    rw [hi] at h
    cases i with
    | none => exact .inr (.inr ⟨_, (Host.Outcome.next.inj h).symm⟩)
    | imm b => exact .inr (.inr ⟨_, (Host.Outcome.next.inj h).symm⟩)
    | acc => exact .inr (.inl ⟨ha, resolve_acc hr, (Host.Outcome.next.inj h).symm⟩)
    | addr a =>
      dsimp only at h
      split at h
      · exact .inl ⟨a, hr, (Host.Outcome.next.inj h).symm⟩
      · exact .inr (.inr ⟨_, (Host.Outcome.next.inj h).symm⟩)

/-! ## Every instruction answers a next state -/

theorem readAndUpdate_next (accepts : Input → Bool) (o : Operand) (s : State) (u : Byte → State) :
    ∃ t, readAndUpdate accepts o s u = .next t := instruction_next _ _ _

theorem storeRegister_next (o : Operand) (v : Byte) (s : State) : ∃ t, storeRegister o v s = .next t :=
  instruction_next _ _ _

theorem readModifyWrite_next (accepts : Input → Bool) (o : Operand) (s : State) (r : Byte → Byte)
    (st : Byte → Byte → Byte) : ∃ t, readModifyWrite accepts o s r st = .next t := instruction_next _ _ _

theorem jumpTo_next (o : Operand) (s : State) (before : State → Effect Unit) : ∃ t, jumpTo o s before = .next t :=
  instruction_next _ _ _

end Sys2Proof.Machine
end

