-- ==== Sys2Proof/Laws/Cycle.lean ====
section
/-! SUPPORT. The step: what the fetch reads, the cases of an instruction cycle and of a step, said once, so that an
invariant of every step is a short case analysis; and that each of them answers a next state. -/

namespace Sys2Proof.Machine

/-! ## The shapes that read a word or a run of bytes -/

theorem jumpTo_eq (o : Operand) (s : State) (before : State → Effect Unit) :
    jumpTo o s before =
      match inputOf Input.isAddress o s with
      | .ok (.addr a) => instruction o.length s ((before s).andThen fun _ s1 => .done () (s1.withPc a))
      | .ok _ => .next (raiseFault .modeOperationMismatch (some (s.pc - BitVec.ofNat 16 o.length)) s)
      | .error f => .next (raiseFault f (some (s.pc - BitVec.ofNat 16 o.length)) s) := by
  unfold jumpTo
  cases h : inputOf Input.isAddress o s with
  | error f => rfl
  | ok i =>
    obtain ⟨a, rfl⟩ := isAddress_iff.1 (inputOf_ok h).2
    rfl

/-- A run of byte reads that completes has the bytes of memory, in ascending order. -/
theorem memReadUp_ok {a : Word} {s : State} {n : Nat} {bs : List Byte} (h : memReadUp a s n = .ok bs) :
    bs = (List.range n).map fun k => byteAt s (a + BitVec.ofNat 16 k) := by
  induction n generalizing a bs with
  | zero => simpa [memReadUp, eq_comm] using h
  | succ n ih =>
    simp only [memReadUp, memRead_eq] at h
    split at h
    · simp at h
    · next b hb =>
      split at h
      · simp at h
      · next bs' hbs =>
        have hb : byteAt s a = b := by
          split at hb <;> simp at hb
          exact hb
        obtain rfl : b :: bs' = bs := by simpa using h
        rw [ih hbs, List.range_succ_eq_map, ← hb]
        have swap : ∀ k : Nat, a + 1#16 + BitVec.ofNat 16 k = a + BitVec.ofNat 16 (k + 1) := by
          intro k
          rw [BitVec.ofNat_add, BitVec.add_assoc, BitVec.add_comm (1#16)]
        simp [swap]

theorem memReadUp_length {a : Word} {s : State} {n : Nat} {bs : List Byte} (h : memReadUp a s n = .ok bs) :
    bs.length = n := by
  simp [memReadUp_ok h]

/-- A run of byte reads of addressable bytes completes. -/
theorem memReadUp_total (s : State) (n : Nat) (a : Word)
    (h : ∀ k, k < n → addressable s.platform (a + BitVec.ofNat 16 k) = true) : ∃ bs, memReadUp a s n = .ok bs := by
  induction n generalizing a with
  | zero => exact ⟨[], rfl⟩
  | succ n ih =>
    obtain ⟨bs, hb⟩ := ih (a + 1#16) fun k hk => by
      have := h (k + 1) (by omega)
      rwa [BitVec.ofNat_add, BitVec.add_comm (BitVec.ofNat 16 k), ← BitVec.add_assoc] at this
    have h0 : addressable s.platform a = true := by simpa using h 0 (by omega)
    exact ⟨byteAt s a :: bs, by simp [memReadUp, memRead_eq, h0, hb]⟩

/-- A run of byte reads faults at its first byte that is not addressable (20_memory.md R57). -/
theorem memReadUp_hole (s : State) (n k : Nat) (a : Word) (hk : k < n)
    (before : ∀ j, j < k → addressable s.platform (a + BitVec.ofNat 16 j) = true)
    (hole : addressable s.platform (a + BitVec.ofNat 16 k) = false) :
    memReadUp a s n = .error (.memoryAccess (a + BitVec.ofNat 16 k)) := by
  induction n generalizing a k with
  | zero => omega
  | succ n ih =>
    cases k with
    | zero =>
      have h0 : addressable s.platform a = false := by simpa using hole
      simp [memReadUp, memRead_eq, h0]
    | succ k =>
      have h0 : addressable s.platform a = true := by simpa using before 0 (by omega)
      have swap : ∀ j : Nat, a + BitVec.ofNat 16 (j + 1) = a + 1#16 + BitVec.ofNat 16 j := by
        intro j
        rw [BitVec.ofNat_add, BitVec.add_comm (BitVec.ofNat 16 j), ← BitVec.add_assoc]
      rw [swap] at hole ⊢
      have up := ih k (a + 1#16) (by omega) (fun j hj => by rw [← swap]; exact before (j + 1) (by omega)) hole
      simp [memReadUp, memRead_eq, h0, up]

/-- A fault of a run of byte reads is a MemoryAccessFault (20_memory.md R57, R58). -/
theorem memReadN_error {a : Word} {s : State} {n : Nat} {f : Fault} (h : memReadN a n s = .error f) :
    ∃ b, f = .memoryAccess b := by
  have up : ∀ (n : Nat) (a : Word), memReadUp a s n = .error f → ∃ b, f = .memoryAccess b := by
    intro n
    induction n with
    | zero => intro a h; simp [memReadUp] at h
    | succ n ih =>
      intro a h
      simp only [memReadUp, memRead_eq] at h
      split at h
      · next g hg =>
        split at hg <;> simp at hg
        exact ⟨a, by simpa [← hg] using h.symm⟩
      · split at h
        · next g hg => exact ih (a + 1#16) (by simpa [← h] using hg)
        · simp at h
  unfold memReadN at h
  split at h
  · exact ⟨a, by simpa using h.symm⟩
  · exact up n a h

/-! ## Reset -/

/-- The reset sequence (70_reset_and_hazards.md R270, R272): the registers, then the vectors as far as they are
readable, and PC and run_state when all are. -/
theorem resetSequence_eq (s : State) :
    resetSequence s =
      match memRead16 0xFFFA#16 s with
      | .error f => .raised f (resetRegisters s)
      | .ok nmi =>
        match memRead16 0xFFFC#16 s with
        | .error f => .raised f { resetRegisters s with nmiVec := nmi }
        | .ok reset =>
          match memRead16 0xFFFE#16 s with
          | .error f => .raised f { resetRegisters s with nmiVec := nmi, resetVec := reset }
          | .ok irq => .done () { resetRegisters s with
              nmiVec := nmi, resetVec := reset, irqVec := irq, pc := reset, runState := .running } := by
  have same : ∀ (a : Word) (t : State), t.platform = s.platform → t.mem = s.mem → memRead16 a t = memRead16 a s := by
    intro a t hp hm
    simp [memRead16_eq, byteAt, hp, hm]
  unfold resetSequence
  dsimp only
  rw [same 0xFFFA#16 (resetRegisters s) rfl rfl]
  cases memRead16 0xFFFA#16 s with
  | error f => rfl
  | ok nmi =>
    simp only [onRead_ok]
    rw [same 0xFFFC#16 ((resetRegisters s).withNmiVec nmi) rfl rfl]
    cases memRead16 0xFFFC#16 s with
    | error f => rfl
    | ok reset =>
      simp only [onRead_ok]
      rw [same 0xFFFE#16 (((resetRegisters s).withNmiVec nmi).withResetVec reset) rfl rfl]
      cases memRead16 0xFFFE#16 s <;> rfl

/-- Every reset sequence leaves the memory, the platform and the inputs. -/
theorem resetSequence_frame (s : State) :
    ∃ t, (resetSequence s = .done () t ∨ ∃ f, resetSequence s = .raised f t) ∧
      t.mem = s.mem ∧ t.platform = s.platform ∧ t.inputs = s.inputs := by
  rw [resetSequence_eq]
  split
  · exact ⟨_, .inr ⟨_, rfl⟩, rfl, rfl, rfl⟩
  · split
    · exact ⟨_, .inr ⟨_, rfl⟩, rfl, rfl, rfl⟩
    · split
      · exact ⟨_, .inr ⟨_, rfl⟩, rfl, rfl, rfl⟩
      · exact ⟨_, .inl rfl, rfl, rfl, rfl⟩

/-- Which states a launch can give (70_reset_and_hazards.md R270, R272, R275): the reset values over the launch memory with
the vectors it holds, or the fault of the vector read that met a byte that is not addressable. -/
theorem launch_eq (p : Platform) (m : Memory) (inputs : List Sample) :
    launch p m inputs =
      let s := { State.reset with mem := m, platform := p, inputs := inputs }
      match memRead16 0xFFFA#16 s with
      | .error f => raiseFault f none s
      | .ok nmi =>
        match memRead16 0xFFFC#16 s with
        | .error f => raiseFault f none { s with nmiVec := nmi }
        | .ok reset =>
          match memRead16 0xFFFE#16 s with
          | .error f => raiseFault f none { s with nmiVec := nmi, resetVec := reset }
          | .ok irq => { s with nmiVec := nmi, resetVec := reset, irqVec := irq, pc := reset } := by
  unfold launch
  rw [resetSequence_eq]
  dsimp only
  cases memRead16 0xFFFA#16 { State.reset with mem := m, platform := p, inputs := inputs } with
  | error f => rfl
  | ok nmi =>
    cases memRead16 0xFFFC#16 { State.reset with mem := m, platform := p, inputs := inputs } with
    | error f => rfl
    | ok reset =>
      cases memRead16 0xFFFE#16 { State.reset with mem := m, platform := p, inputs := inputs } <;> rfl

/-- A launch leaves its memory, its platform and its inputs. -/
theorem launch_frame (p : Platform) (m : Memory) (inputs : List Sample) :
    (launch p m inputs).mem = m ∧ (launch p m inputs).platform = p ∧ (launch p m inputs).inputs = inputs := by
  rw [launch_eq]
  dsimp only
  split
  · exact ⟨rfl, rfl, rfl⟩
  · split
    · exact ⟨rfl, rfl, rfl⟩
    · split <;> exact ⟨rfl, rfl, rfl⟩

/-! ## The instruction cycle -/

/-- An instruction cycle (30_encoding.md R83 lines 6 to 12) faults in its fetch, with PC at the instruction, or runs a
decoded instruction with PC advanced by its shape's length and then counts its cycles. -/
theorem instructionCycle_cases (s : State) :
    (∃ f, instructionCycle s = .next (raiseFault f (some s.pc) s)) ∨
    (∃ (bytes rest : List Byte) (i : Instr),
      memReadN s.pc (lookup (byteAt s s.pc)).length s = .ok bytes ∧ decode bytes = .ok (i, rest) ∧
      instructionCycle s = retire (lookup (byteAt s s.pc)).cycles
        (exec i { s with pc := s.pc + BitVec.ofNat 16 (lookup (byteAt s s.pc)).length })) := by
  unfold instructionCycle
  rw [memRead_eq]
  by_cases ha : addressable s.platform s.pc = true
  · simp only [ha, if_true]
    cases hb : memReadN s.pc (lookup (byteAt s s.pc)).length s with
    | error f => exact .inl ⟨f, rfl⟩
    | ok bytes =>
      dsimp only
      split
      · exact .inl ⟨_, rfl⟩
      · split
        · exact .inl ⟨_, rfl⟩
        · next i rest hd => exact .inr ⟨bytes, rest, i, rfl, hd, rfl⟩
  · simp only [ha, if_false, Bool.false_eq_true]
    exact .inl ⟨_, rfl⟩

/-- Counting the cycles changes CLK alone, and only when the instruction raised no fault. -/
theorem retire_next (n : Nat) (t : State) :
    retire n (.next t) = .next (if t.runState = .running then { t with clk := t.clk + n } else t) := by
  by_cases h : t.runState = .running
  · simp only [retire, if_pos h]; rfl
  · simp only [retire, if_neg h]

/-! ## Taking a sample off changes nothing that an instruction or an entry reads -/

@[simp] theorem flag_withInputs (s : State) (v : List Sample) (f : Flag) : (s.withInputs v).flag f = s.flag f := rfl

@[simp] theorem byteAt_withInputs (s : State) (v : List Sample) (a : Word) : byteAt (s.withInputs v) a = byteAt s a :=
  rfl

@[simp] theorem memRead_withInputs (s : State) (v : List Sample) (a : Word) :
    memRead a (s.withInputs v) = memRead a s := rfl

@[simp] theorem memRead16_withInputs (s : State) (v : List Sample) (a : Word) :
    memRead16 a (s.withInputs v) = memRead16 a s := rfl

theorem memReadUp_withInputs (s : State) (v : List Sample) (n : Nat) (a : Word) :
    memReadUp a (s.withInputs v) n = memReadUp a s n := by
  induction n generalizing a with
  | zero => rfl
  | succ n ih => simp only [memReadUp, ih, memRead_withInputs]

@[simp] theorem memReadN_withInputs (s : State) (v : List Sample) (n : Nat) (a : Word) :
    memReadN a n (s.withInputs v) = memReadN a n s := by
  simp only [memReadN, memReadUp_withInputs]

/-! ## The step -/

/-- A step by its sample (30_encoding.md R83 lines 1 to 6, 70_reset_and_hazards.md R273). -/
theorem step_eq (s : State) :
    step s =
      if s.sample.reset then conclude none (resetSequence (s.withInputs s.inputs.tail))
      else if s.runState = .running then runningStep s.sample (s.withInputs s.inputs.tail)
      else .next (s.withInputs s.inputs.tail) := rfl

/-- A step of a running machine, past the two halts. -/
theorem runningStep_eq (q : Sample) (s : State) :
    runningStep q s =
      if q.stopRequest then .next (s.withRunState (.halted .externalStop))
      else if s.platform.stopBoundary.toNat ≤ s.pc.toNat then .next (s.withRunState (.halted .boundary))
      else if q.nmiEdge || s.nmiPending then
        conclude (some s.pc) (interruptEntry .nmi (s.withNmiPending true))
      else if q.irqLine && !s.flag .i then conclude (some s.pc) (interruptEntry .irq s)
      else instructionCycle s := by
  unfold runningStep
  cases hs : q.stopRequest <;> simp only [Bool.false_eq_true, if_false, if_true]
  · split
    · rfl
    · cases hn : q.nmiEdge <;> cases hp : s.nmiPending <;>
        simp only [hp, Bool.false_eq_true, if_false, if_true, Bool.or_false, Bool.or_true, Bool.or_self,
          State.withNmiPending_nmiPending] <;> (try rfl)
      have : s.withNmiPending true = s := by cases s; simp_all [State.withNmiPending]
      rw [this]

/-- A step of a running machine without a reset input, in terms of the state before it. -/
theorem step_running {s : State} (hr : s.runState = .running) (hs : s.sample.reset = false) :
    step s =
      if s.sample.stopRequest then .next { s with inputs := s.inputs.tail, runState := .halted .externalStop }
      else if s.platform.stopBoundary.toNat ≤ s.pc.toNat then
        .next { s with inputs := s.inputs.tail, runState := .halted .boundary }
      else if s.sample.nmiEdge || s.nmiPending then
        conclude (some s.pc) (interruptEntry .nmi { s with inputs := s.inputs.tail, nmiPending := true })
      else if s.sample.irqLine && !s.flag .i then
        conclude (some s.pc) (interruptEntry .irq { s with inputs := s.inputs.tail })
      else instructionCycle (s.withInputs s.inputs.tail) := by
  rw [step_eq, if_neg (by simp [hs]), if_pos hr, runningStep_eq]
  rfl

/-- Everything a step can do, with its guards: a reset sequence; nothing, when the run has stopped; one of the two halts;
an NMI entry; an IRQ entry; an instruction cycle. The sample is used in each. -/
theorem step_cases {s t : State} (h : step s = .next t) :
    (s.sample.reset = true ∧ conclude none (resetSequence (s.withInputs s.inputs.tail)) = .next t) ∨
    (s.sample.reset = false ∧ s.runState ≠ .running ∧ t = s.withInputs s.inputs.tail) ∨
    (s.sample.reset = false ∧ s.runState = .running ∧ ∃ r,
      ((r = .externalStop ∧ s.sample.stopRequest = true) ∨
        (r = .boundary ∧ s.sample.stopRequest = false ∧ s.platform.stopBoundary.toNat ≤ s.pc.toNat)) ∧
      t = (s.withInputs s.inputs.tail).withRunState (.halted r)) ∨
    (s.sample.reset = false ∧ s.runState = .running ∧ s.sample.stopRequest = false ∧
      s.pc.toNat < s.platform.stopBoundary.toNat ∧
      ((s.interrupted ∧ (s.sample.nmiEdge = true ∨ s.nmiPending = true) ∧
        conclude (some s.pc) (interruptEntry .nmi ((s.withInputs s.inputs.tail).withNmiPending true)) = .next t) ∨
      (s.interrupted ∧ s.nmiPending = false ∧ s.sample.irqLine = true ∧ s.flag .i = false ∧
        conclude (some s.pc) (interruptEntry .irq (s.withInputs s.inputs.tail)) = .next t) ∨
      (¬s.interrupted ∧ instructionCycle (s.withInputs s.inputs.tail) = .next t))) := by
  cases hr : s.sample.reset
  case true => exact .inl ⟨rfl, by rwa [step_eq, if_pos hr] at h⟩
  by_cases hs : s.runState = .running
  case neg =>
    rw [step_eq, if_neg (by simp [hr]), if_neg hs] at h
    exact .inr (.inl ⟨rfl, hs, by simpa [eq_comm] using h⟩)
  refine .inr (.inr ?_)
  rw [step_running hs hr] at h
  cases hq : s.sample.stopRequest
  case true =>
    rw [if_pos hq] at h
    exact .inl ⟨rfl, hs, _, .inl ⟨rfl, rfl⟩, (Host.Outcome.next.inj h).symm⟩
  rw [if_neg (by simp [hq])] at h
  by_cases hb : s.platform.stopBoundary.toNat ≤ s.pc.toNat
  case pos =>
    rw [if_pos hb] at h
    exact .inl ⟨rfl, hs, _, .inr ⟨rfl, rfl, hb⟩, (Host.Outcome.next.inj h).symm⟩
  rw [if_neg hb] at h
  refine .inr ⟨rfl, hs, rfl, by omega, ?_⟩
  by_cases hn : s.sample.nmiEdge = true ∨ s.nmiPending = true
  case pos =>
    rw [if_pos (by simpa using hn)] at h
    exact .inl ⟨hn.elim .inl fun e => .inr (.inl e), hn, h⟩
  rw [if_neg (by simpa using hn)] at h
  simp only [not_or, Bool.not_eq_true] at hn
  by_cases hi : s.sample.irqLine = true ∧ s.flag .i = false
  case pos =>
    rw [if_pos (by simpa using hi)] at h
    exact .inr (.inl ⟨.inr (.inr hi), hn.2, hi.1, hi.2, h⟩)
  rw [if_neg (by simpa using hi)] at h
  exact .inr (.inr ⟨by simp [State.interrupted, hn.1, hn.2]; simpa using hi, h⟩)

end Sys2Proof.Machine
end

