-- ==== Sys2Proof/Laws/Control.lean ====
section
/-! SUPPORT. The states a control or stack instruction, and an interrupt entry, can lead to: said once per instruction,
faults included, so that a frame or an invariant is a short case analysis. -/

namespace Sys2Proof.Machine

/-- A branch writes PC alone. -/
theorem branchIf_cases {cond : Bool} {d : Byte} {s t : State} (h : branchIf cond d s = .next t) :
    ∃ w, t = { s with pc := w } := by
  rw [branchIf_eq] at h
  cases cond
  · exact ⟨s.pc, (Host.Outcome.next.inj h).symm⟩
  · exact ⟨s.pc + sext d, (Host.Outcome.next.inj h).symm⟩

/-- A JMP writes PC alone, or faults. -/
theorem execJmp_cases {o : Operand} {s t : State} (h : execJmp o s = .next t) :
    (∃ a, resolve o s = .ok (.addr a) ∧ t = { s with pc := a }) ∨ (∃ r, t = { s with runState := r }) := by
  rw [execJmp, jumpTo_eq] at h
  cases hi : inputOf Input.isAddress o s with
  | error f => rw [hi] at h; exact .inr ⟨_, (Host.Outcome.next.inj h).symm⟩
  | ok i =>
    obtain ⟨a, rfl⟩ := isAddress_iff.1 (inputOf_ok hi).2
    rw [hi] at h
    exact .inl ⟨a, (inputOf_ok hi).1, (Host.Outcome.next.inj h).symm⟩

/-- A push pushes, or faults before it did anything. -/
theorem push_cases {v : Byte} {s t : State} (h : instruction 1 s (push v s) = .next t) :
    t = { s with mem := Memory.write s.mem (stackAddress s.sp).toNat v, sp := s.sp - 1#8 } ∨
    (∃ r, t = { s with runState := r }) := by
  rw [push_eq] at h
  split at h
  · exact .inl (Host.Outcome.next.inj h).symm
  · exact .inr ⟨_, (Host.Outcome.next.inj h).symm⟩

/-- A JSR pushes two bytes and jumps, or faults in one of its pushes. -/
theorem execJsr_cases {a : Word} {s t : State} (h : execJsr a s = .next t) :
    t = { s with
      mem := Memory.write (Memory.write s.mem (stackAddress s.sp).toNat (highByte (s.pc - 1#16)))
        (stackAddress (s.sp - 1#8)).toNat (lowByte (s.pc - 1#16))
      sp := s.sp - 2#8
      pc := a } ∨
    (∃ r, t = { s with
      mem := Memory.write s.mem (stackAddress s.sp).toNat (highByte (s.pc - 1#16)), sp := s.sp - 1#8, runState := r }) ∨
    (∃ r, t = { s with runState := r }) := by
  have e : execJsr a s = instruction 3 s ((push16 (s.pc - 1#16) s).andThen fun _ s1 => .done () (s1.withPc a)) := rfl
  rw [e, push16_eq] at h
  split at h
  · split at h
    · exact .inl (Host.Outcome.next.inj h).symm
    · exact .inr (.inl ⟨_, (Host.Outcome.next.inj h).symm⟩)
  · exact .inr (.inr ⟨_, (Host.Outcome.next.inj h).symm⟩)

/-- An RTS pulls two bytes and returns, or faults in one of its pulls. -/
theorem execRts_cases {s t : State} (h : execRts s = .next t) :
    t = { s with
      mem := Memory.write (Memory.write s.mem (stackAddress (s.sp + 1#8)).toNat 0#8)
        (stackAddress (s.sp + 2#8)).toNat 0#8
      sp := s.sp + 2#8
      pc := joinBytes (byteAt s (stackAddress (s.sp + 2#8))) (byteAt s (stackAddress (s.sp + 1#8))) + 1#16 } ∨
    (∃ r, t = { s with
      mem := Memory.write s.mem (stackAddress (s.sp + 1#8)).toNat 0#8, sp := s.sp + 2#8, runState := r }) ∨
    (∃ r, t = { s with sp := s.sp + 1#8, runState := r }) := by
  rw [execRts, pull16_eq] at h
  split at h
  · split at h
    · exact .inl (Host.Outcome.next.inj h).symm
    · exact .inr (.inl ⟨_, (Host.Outcome.next.inj h).symm⟩)
  · exact .inr (.inr ⟨_, (Host.Outcome.next.inj h).symm⟩)

/-- A PLA pulls A and writes Z and N, or faults with SP incremented. -/
theorem execPla_cases {s t : State} (h : execPla s = .next t) :
    t = { s with
      mem := Memory.write s.mem (stackAddress (s.sp + 1#8)).toNat 0#8
      sp := s.sp + 1#8
      a := byteAt s (stackAddress (s.sp + 1#8))
      p := zn (byteAt s (stackAddress (s.sp + 1#8))) s.p } ∨
    (∃ r, t = { s with sp := s.sp + 1#8, runState := r }) := by
  rw [execPla, pull_eq] at h
  split at h
  · exact .inl (Host.Outcome.next.inj h).symm
  · exact .inr ⟨_, (Host.Outcome.next.inj h).symm⟩

/-- A PLP pulls P, or faults with SP incremented. -/
theorem execPlp_cases {s t : State} (h : execPlp s = .next t) :
    t = { s with
      mem := Memory.write s.mem (stackAddress (s.sp + 1#8)).toNat 0#8
      sp := s.sp + 1#8
      p := byteAt s (stackAddress (s.sp + 1#8)) } ∨
    (∃ r, t = { s with sp := s.sp + 1#8, runState := r }) := by
  rw [execPlp, pull_eq] at h
  split at h
  · exact .inl (Host.Outcome.next.inj h).symm
  · exact .inr ⟨_, (Host.Outcome.next.inj h).symm⟩

/-- Taking an interrupt pushes three bytes and enters, or faults in one of its pushes. -/
theorem takeInterrupt_cases (k : InterruptKind) (s : State) :
    takeInterrupt k s = .done () (k.enter { s with
      mem := Memory.write (Memory.write (Memory.write s.mem (stackAddress s.sp).toNat (highByte s.pc))
        (stackAddress (s.sp - 1#8)).toNat (lowByte s.pc)) (stackAddress (s.sp - 2#8)).toNat (k.status s.p)
      sp := s.sp - 3#8 }) ∨
    (∃ f, takeInterrupt k s = .raised f { s with
      mem := Memory.write (Memory.write s.mem (stackAddress s.sp).toNat (highByte s.pc))
        (stackAddress (s.sp - 1#8)).toNat (lowByte s.pc)
      sp := s.sp - 2#8 }) ∨
    (∃ f, takeInterrupt k s = .raised f { s with
      mem := Memory.write s.mem (stackAddress s.sp).toNat (highByte s.pc), sp := s.sp - 1#8 }) ∨
    (∃ f, takeInterrupt k s = .raised f s) := by
  rw [takeInterrupt_eq]
  split
  · split
    · split
      · exact .inl rfl
      · exact .inr (.inl ⟨_, rfl⟩)
    · exact .inr (.inr (.inl ⟨_, rfl⟩))
  · exact .inr (.inr (.inr ⟨_, rfl⟩))

/-- An RTI pulls three bytes, P among them, or faults in one of its pulls. -/
theorem execRti_cases {s t : State} (h : execRti s = .next t) :
    t = { s with
      mem := Memory.write (Memory.write (Memory.write s.mem (stackAddress (s.sp + 1#8)).toNat 0#8)
        (stackAddress (s.sp + 2#8)).toNat 0#8) (stackAddress (s.sp + 3#8)).toNat 0#8
      sp := s.sp + 3#8
      p := byteAt s (stackAddress (s.sp + 1#8))
      pc := joinBytes (byteAt s (stackAddress (s.sp + 3#8))) (byteAt s (stackAddress (s.sp + 2#8))) } ∨
    (∃ r, t = { s with
      mem := Memory.write (Memory.write s.mem (stackAddress (s.sp + 1#8)).toNat 0#8)
        (stackAddress (s.sp + 2#8)).toNat 0#8
      sp := s.sp + 3#8
      p := byteAt s (stackAddress (s.sp + 1#8))
      runState := r }) ∨
    (∃ r, t = { s with
      mem := Memory.write s.mem (stackAddress (s.sp + 1#8)).toNat 0#8
      sp := s.sp + 2#8
      p := byteAt s (stackAddress (s.sp + 1#8))
      runState := r }) ∨
    (∃ r, t = { s with sp := s.sp + 1#8, runState := r }) := by
  rw [execRti, returnFromInterrupt_eq] at h
  split at h
  · split at h
    · split at h
      · exact .inl (Host.Outcome.next.inj h).symm
      · exact .inr (.inl ⟨_, (Host.Outcome.next.inj h).symm⟩)
    · exact .inr (.inr (.inl ⟨_, (Host.Outcome.next.inj h).symm⟩))
  · exact .inr (.inr (.inr ⟨_, (Host.Outcome.next.inj h).symm⟩))

/-- A BRK enters the handler, or faults in one of its pushes. -/
theorem execBrk_cases {s t : State} (h : execBrk s = .next t) :
    t = { s with
      mem := Memory.write (Memory.write (Memory.write s.mem (stackAddress s.sp).toNat (highByte s.pc))
        (stackAddress (s.sp - 1#8)).toNat (lowByte s.pc)) (stackAddress (s.sp - 2#8)).toNat (softwareStatus s.p)
      sp := s.sp - 3#8
      p := setFlag .i true (setFlag .b4 true (setFlag .b5 true s.p))
      pc := s.irqVec } ∨
    (∃ r, t = { s with
      mem := Memory.write (Memory.write s.mem (stackAddress s.sp).toNat (highByte s.pc))
        (stackAddress (s.sp - 1#8)).toNat (lowByte s.pc)
      sp := s.sp - 2#8
      runState := r }) ∨
    (∃ r, t = { s with
      mem := Memory.write s.mem (stackAddress s.sp).toNat (highByte s.pc), sp := s.sp - 1#8, runState := r }) ∨
    (∃ r, t = { s with runState := r }) := by
  rcases takeInterrupt_cases .brk s with e | ⟨f, e⟩ | ⟨f, e⟩ | ⟨f, e⟩ <;> rw [execBrk, e] at h
  · exact .inl (Host.Outcome.next.inj h).symm
  · exact .inr (.inl ⟨_, (Host.Outcome.next.inj h).symm⟩)
  · exact .inr (.inr (.inl ⟨_, (Host.Outcome.next.inj h).symm⟩))
  · exact .inr (.inr (.inr ⟨_, (Host.Outcome.next.inj h).symm⟩))

end Sys2Proof.Machine
end

