-- ==== Sys2Proof/Laws/Encoding.lean ====
section
/-! SUPPORT. Facts of the two transcriptions of the opcode matrix (the table of 30_encoding.md R106 in `lookup`, the
rules' operand lists in `opcodeOf`, and the modes of WellFormed.lean), found by running over all 256 bytes or all
pairs; and what decoding does with operand bytes. -/

namespace Sys2Proof

/-- A pair found by `List.lookup` is in the list. -/
theorem mem_of_lookup {m : Mode} {b : Byte} : ∀ {l : List (Mode × Byte)}, l.lookup m = some b → (m, b) ∈ l
  | [], h => by simp at h
  | (k, v) :: rest, h => by
    by_cases hk : m = k
    · subst hk
      have : v = b := by simpa using h
      simp [this]
    · have hk' : (m == k) = false := by simpa using hk
      rw [List.lookup, hk'] at h
      exact List.mem_cons_of_mem _ (mem_of_lookup h)

/-- A key of the list is found by `List.lookup`, and only a key. -/
theorem lookup_isSome (m : Mode) : ∀ l : List (Mode × Byte), (l.lookup m).isSome = (l.map Prod.fst).contains m
  | [] => rfl
  | (k, v) :: rest => by
    cases h : m == k <;> simp only [List.lookup, h, lookup_isSome m rest, List.map_cons, List.contains_cons] <;> rfl

/-- The table gives every opcode of the rules' operand lists its operation, its mode and the mode's length. -/
theorem lookup_opcodes (op : Operation) :
    (op.opcodes.all fun e =>
      (lookup e.2).operation == op && (lookup e.2).mode == e.1 && (lookup e.2).length == e.1.length) = true := by
  cases op <;> decide +kernel

theorem lookup_opcodeOf {op : Operation} {m : Mode} {b : Byte} (h : opcodeOf op m = some b) :
    (lookup b).operation = op ∧ (lookup b).mode = m ∧ (lookup b).length = m.length := by
  have := List.all_eq_true.1 (lookup_opcodes op) (m, b) (mem_of_lookup h)
  simpa [and_assoc] using this

/-- The modes WellFormed.lean admits are those of the rules' operand lists, but for the undefined opcodes. -/
theorem modes_eq_opcodes {op : Operation} (h : op ≠ .unsupported) : op.modes = op.opcodes.map Prod.fst := by
  cases op <;> first | rfl | exact absurd rfl h

theorem modes_iff_opcodeOf {op : Operation} (m : Mode) (h : op ≠ .unsupported) :
    op.modes.contains m = (opcodeOf op m).isSome := by
  rw [opcodeOf, lookup_isSome, modes_eq_opcodes h]

/-- All bytes, for checks over the table. -/
def allBytes : List Byte := (List.range 256).map (BitVec.ofNat 8)

theorem mem_allBytes (b : Byte) : b ∈ allBytes := by
  refine List.mem_map.2 ⟨b.toNat, List.mem_range.2 b.isLt, ?_⟩
  simp

/-- Each byte has the unsupported shape, or is the opcode of its shape in the rules' operand lists. -/
theorem lookup_total_all :
    (allBytes.all fun b =>
      lookup b == unsupportedShape ||
        (opcodeOf (lookup b).operation (lookup b).mode == some b && (lookup b).length == (lookup b).mode.length)) =
      true := by decide +kernel

/-- The bytes that R107 lists as undefined are those the table has no row for. -/
theorem undefinedBytes_eq_all :
    allBytes.filter (fun b => (lookup b).operation == .unsupported) = undefinedBytes := by decide +kernel

theorem mem_undefinedBytes (b : Byte) : undefinedBytes.contains b = ((lookup b).operation == .unsupported) := by
  rw [← undefinedBytes_eq_all, Bool.eq_iff_iff]
  simp [mem_allBytes]

theorem lookup_unsupported {b : Byte} (h : (lookup b).operation = .unsupported) : lookup b = unsupportedShape := by
  have := List.all_eq_true.1 lookup_total_all b (mem_allBytes b)
  simp only [Bool.or_eq_true, Bool.and_eq_true, beq_iff_eq] at this
  rcases this with h' | ⟨h', _⟩
  · exact h'
  · rw [h] at h'
    simp [opcodeOf, Operation.opcodes] at h'

theorem lookup_undefined {b : Byte} (h : undefinedBytes.contains b = true) : lookup b = unsupportedShape :=
  lookup_unsupported (by rw [mem_undefinedBytes] at h; simpa using h)

theorem lookup_defined {b : Byte} (h : undefinedBytes.contains b = false) :
    opcodeOf (lookup b).operation (lookup b).mode = some b ∧ (lookup b).operation ≠ .unsupported ∧
      (lookup b).operation.modes.contains (lookup b).mode = true ∧ (lookup b).length = (lookup b).mode.length := by
  have hop : (lookup b).operation ≠ .unsupported := by
    rw [mem_undefinedBytes] at h
    simpa using h
  have := List.all_eq_true.1 lookup_total_all b (mem_allBytes b)
  simp only [Bool.or_eq_true, Bool.and_eq_true, beq_iff_eq] at this
  rcases this with h' | ⟨h1, h2⟩
  · rw [h'] at hop
    exact absurd rfl hop
  · refine ⟨h1, hop, ?_, h2⟩
    rw [modes_iff_opcodeOf _ hop, h1]
    rfl

/-- The length of a shape is its mode's length (30_encoding.md R85). -/
theorem lookup_length (b : Byte) : (lookup b).length = (lookup b).mode.length := by
  cases h : undefinedBytes.contains b
  · exact (lookup_defined h).2.2.2
  · rw [lookup_undefined h]; rfl

/-! ## Operand bytes -/

/-- The operand bytes of an operand decode to it, whatever follows. -/
theorem decodeOperand_bytes (o : Operand) (rest : List Byte) :
    decodeOperand o.mode (o.bytes ++ rest) = .ok (o, rest) := by
  cases o <;> simp [Operand.mode, Operand.bytes, decodeOperand, Machine.joinBytes_high_low]

/-- An operand has one byte fewer than its instruction. -/
theorem operand_bytes_length (o : Operand) : o.bytes.length + 1 = o.length := by
  cases o <;> rfl

theorem lowByte_joinBytes (high low : Byte) : lowByte (joinBytes high low) = low := by
  apply BitVec.eq_of_toNat_eq
  rw [Machine.lowByte_eq, Machine.joinBytes_toNat]
  have := low.isLt
  simp only [BitVec.toNat_ofNat]
  omega

theorem highByte_joinBytes (high low : Byte) : highByte (joinBytes high low) = high := by
  apply BitVec.eq_of_toNat_eq
  rw [Machine.highByte_eq, Machine.joinBytes_toNat]
  have := low.isLt
  have := high.isLt
  simp only [BitVec.toNat_ofNat]
  omega

/-- What an operand is decoded from is its bytes, and its mode is the one asked for. -/
theorem decodeOperand_ok {m : Mode} {bs rest : List Byte} {o : Operand} (h : decodeOperand m bs = .ok (o, rest)) :
    o.mode = m ∧ o.bytes ++ rest = bs := by
  unfold decodeOperand at h
  split at h <;> simp at h <;> obtain ⟨rfl, rfl⟩ := h <;>
    simp [Operand.mode, Operand.bytes, lowByte_joinBytes, highByte_joinBytes]

/-- The bytes of a mode's length decode. -/
theorem decodeOperand_total (m : Mode) (bs : List Byte) (h : m.length ≤ bs.length + 1) :
    ∃ o, decodeOperand m bs = .ok (o, bs.drop (m.length - 1)) := by
  cases m <;> match bs, h with
    | [], h => first | exact ⟨_, rfl⟩ | simp [Mode.length] at h
    | [_], h => first | exact ⟨_, rfl⟩ | simp [Mode.length] at h
    | _ :: _ :: _, _ => exact ⟨_, rfl⟩

/-! ## Assembling an instruction -/

/-- An assembled instruction has the operation and the operand it is assembled from. -/
theorem assemble_ok {b : Byte} {o : Operand} {op : Operation} {i : Instr} (h : assemble b o op = .ok i) :
    i.operation = op ∧ i.operand = o ∧ (∀ c, i = .unsupported c → c = b) := by
  cases op <;> simp only [assemble, withImplied, withRelative, withAbsolute] at h <;> (try split at h) <;>
    simp at h <;> subst h <;> simp [Instr.operation, Instr.operand]

/-- An instruction is assembled from its own operation and operand. -/
theorem assemble_self (b : Byte) (i : Instr) (h : ∀ c, i = .unsupported c → c = b) :
    assemble b i.operand i.operation = .ok i := by
  cases i <;> first
    | rfl
    | (simp only [Instr.operand, Instr.operation, assemble, withImplied]; rw [h _ rfl])

end Sys2Proof
end

