-- ==== Sys2Proof/Laws/PerInstr.lean ====
section
/-! SUPPORT. Facts about every instruction as syntax, one lemma per constructor: the encoding of a well-formed
instruction has the instruction's length (30_encoding.md R80, R87). -/

namespace Sys2Proof.Laws

/-- The encoding has the length of the mode. -/
def EncodedLength.Statement (i : Instr) : Prop := i.wf = true → (encode i).length = i.length

/-- The one reason: a pair in the table has an opcode, and an operand its bytes. -/
theorem encodedLength_of (i : Instr) (h : i.wf = true → i.opcode.isSome = true) : EncodedLength.Statement i := by
  intro hi
  obtain ⟨b, hb⟩ := Option.isSome_iff_exists.1 (h hi)
  simp only [encode, hb, List.length_cons]
  exact operand_bytes_length i.operand

/-- An instruction of a defined operation that is well-formed has an opcode. -/
theorem opcode_of_wf {i : Instr} (hop : i.operation ≠ .unsupported)
    (hopc : i.opcode = opcodeOf i.operation i.operand.mode) (hi : i.wf = true) : i.opcode.isSome = true := by
  rw [hopc, ← modes_iff_opcodeOf _ hop]
  simp only [Instr.wf, Instr.modeAdmitted, Bool.and_eq_true] at hi
  exact hi.1

theorem EncodedLength.lda (o : Operand) : EncodedLength.Statement (.lda o) :=
  encodedLength_of _ (opcode_of_wf (by simp [Instr.operation]) rfl)

theorem EncodedLength.ldx (o : Operand) : EncodedLength.Statement (.ldx o) :=
  encodedLength_of _ (opcode_of_wf (by simp [Instr.operation]) rfl)

theorem EncodedLength.ldy (o : Operand) : EncodedLength.Statement (.ldy o) :=
  encodedLength_of _ (opcode_of_wf (by simp [Instr.operation]) rfl)

theorem EncodedLength.sta (o : Operand) : EncodedLength.Statement (.sta o) :=
  encodedLength_of _ (opcode_of_wf (by simp [Instr.operation]) rfl)

theorem EncodedLength.stx (o : Operand) : EncodedLength.Statement (.stx o) :=
  encodedLength_of _ (opcode_of_wf (by simp [Instr.operation]) rfl)

theorem EncodedLength.sty (o : Operand) : EncodedLength.Statement (.sty o) :=
  encodedLength_of _ (opcode_of_wf (by simp [Instr.operation]) rfl)

theorem EncodedLength.adc (o : Operand) : EncodedLength.Statement (.adc o) :=
  encodedLength_of _ (opcode_of_wf (by simp [Instr.operation]) rfl)

theorem EncodedLength.sbc (o : Operand) : EncodedLength.Statement (.sbc o) :=
  encodedLength_of _ (opcode_of_wf (by simp [Instr.operation]) rfl)

theorem EncodedLength.cmp (o : Operand) : EncodedLength.Statement (.cmp o) :=
  encodedLength_of _ (opcode_of_wf (by simp [Instr.operation]) rfl)

theorem EncodedLength.cpx (o : Operand) : EncodedLength.Statement (.cpx o) :=
  encodedLength_of _ (opcode_of_wf (by simp [Instr.operation]) rfl)

theorem EncodedLength.cpy (o : Operand) : EncodedLength.Statement (.cpy o) :=
  encodedLength_of _ (opcode_of_wf (by simp [Instr.operation]) rfl)

theorem EncodedLength.and (o : Operand) : EncodedLength.Statement (.and o) :=
  encodedLength_of _ (opcode_of_wf (by simp [Instr.operation]) rfl)

theorem EncodedLength.ora (o : Operand) : EncodedLength.Statement (.ora o) :=
  encodedLength_of _ (opcode_of_wf (by simp [Instr.operation]) rfl)

theorem EncodedLength.eor (o : Operand) : EncodedLength.Statement (.eor o) :=
  encodedLength_of _ (opcode_of_wf (by simp [Instr.operation]) rfl)

theorem EncodedLength.bit (o : Operand) : EncodedLength.Statement (.bit o) :=
  encodedLength_of _ (opcode_of_wf (by simp [Instr.operation]) rfl)

theorem EncodedLength.asl (o : Operand) : EncodedLength.Statement (.asl o) :=
  encodedLength_of _ (opcode_of_wf (by simp [Instr.operation]) rfl)

theorem EncodedLength.lsr (o : Operand) : EncodedLength.Statement (.lsr o) :=
  encodedLength_of _ (opcode_of_wf (by simp [Instr.operation]) rfl)

theorem EncodedLength.rol (o : Operand) : EncodedLength.Statement (.rol o) :=
  encodedLength_of _ (opcode_of_wf (by simp [Instr.operation]) rfl)

theorem EncodedLength.ror (o : Operand) : EncodedLength.Statement (.ror o) :=
  encodedLength_of _ (opcode_of_wf (by simp [Instr.operation]) rfl)

theorem EncodedLength.clc : EncodedLength.Statement .clc :=
  encodedLength_of _ (opcode_of_wf (by simp [Instr.operation]) rfl)

theorem EncodedLength.cld : EncodedLength.Statement .cld :=
  encodedLength_of _ (opcode_of_wf (by simp [Instr.operation]) rfl)

theorem EncodedLength.cli : EncodedLength.Statement .cli :=
  encodedLength_of _ (opcode_of_wf (by simp [Instr.operation]) rfl)

theorem EncodedLength.clv : EncodedLength.Statement .clv :=
  encodedLength_of _ (opcode_of_wf (by simp [Instr.operation]) rfl)

theorem EncodedLength.sec : EncodedLength.Statement .sec :=
  encodedLength_of _ (opcode_of_wf (by simp [Instr.operation]) rfl)

theorem EncodedLength.sed : EncodedLength.Statement .sed :=
  encodedLength_of _ (opcode_of_wf (by simp [Instr.operation]) rfl)

theorem EncodedLength.sei : EncodedLength.Statement .sei :=
  encodedLength_of _ (opcode_of_wf (by simp [Instr.operation]) rfl)

theorem EncodedLength.tax : EncodedLength.Statement .tax :=
  encodedLength_of _ (opcode_of_wf (by simp [Instr.operation]) rfl)

theorem EncodedLength.tay : EncodedLength.Statement .tay :=
  encodedLength_of _ (opcode_of_wf (by simp [Instr.operation]) rfl)

theorem EncodedLength.txa : EncodedLength.Statement .txa :=
  encodedLength_of _ (opcode_of_wf (by simp [Instr.operation]) rfl)

theorem EncodedLength.tya : EncodedLength.Statement .tya :=
  encodedLength_of _ (opcode_of_wf (by simp [Instr.operation]) rfl)

theorem EncodedLength.tsx : EncodedLength.Statement .tsx :=
  encodedLength_of _ (opcode_of_wf (by simp [Instr.operation]) rfl)

theorem EncodedLength.txs : EncodedLength.Statement .txs :=
  encodedLength_of _ (opcode_of_wf (by simp [Instr.operation]) rfl)

theorem EncodedLength.inx : EncodedLength.Statement .inx :=
  encodedLength_of _ (opcode_of_wf (by simp [Instr.operation]) rfl)

theorem EncodedLength.iny : EncodedLength.Statement .iny :=
  encodedLength_of _ (opcode_of_wf (by simp [Instr.operation]) rfl)

theorem EncodedLength.dex : EncodedLength.Statement .dex :=
  encodedLength_of _ (opcode_of_wf (by simp [Instr.operation]) rfl)

theorem EncodedLength.dey : EncodedLength.Statement .dey :=
  encodedLength_of _ (opcode_of_wf (by simp [Instr.operation]) rfl)

theorem EncodedLength.inc (o : Operand) : EncodedLength.Statement (.inc o) :=
  encodedLength_of _ (opcode_of_wf (by simp [Instr.operation]) rfl)

theorem EncodedLength.dec (o : Operand) : EncodedLength.Statement (.dec o) :=
  encodedLength_of _ (opcode_of_wf (by simp [Instr.operation]) rfl)

theorem EncodedLength.nop : EncodedLength.Statement .nop :=
  encodedLength_of _ (opcode_of_wf (by simp [Instr.operation]) rfl)

theorem EncodedLength.bcc (d : Byte) : EncodedLength.Statement (.bcc d) :=
  encodedLength_of _ (opcode_of_wf (by simp [Instr.operation]) rfl)

theorem EncodedLength.bcs (d : Byte) : EncodedLength.Statement (.bcs d) :=
  encodedLength_of _ (opcode_of_wf (by simp [Instr.operation]) rfl)

theorem EncodedLength.beq (d : Byte) : EncodedLength.Statement (.beq d) :=
  encodedLength_of _ (opcode_of_wf (by simp [Instr.operation]) rfl)

theorem EncodedLength.bne (d : Byte) : EncodedLength.Statement (.bne d) :=
  encodedLength_of _ (opcode_of_wf (by simp [Instr.operation]) rfl)

theorem EncodedLength.bmi (d : Byte) : EncodedLength.Statement (.bmi d) :=
  encodedLength_of _ (opcode_of_wf (by simp [Instr.operation]) rfl)

theorem EncodedLength.bpl (d : Byte) : EncodedLength.Statement (.bpl d) :=
  encodedLength_of _ (opcode_of_wf (by simp [Instr.operation]) rfl)

theorem EncodedLength.bvc (d : Byte) : EncodedLength.Statement (.bvc d) :=
  encodedLength_of _ (opcode_of_wf (by simp [Instr.operation]) rfl)

theorem EncodedLength.bvs (d : Byte) : EncodedLength.Statement (.bvs d) :=
  encodedLength_of _ (opcode_of_wf (by simp [Instr.operation]) rfl)

theorem EncodedLength.jmp (o : Operand) : EncodedLength.Statement (.jmp o) :=
  encodedLength_of _ (opcode_of_wf (by simp [Instr.operation]) rfl)

theorem EncodedLength.jsr (a : Word) : EncodedLength.Statement (.jsr a) :=
  encodedLength_of _ (opcode_of_wf (by simp [Instr.operation]) rfl)

theorem EncodedLength.rts : EncodedLength.Statement .rts :=
  encodedLength_of _ (opcode_of_wf (by simp [Instr.operation]) rfl)

theorem EncodedLength.pha : EncodedLength.Statement .pha :=
  encodedLength_of _ (opcode_of_wf (by simp [Instr.operation]) rfl)

theorem EncodedLength.php : EncodedLength.Statement .php :=
  encodedLength_of _ (opcode_of_wf (by simp [Instr.operation]) rfl)

theorem EncodedLength.pla : EncodedLength.Statement .pla :=
  encodedLength_of _ (opcode_of_wf (by simp [Instr.operation]) rfl)

theorem EncodedLength.plp : EncodedLength.Statement .plp :=
  encodedLength_of _ (opcode_of_wf (by simp [Instr.operation]) rfl)

theorem EncodedLength.brk : EncodedLength.Statement .brk :=
  encodedLength_of _ (opcode_of_wf (by simp [Instr.operation]) rfl)

theorem EncodedLength.rti : EncodedLength.Statement .rti :=
  encodedLength_of _ (opcode_of_wf (by simp [Instr.operation]) rfl)

theorem EncodedLength.unsupported (b : Byte) : EncodedLength.Statement (.unsupported b) :=
  encodedLength_of _ fun _ => rfl

end Sys2Proof.Laws
end

