-- ==== Sys2Proof/Tests/Slice0.lean ====
section
/-! SUPPORT. The model's own tests: ill-formed instructions that WellFormed refuses, words written out from the
encodings of opcode_table.json, single steps with the end states of 95_test_vectors.md, and for each statement with
hypotheses a state and operands that meet them. -/

namespace Sys2Proof.Machine

/-! ## Well-formedness: an ill-formed term for each check -/

/-- STA has no Immediate row (R113). -/
theorem test_wf_refuses_mode : (Instr.sta (.immediate 0x12)).modeAdmitted = false := by decide

/-- LDX has no (Indirect),Y row (R111). -/
theorem test_wf_refuses_mode_ldx : (Instr.ldx (.indirectY 0x12)).wf = false := by decide

/-- 0xA9 is LDA's, not an undefined opcode (R107). -/
theorem test_wf_refuses_defined_opcode : (Instr.unsupported 0xA9).opcodeUndefined = false := by decide

theorem test_wf_admits :
    (Instr.sta (.indirectX 0x12)).wf = true ∧ (Instr.unsupported 0x02).wf = true ∧ Instr.brk.wf = true := by decide

/-- A truncated instruction is refused by name (R88). -/
theorem test_decode_truncated :
    decode [] = .error .noBytes ∧ decode [0xAD, 0x34] = .error .truncated ∧ decode [0xA9] = .error .truncated :=
  ⟨rfl, rfl, rfl⟩

/-- The encoder, on a word written out from the table. -/
theorem test_encode : encode (.lda (.absoluteX 0x1234)) = [0xBD, 0x34, 0x12] ∧ encode (.bmi 0xFB) = [0x30, 0xFB] := by
  decide

/-! ## Helpers -/

/-- The start state of the vectors: the vectors of the launch image are 0xA000, 0x8000 and 0x9000. -/
def base : State :=
  { State.reset with
    pc := 0x8000, nmiVec := 0xA000, resetVec := 0x8000, irqVec := 0x9000
    mem := [(0xFFFB, 0xA0), (0xFFFD, 0x80), (0xFFFF, 0x90)] }

/-- A state with bytes placed at addresses. -/
def place (s : State) (placed : List (Nat × List Byte)) : State :=
  s.withMem (placed.foldl (fun m c => placeBytes m c.1 c.2) s.mem)

/-- The state after one step from a state with bytes placed. -/
def after (s : State) (placed : List (Nat × List Byte)) : State :=
  match step (place s placed) with
  | .next t => t
  | _ => s

/-- The start state with one range of addresses that is not addressable. -/
def hole (first last : Word) : State := { base with platform := ⟨0xFFFA, [⟨first, last⟩]⟩ }

/-! ## Words written out from the encodings -/

theorem test_decode_loads_and_stores :
    decodeTableWord 16 0x34B1 = some (.lda (.indirectY 0x34)) ∧
    decodeTableWord 24 0x1234BD = some (.lda (.absoluteX 0x1234)) ∧
    decodeTableWord 16 0x34B6 = some (.ldx (.zeroPageY 0x34)) ∧
    decodeTableWord 16 0x34B4 = some (.ldy (.zeroPageX 0x34)) ∧
    decodeTableWord 16 0x3481 = some (.sta (.indirectX 0x34)) ∧
    decodeTableWord 24 0x12348E = some (.stx (.absolute 0x1234)) ∧
    decodeTableWord 16 0x3484 = some (.sty (.zeroPage 0x34)) := by decide

theorem test_decode_arithmetic :
    decodeTableWord 16 0x3469 = some (.adc (.immediate 0x34)) ∧
    decodeTableWord 24 0x1234F9 = some (.sbc (.absoluteY 0x1234)) ∧
    decodeTableWord 16 0x34D5 = some (.cmp (.zeroPageX 0x34)) ∧
    decodeTableWord 16 0x34E0 = some (.cpx (.immediate 0x34)) ∧
    decodeTableWord 24 0x1234CC = some (.cpy (.absolute 0x1234)) := by decide

theorem test_decode_logic_and_shifts :
    decodeTableWord 16 0x3421 = some (.and (.indirectX 0x34)) ∧
    decodeTableWord 16 0x3411 = some (.ora (.indirectY 0x34)) ∧
    decodeTableWord 24 0x12345D = some (.eor (.absoluteX 0x1234)) ∧
    decodeTableWord 16 0x3424 = some (.bit (.zeroPage 0x34)) ∧
    decodeTableWord 8 0x0A = some (.asl .accumulator) ∧
    decodeTableWord 16 0x3456 = some (.lsr (.zeroPageX 0x34)) ∧
    decodeTableWord 24 0x12342E = some (.rol (.absolute 0x1234)) ∧
    decodeTableWord 24 0x12347E = some (.ror (.absoluteX 0x1234)) := by decide

theorem test_decode_flags :
    decodeTableWord 8 0x18 = some .clc ∧
    decodeTableWord 8 0xD8 = some .cld ∧
    decodeTableWord 8 0x58 = some .cli ∧
    decodeTableWord 8 0xB8 = some .clv ∧
    decodeTableWord 8 0x38 = some .sec ∧
    decodeTableWord 8 0xF8 = some .sed ∧
    decodeTableWord 8 0x78 = some .sei := by decide

theorem test_decode_transfers :
    decodeTableWord 8 0xAA = some .tax ∧
    decodeTableWord 8 0xA8 = some .tay ∧
    decodeTableWord 8 0x8A = some .txa ∧
    decodeTableWord 8 0x98 = some .tya ∧
    decodeTableWord 8 0xBA = some .tsx ∧
    decodeTableWord 8 0x9A = some .txs := by decide

theorem test_decode_counts :
    decodeTableWord 8 0xE8 = some .inx ∧
    decodeTableWord 8 0xC8 = some .iny ∧
    decodeTableWord 8 0xCA = some .dex ∧
    decodeTableWord 8 0x88 = some .dey ∧
    decodeTableWord 16 0x34E6 = some (.inc (.zeroPage 0x34)) ∧
    decodeTableWord 24 0x1234DE = some (.dec (.absoluteX 0x1234)) ∧
    decodeTableWord 8 0xEA = some .nop := by decide

theorem test_decode_branches :
    decodeTableWord 16 0x3490 = some (.bcc 0x34) ∧
    decodeTableWord 16 0x34B0 = some (.bcs 0x34) ∧
    decodeTableWord 16 0x34F0 = some (.beq 0x34) ∧
    decodeTableWord 16 0x34D0 = some (.bne 0x34) ∧
    decodeTableWord 16 0x3430 = some (.bmi 0x34) ∧
    decodeTableWord 16 0x3410 = some (.bpl 0x34) ∧
    decodeTableWord 16 0x3450 = some (.bvc 0x34) ∧
    decodeTableWord 16 0x3470 = some (.bvs 0x34) := by decide

theorem test_decode_jumps_and_stack :
    decodeTableWord 24 0x12344C = some (.jmp (.absolute 0x1234)) ∧
    decodeTableWord 24 0x12346C = some (.jmp (.indirect 0x1234)) ∧
    decodeTableWord 24 0x123420 = some (.jsr 0x1234) ∧
    decodeTableWord 8 0x60 = some .rts ∧
    decodeTableWord 8 0x48 = some .pha ∧
    decodeTableWord 8 0x08 = some .php ∧
    decodeTableWord 8 0x68 = some .pla ∧
    decodeTableWord 8 0x28 = some .plp ∧
    decodeTableWord 8 0x00 = some .brk ∧
    decodeTableWord 8 0x40 = some .rti := by decide

theorem test_decode_undefined :
    decodeTableWord 8 0x02 = some (.unsupported 0x02) ∧
    decodeTableWord 8 0xFF = some (.unsupported 0xFF) := by decide

/-! ## One step, with the end state of a vector of 95_test_vectors.md -/

/-- Vector LS11. -/
theorem test_ls11_lda_ff_y :
    let t := after { base with y := 0x10 } [(0x8000, [0xB1, 0xFF]), (0x0000, [0x99]), (0x00FF, [0xF8]), (0x0100,
      [0x12]), (0x1308, [0x5D]), (0x9A08, [0x5E])]
    t.a = 0x5D ∧ t.pc = 0x8002 ∧ t.clk = 5 := by decide

/-- Vector LS6. -/
theorem test_ls6_lda_12ff_x :
    let t := after { base with x := 0x01 } [(0x8000, [0xBD, 0xFF, 0x12]), (0x1200, [0x77]), (0x1300, [0x66])]
    t.a = 0x66 ∧ t.pc = 0x8003 ∧ t.clk = 4 := by decide

/-- Vector LS5. -/
theorem test_ls5_ldx_10_y :
    let t := after { base with y := 0xF5 } [(0x8000, [0xB6, 0x10]), (0x0005, [0x33]), (0x0105, [0x44])]
    t.x = 0x33 ∧ t.pc = 0x8002 ∧ t.clk = 4 := by decide

/-- Vector LS13. -/
theorem test_ls13_ldy_0300_x :
    let t := after { base with x := 0x05 } [(0x8000, [0xBC, 0x00, 0x03]), (0x0305, [0x00])]
    t.y = 0x00 ∧ t.p = 0x02 ∧ t.pc = 0x8003 ∧ t.clk = 4 := by decide

/-- Vector LS20. -/
theorem test_ls20_sta_40_x :
    let t := after { base with a := 0xEE, x := 0xC0 } [(0x8000, [0x81, 0x40]), (0x0000, [0x00]), (0x0001, [0x04])]
    t.pc = 0x8002 ∧ t.clk = 6 ∧ byteAt t 0x0400 = 0xEE := by decide

/-- Vector LS17. -/
theorem test_ls17_stx_f0_y :
    let t := after { base with x := 0x77, y := 0x20 } [(0x8000, [0x96, 0xF0])]
    t.pc = 0x8002 ∧ t.clk = 4 ∧ byteAt t 0x0010 = 0x77 := by decide

/-- Vector LS18. -/
theorem test_ls18_sty_0300 :
    let t := after { base with y := 0x09 } [(0x8000, [0x8C, 0x00, 0x03])]
    t.pc = 0x8003 ∧ t.clk = 4 ∧ byteAt t 0x0300 = 0x09 := by decide

/-- Vector AR8. -/
theorem test_ar8_adc_10 :
    let t := after { base with a := 0x7F, p := 0x01 } [(0x8000, [0x65, 0x10]), (0x0010, [0x7F])]
    t.a = 0xFF ∧ t.p = 0xC0 ∧ t.pc = 0x8002 ∧ t.clk = 3 := by decide

/-- Vector AR2. -/
theorem test_ar2_adc_01 :
    let t := after { base with a := 0x7F } [(0x8000, [0x69, 0x01])]
    t.a = 0x80 ∧ t.p = 0xC0 ∧ t.pc = 0x8002 ∧ t.clk = 2 := by decide

/-- Vector AR15. -/
theorem test_ar15_sbc_0300_x :
    let t := after { base with a := 0x7F, x := 0x01, p := 0x01 } [(0x8000, [0xFD, 0x00, 0x03]), (0x0301, [0xFF])]
    t.a = 0x80 ∧ t.p = 0xC0 ∧ t.pc = 0x8003 ∧ t.clk = 4 := by decide

/-- Vector AR12. -/
theorem test_ar12_sbc_01 :
    let t := after { base with a := 0x80, p := 0x01 } [(0x8000, [0xE9, 0x01])]
    t.a = 0x7F ∧ t.p = 0x41 ∧ t.pc = 0x8002 ∧ t.clk = 2 := by decide

/-- Vector AR16. -/
theorem test_ar16_cmp_20 :
    let t := after { base with a := 0x10, p := 0x40 } [(0x8000, [0xC9, 0x20])]
    t.p = 0xC0 ∧ t.pc = 0x8002 ∧ t.clk = 2 := by decide

/-- Vector AR18. -/
theorem test_ar18_cmp_01 :
    let t := after { base with a := 0x80 } [(0x8000, [0xC9, 0x01])]
    t.p = 0x01 ∧ t.pc = 0x8002 ∧ t.clk = 2 := by decide

/-- Vector AR20. -/
theorem test_ar20_cpx_05 :
    let t := after { base with x := 0x05 } [(0x8000, [0xE0, 0x05])]
    t.p = 0x03 ∧ t.pc = 0x8002 ∧ t.clk = 2 := by decide

/-- Vector AR22. -/
theorem test_ar22_cpy_00 :
    let t := after { base with y := 0xFF } [(0x8000, [0xC0, 0x00])]
    t.p = 0x81 ∧ t.pc = 0x8002 ∧ t.clk = 2 := by decide

/-- Vector LG2. -/
theorem test_lg2_and_00 :
    let t := after { base with a := 0xFF, p := 0xC1 } [(0x8000, [0x29, 0x00])]
    t.a = 0x00 ∧ t.p = 0x43 ∧ t.pc = 0x8002 ∧ t.clk = 2 := by decide

/-- Vector LG3. -/
theorem test_lg3_ora_80 :
    let t := after { base with a := 0x0F } [(0x8000, [0x09, 0x80])]
    t.a = 0x8F ∧ t.p = 0x80 ∧ t.pc = 0x8002 ∧ t.clk = 2 := by decide

/-- Vector LG6. -/
theorem test_lg6_eor_0300 :
    let t := after { base with a := 0x5A } [(0x8000, [0x4D, 0x00, 0x03]), (0x0300, [0x5A])]
    t.a = 0x00 ∧ t.p = 0x02 ∧ t.pc = 0x8003 ∧ t.clk = 4 := by decide

/-- Vector LG7. -/
theorem test_lg7_bit_10 :
    let t := after { base with a := 0x01 } [(0x8000, [0x24, 0x10]), (0x0010, [0xC0])]
    t.p = 0xC2 ∧ t.pc = 0x8002 ∧ t.clk = 3 := by decide

/-- Vector LG11. -/
theorem test_lg11_asl_10_x :
    let t := after { base with x := 0xF8 } [(0x8000, [0x16, 0x10]), (0x0008, [0x40])]
    t.p = 0x80 ∧ t.pc = 0x8002 ∧ t.clk = 6 ∧ byteAt t 0x0008 = 0x80 := by decide

/-- Vector LG13. -/
theorem test_lg13_lsr_0300 :
    let t := after base [(0x8000, [0x4E, 0x00, 0x03]), (0x0300, [0x01])]
    t.p = 0x03 ∧ t.pc = 0x8003 ∧ t.clk = 6 ∧ byteAt t 0x0300 = 0x00 := by decide

/-- Vector LG15. -/
theorem test_lg15_rol_10 :
    let t := after base [(0x8000, [0x26, 0x10]), (0x0010, [0x80])]
    t.p = 0x03 ∧ t.pc = 0x8002 ∧ t.clk = 5 ∧ byteAt t 0x0010 = 0x00 := by decide

/-- Vector LG17. -/
theorem test_lg17_ror_10 :
    let t := after { base with p := 0x01 } [(0x8000, [0x66, 0x10]), (0x0010, [0x02])]
    t.p = 0x80 ∧ t.pc = 0x8002 ∧ t.clk = 5 ∧ byteAt t 0x0010 = 0x81 := by decide

/-- Vector FT1. -/
theorem test_ft1_clc :
    let t := after { base with p := 0xFF } [(0x8000, [0x18])]
    t.p = 0xFE ∧ t.pc = 0x8001 ∧ t.clk = 2 := by decide

/-- Vector FT2. -/
theorem test_ft2_sec :
    let t := after { base with p := 0x00 } [(0x8000, [0x38])]
    t.p = 0x01 ∧ t.pc = 0x8001 ∧ t.clk = 2 := by decide

/-- Vector FT3. -/
theorem test_ft3_cld :
    let t := after { base with p := 0xFF } [(0x8000, [0xD8])]
    t.p = 0xF7 ∧ t.pc = 0x8001 ∧ t.clk = 2 := by decide

/-- Vector FT4. -/
theorem test_ft4_sed :
    let t := after { base with p := 0x00 } [(0x8000, [0xF8])]
    t.p = 0x08 ∧ t.pc = 0x8001 ∧ t.clk = 2 := by decide

/-- Vector FT5. -/
theorem test_ft5_cli :
    let t := after { base with p := 0xFF } [(0x8000, [0x58])]
    t.p = 0xFB ∧ t.pc = 0x8001 ∧ t.clk = 2 := by decide

/-- Vector FT6. -/
theorem test_ft6_sei :
    let t := after { base with p := 0x00 } [(0x8000, [0x78])]
    t.p = 0x04 ∧ t.pc = 0x8001 ∧ t.clk = 2 := by decide

/-- Vector FT7. -/
theorem test_ft7_clv :
    let t := after { base with p := 0xFF } [(0x8000, [0xB8])]
    t.p = 0xBF ∧ t.pc = 0x8001 ∧ t.clk = 2 := by decide

/-- Vector FT9. -/
theorem test_ft9_tax :
    let t := after { base with a := 0x80 } [(0x8000, [0xAA])]
    t.x = 0x80 ∧ t.p = 0x80 ∧ t.pc = 0x8001 ∧ t.clk = 2 := by decide

/-- Vector FT10. -/
theorem test_ft10_tay :
    let t := after { base with a := 0x00, y := 0x55, p := 0x80 } [(0x8000, [0xA8])]
    t.y = 0x00 ∧ t.p = 0x02 ∧ t.pc = 0x8001 ∧ t.clk = 2 := by decide

/-- Vector FT11. -/
theorem test_ft11_txa :
    let t := after { base with x := 0x7F, a := 0xFF, p := 0x82 } [(0x8000, [0x8A])]
    t.a = 0x7F ∧ t.p = 0x00 ∧ t.pc = 0x8001 ∧ t.clk = 2 := by decide

/-- Vector FT12. -/
theorem test_ft12_tya :
    let t := after { base with y := 0xFF } [(0x8000, [0x98])]
    t.a = 0xFF ∧ t.p = 0x80 ∧ t.pc = 0x8001 ∧ t.clk = 2 := by decide

/-- Vector FT13. -/
theorem test_ft13_tsx :
    let t := after base [(0x8000, [0xBA])]
    t.x = 0xFF ∧ t.p = 0x80 ∧ t.pc = 0x8001 ∧ t.clk = 2 := by decide

/-- Vector FT15. -/
theorem test_ft15_txs :
    let t := after { base with x := 0x00, p := 0x80 } [(0x8000, [0x9A])]
    t.sp = 0x00 ∧ t.pc = 0x8001 ∧ t.clk = 2 := by decide

/-- Vector FT17. -/
theorem test_ft17_inx :
    let t := after { base with x := 0xFF } [(0x8000, [0xE8])]
    t.x = 0x00 ∧ t.p = 0x02 ∧ t.pc = 0x8001 ∧ t.clk = 2 := by decide

/-- Vector FT18. -/
theorem test_ft18_iny :
    let t := after { base with y := 0x7F } [(0x8000, [0xC8])]
    t.y = 0x80 ∧ t.p = 0x80 ∧ t.pc = 0x8001 ∧ t.clk = 2 := by decide

/-- Vector FT19. -/
theorem test_ft19_dex :
    let t := after { base with x := 0x00 } [(0x8000, [0xCA])]
    t.x = 0xFF ∧ t.p = 0x80 ∧ t.pc = 0x8001 ∧ t.clk = 2 := by decide

/-- Vector FT20. -/
theorem test_ft20_dey :
    let t := after { base with y := 0x01 } [(0x8000, [0x88])]
    t.y = 0x00 ∧ t.p = 0x02 ∧ t.pc = 0x8001 ∧ t.clk = 2 := by decide

/-- Vector FT21. -/
theorem test_ft21_inc_10 :
    let t := after { base with p := 0x01 } [(0x8000, [0xE6, 0x10]), (0x0010, [0xFF])]
    t.p = 0x03 ∧ t.pc = 0x8002 ∧ t.clk = 5 ∧ byteAt t 0x0010 = 0x00 := by decide

/-- Vector FT24. -/
theorem test_ft24_dec_10_x :
    let t := after { base with x := 0xF0 } [(0x8000, [0xD6, 0x10]), (0x0000, [0x01])]
    t.p = 0x02 ∧ t.pc = 0x8002 ∧ t.clk = 6 ∧ byteAt t 0x0000 = 0x00 := by decide

/-- Vector FT25. -/
theorem test_ft25_nop :
    let t := after { base with a := 0x12, p := 0xC3 } [(0x8000, [0xEA])]
    t.pc = 0x8001 ∧ t.clk = 2 := by decide

/-- Vector CT1. -/
theorem test_ct1_bcc_8010 :
    let t := after { base with p := 0x00 } [(0x8000, [0x90, 0x0E])]
    t.pc = 0x8010 ∧ t.clk = 2 := by decide

/-- Vector CT3. -/
theorem test_ct3_bcs_7ffe :
    let t := after { base with p := 0x01 } [(0x8000, [0xB0, 0xFC])]
    t.pc = 0x7FFE ∧ t.clk = 2 := by decide

/-- Vector CT4. -/
theorem test_ct4_beq_8004 :
    let t := after { base with p := 0x02 } [(0x8000, [0xF0, 0x02])]
    t.pc = 0x8004 ∧ t.clk = 2 := by decide

/-- Vector CT5. -/
theorem test_ct5_bne_8002 :
    let t := after { base with p := 0x00, pc := 0x8005 } [(0x8005, [0xD0, 0xFB])]
    t.pc = 0x8002 ∧ t.clk = 2 := by decide

/-- Vector CT7. -/
theorem test_ct7_bmi_8081 :
    let t := after { base with p := 0x80 } [(0x8000, [0x30, 0x7F])]
    t.pc = 0x8081 ∧ t.clk = 2 := by decide

/-- Vector CT8. -/
theorem test_ct8_bpl_7f82 :
    let t := after { base with p := 0x00 } [(0x8000, [0x10, 0x80])]
    t.pc = 0x7F82 ∧ t.clk = 2 := by decide

/-- Vector CT9. -/
theorem test_ct9_bvc_0002 :
    let t := after { base with p := 0x00, pc := 0x0010 } [(0x0010, [0x50, 0xF0])]
    t.pc = 0x0002 ∧ t.clk = 2 := by decide

/-- Vector CT10. -/
theorem test_ct10_bvs_ffff :
    let t := after { base with p := 0x40, pc := 0x0000 } [(0x0000, [0x70, 0xFD])]
    t.pc = 0xFFFF ∧ t.clk = 2 := by decide

/-- Vector CT15. -/
theorem test_ct15_jmp_12ff :
    let t := after base [(0x8000, [0x6C, 0xFF, 0x12]), (0x1200, [0x99]), (0x12FF, [0x78]), (0x1300, [0x56])]
    t.pc = 0x5678 ∧ t.clk = 5 := by decide

/-- Vector CT16. -/
theorem test_ct16_jsr_9000 :
    let t := after base [(0x8000, [0x20, 0x00, 0x90])]
    t.sp = 0xFD ∧ t.pc = 0x9000 ∧ t.clk = 6 ∧ byteAt t 0x01FE = 0x02 ∧ byteAt t 0x01FF = 0x80 := by decide

/-- Vector CT18. -/
theorem test_ct18_rts :
    let t := after { base with sp := 0xFD } [(0x8000, [0x60]), (0x01FE, [0xFF]), (0x01FF, [0xFF])]
    t.sp = 0xFF ∧ t.pc = 0x0000 ∧ t.clk = 6 ∧ byteAt t 0x01FE = 0x00 ∧ byteAt t 0x01FF = 0x00 := by decide

/-- Vector CT21. -/
theorem test_ct21_pha :
    let t := after { base with a := 0x42, sp := 0x00 } [(0x8000, [0x48])]
    t.sp = 0xFF ∧ t.pc = 0x8001 ∧ t.clk = 3 ∧ byteAt t 0x0100 = 0x42 := by decide

/-- Vector CT22. -/
theorem test_ct22_php :
    let t := after { base with p := 0x81 } [(0x8000, [0x08])]
    t.sp = 0xFE ∧ t.pc = 0x8001 ∧ t.clk = 3 ∧ byteAt t 0x01FF = 0xB1 := by decide

/-- Vector CT24. -/
theorem test_ct24_pla :
    let t := after { base with sp := 0xFE } [(0x8000, [0x68]), (0x01FF, [0x80])]
    t.a = 0x80 ∧ t.sp = 0xFF ∧ t.p = 0x80 ∧ t.pc = 0x8001 ∧ t.clk = 4 ∧ byteAt t 0x01FF = 0x00 := by decide

/-- Vector CT26. -/
theorem test_ct26_plp :
    let t := after { base with sp := 0xFE } [(0x8000, [0x28]), (0x01FF, [0xC3])]
    t.sp = 0xFF ∧ t.p = 0xC3 ∧ t.pc = 0x8001 ∧ t.clk = 4 ∧ byteAt t 0x01FF = 0x00 := by decide

/-- Vector CT30. -/
theorem test_ct30_brk :
    let t := after { base with p := 0xCF, sp := 0x01, pc := 0x12FF } [(0x12FF, [0x00])]
    t.sp = 0xFE ∧ t.p = 0xFF ∧ t.pc = 0x9000 ∧ t.clk = 7 ∧ byteAt t 0x0101 = 0x13 ∧ byteAt t 0x0100 = 0x00 ∧
    byteAt t 0x01FF = 0xFF := by decide

/-- Vector CT32. -/
theorem test_ct32_rti :
    let t := after { base with sp := 0xFC } [(0x8000, [0x40]), (0x01FD, [0xE3]), (0x01FE, [0x34]), (0x01FF, [0x12])]
    t.sp = 0xFF ∧ t.p = 0xE3 ∧ t.pc = 0x1234 ∧ t.clk = 6 ∧ byteAt t 0x01FD = 0x00 ∧ byteAt t 0x01FE = 0x00 ∧
    byteAt t 0x01FF = 0x00 := by decide

/-- Vector FA1. -/
theorem test_fa1_undefined_opcode_0x02 :
    let t := after { base with a := 0x11 } [(0x8000, [0x02])]
    t.pc = 0x8001 ∧ t.runState = .faulted ⟨.unsupportedOperation 0x02, some 0x8000⟩ := by decide

/-- Vector FA3. -/
theorem test_fa3_jmp_ffff :
    let t := after base [(0x8000, [0x6C, 0xFF, 0xFF])]
    t.pc = 0x8003 ∧ t.runState = .faulted ⟨.memoryAccess 0xFFFF, some 0x8000⟩ := by decide

/-- Vector FA8. -/
theorem test_fa8_pla :
    let t := after { base with a := 0x11, sp := 0x10, platform := ⟨0xFFFA, [⟨0x0100, 0x01FF⟩]⟩ } [(0x8000, [0x68])]
    t.sp = 0x11 ∧ t.pc = 0x8001 ∧ t.runState = .faulted ⟨.memoryAccess 0x0111, some 0x8000⟩ := by decide

/-- Vector FA9. -/
theorem test_fa9_jsr_9000 :
    let t := after { base with sp := 0x00, platform := ⟨0xFFFA, [⟨0x01FF, 0x01FF⟩]⟩ } [(0x8000, [0x20, 0x00, 0x90])]
    t.sp = 0xFF ∧ t.pc = 0x8003 ∧ byteAt t 0x0100 = 0x80 ∧
    t.runState = .faulted ⟨.memoryAccess 0x01FF, some 0x8000⟩ := by decide

/-- Vector FA10. -/
theorem test_fa10_lda_1234_placed_at_0xfffe :
    let t := after { base with pc := 0xFFFE, platform := ⟨0xFFFF, []⟩ } [(0xFFFE, [0xAD, 0x34, 0x12])]
    t.runState = .faulted ⟨.memoryAccess 0xFFFE, some 0xFFFE⟩ := by decide

/-- Vector IN1. -/
theorem test_in1_irq_entry :
    let t := after { base with p := 0x00, pc := 0x8042, inputs := [⟨false, false, false, true⟩] } [(0x8042, [0xE8])]
    t.sp = 0xFC ∧ t.p = 0x04 ∧ t.pc = 0x9000 ∧ t.clk = 7 ∧ byteAt t 0x01FD = 0x20 ∧ byteAt t 0x01FE = 0x42 ∧
    byteAt t 0x01FF = 0x80 := by decide

/-- Vector IN2. -/
theorem test_in2_inx_irq_masked :
    let t := after { base with p := 0x04, pc := 0x8042, inputs := [⟨false, false, false, true⟩] } [(0x8042, [0xE8])]
    t.x = 0x01 ∧ t.pc = 0x8043 ∧ t.clk = 2 := by decide

/-- Vector IN3. -/
theorem test_in3_nmi_entry :
    let t := after { base with p := 0x04, pc := 0x8042, inputs := [⟨false, false, true, false⟩] } [(0x8042, [0xE8])]
    t.sp = 0xFC ∧ t.pc = 0xA000 ∧ t.clk = 7 ∧ byteAt t 0x01FD = 0x24 ∧ byteAt t 0x01FE = 0x42 ∧
    byteAt t 0x01FF = 0x80 := by decide

/-- Vector IN5. -/
theorem test_in5_irq_entry_with_live_b4_1 :
    let t := after { base with p := 0x10, pc := 0x8042, inputs := [⟨false, false, false, true⟩] } [(0x8042, [0xE8])]
    t.sp = 0xFC ∧ t.p = 0x14 ∧ t.pc = 0x9000 ∧ t.clk = 7 ∧ byteAt t 0x01FD = 0x20 ∧ byteAt t 0x01FE = 0x42 ∧
    byteAt t 0x01FF = 0x80 := by decide

/-- Vector IN6. -/
theorem test_in6_stop_request_wins :
    let t := after { base with pc := 0x8042, inputs := [⟨false, true, true, true⟩] } [(0x8042, [0xE8])]
    t.runState = .halted .externalStop := by decide

/-- Vector IN7. -/
theorem test_in7_boundary_wins_over_nmi :
    let t := after { base with pc := 0xFFFA, inputs := [⟨false, false, true, false⟩] } [(0xFFFA, [0xE8])]
    t.runState = .halted .boundary := by decide

/-- Vector IN10. -/
theorem test_in10_irq_entry_push_faults :
    let t := after { base with pc := 0x8042, platform := ⟨0xFFFA, [⟨0x01FE, 0x01FE⟩]⟩, inputs := [⟨false, false,
      false, true⟩] } [(0x8042, [0xE8])]
    t.sp = 0xFE ∧ byteAt t 0x01FF = 0x80 ∧ t.runState = .faulted ⟨.memoryAccess 0x01FE, some 0x8042⟩ := by decide

/-! ## Reset and the placing of a table word -/

/-- Vector RS2. -/
theorem test_rs2_reset :
    let t := after { base with a := 0x55, sp := 0x10, p := 0xFF, clk := 9, inputs := [⟨true, false, false, false⟩] }
      [(0xFFFA, [0x11, 0x22, 0x33, 0x44, 0x55, 0x66])]
    t.a = 0x00 ∧ t.sp = 0xFF ∧ t.p = 0x00 ∧ t.clk = 0 ∧ t.nmiVec = 0x2211 ∧ t.resetVec = 0x4433 ∧ t.irqVec = 0x6655 ∧
      t.pc = 0x4433 := by decide

/-- Vector RS3. -/
theorem test_rs3_reset_fault :
    (after { hole 0xFFFE 0xFFFF with inputs := [⟨true, false, false, false⟩] } []).runState =
      .faulted ⟨.memoryAccess 0xFFFE, none⟩ := by decide

/-- A word placed after reset is the next instruction run. -/
theorem test_withFetchWord :
    (match step (State.reset.withFetchWord 16 0x42A9) with
      | .next t => decide (t.a = 0x42 ∧ t.pc = 0x0002 ∧ t.clk = 2)
      | _ => false) = true := by decide

/-! ## Witnesses: hypotheses of the statements that a state meets -/

theorem witness_wf_encode :
    (Instr.lda (.absoluteX 0xFFFF)).wf = true ∧ (Instr.unsupported 0xFF).wf = true := by decide

theorem witness_decoded : decode [0xBD, 0xFF, 0xFF, 0x00] = .ok (.lda (.absoluteX 0xFFFF), [0x00]) := rfl

/-- EveryFetchedInstructionDecodes: with no byte to spare, for each length. -/
theorem witness_fetched_bytes :
    (lookup 0xBD).length ≤ [0xFF, 0xFF].length + 1 ∧ (lookup 0xA9).length ≤ [0xFF].length + 1 ∧
      (lookup 0xFF).length ≤ ([] : List Byte).length + 1 := by decide

/-- UndefinedBytesHaveUnsupportedShape: the first and the last. -/
theorem witness_undefined_bytes : (0x02 : Byte) ∈ undefinedBytes ∧ (0xFF : Byte) ∈ undefinedBytes := by decide

/-- Addressable and not addressable bytes: StoredByteIsReadBack, at both ends of the address space. -/
theorem witness_addressable :
    addressable base.platform 0x0000 = true ∧ addressable base.platform 0xFFFF = true ∧
      addressable (hole 0xFFFF 0xFFFF).platform 0xFFFF = false ∧
      addressable (hole 0x0000 0x0000).platform 0x0000 = false := by decide

/-- WordReadIsLittleEndianWithoutPageWrap: each clause at 0xFFFE, the last address that is not 0xFFFF. -/
theorem witness_word_read :
    (0xFFFE#16 ≠ 0xFFFF#16) ∧
      (addressable base.platform 0xFFFE = true ∧ addressable base.platform (0xFFFE + 1#16) = true) ∧
      addressable (hole 0xFFFE 0xFFFE).platform 0xFFFE = false ∧
      (addressable (hole 0xFFFF 0xFFFF).platform 0xFFFE = true ∧
        addressable (hole 0xFFFF 0xFFFF).platform (0xFFFE + 1#16) = false) := by decide

/-- FetchReadIsAscendingAndBounded: one byte too many, just enough, and a hole in the last byte. -/
theorem witness_fetch_read :
    0x10000 < (0xFFFE#16).toNat + 3 ∧ (0xFFFD#16).toNat + 3 ≤ 0x10000 ∧
      (∀ k, k < 3 → addressable base.platform (0xFFFD#16 + BitVec.ofNat 16 k) = true) ∧
      addressable (hole 0xFFFF 0xFFFF).platform (0xFFFD#16 + BitVec.ofNat 16 2) = false ∧
      (∀ j, j < 2 → addressable (hole 0xFFFF 0xFFFF).platform (0xFFFD#16 + BitVec.ofNat 16 j) = true) := by decide

/-- DataByte: an immediate byte, and a byte of memory at the last address. -/
theorem witness_data_byte : DataByte (.immediate 0xFF) base 0xFF ∧ DataByte (.absolute 0xFFFF) base 0x90 :=
  ⟨.inl rfl, .inr ⟨0xFFFF, rfl, by decide, by decide⟩⟩

/-- An operand that resolves to an addressable address (stores, BIT, shifts, INC, DEC), to one that is not, and one
whose pointer read faults (FaultsWithOperand). -/
theorem witness_operand_address :
    (resolve (.absolute 0xFFFF) base = .ok (.addr 0xFFFF) ∧ addressable base.platform 0xFFFF = true) ∧
      (resolve (.zeroPageX 0xFF) (hole 0x00FF 0x00FF) = .ok (.addr 0x00FF) ∧
        addressable (hole 0x00FF 0x00FF).platform 0x00FF = false) ∧
      resolve (.indirectY 0xFF) (hole 0x0100 0x0100) = .error (.memoryAccess 0x0100) :=
  ⟨⟨rfl, by decide⟩, ⟨rfl, by decide⟩, rfl⟩

/-- RotatesAreInverse. -/
theorem witness_rotates :
    ∃ t u, exec (.rol .accumulator) { base with a := 0x80, p := 0x01 } = .next t ∧
      exec (.ror .accumulator) t = .next u := ⟨_, _, rfl, rfl⟩

/-- JumpGoesToItsAddress: a pointer that is read, at the last place it can be, and one that faults. -/
theorem witness_jump :
    memRead16 0xFFFE base = .ok 0x9000 ∧ memRead16 0xFFFF base = .error (.memoryAccess 0xFFFF) := ⟨rfl, rfl⟩

/-- The pushes of JSR, BRK and an interrupt entry, SP wrapping in its page: all addressable, and each one not. -/
theorem witness_pushes :
    (addressable base.platform (stackAddress 0x01#8) = true ∧ addressable base.platform (stackAddress (0x01#8 - 1#8)) = true ∧
      addressable base.platform (stackAddress (0x01#8 - 2#8)) = true) ∧
    addressable (hole 0x0101 0x0101).platform (stackAddress 0x01#8) = false ∧
    (addressable (hole 0x0100 0x0100).platform (stackAddress 0x01#8) = true ∧
      addressable (hole 0x0100 0x0100).platform (stackAddress (0x01#8 - 1#8)) = false) ∧
    (addressable (hole 0x01FF 0x01FF).platform (stackAddress 0x01#8) = true ∧
      addressable (hole 0x01FF 0x01FF).platform (stackAddress (0x01#8 - 1#8)) = true ∧
      addressable (hole 0x01FF 0x01FF).platform (stackAddress (0x01#8 - 2#8)) = false) := by decide

/-- The pulls of RTS and RTI, SP wrapping in its page: all addressable, and each one not. -/
theorem witness_pulls :
    (addressable base.platform (stackAddress (0xFE#8 + 1#8)) = true ∧
      addressable base.platform (stackAddress (0xFE#8 + 2#8)) = true ∧
      addressable base.platform (stackAddress (0xFE#8 + 3#8)) = true) ∧
    addressable (hole 0x01FF 0x01FF).platform (stackAddress (0xFE#8 + 1#8)) = false ∧
    (addressable (hole 0x0100 0x0100).platform (stackAddress (0xFE#8 + 1#8)) = true ∧
      addressable (hole 0x0100 0x0100).platform (stackAddress (0xFE#8 + 2#8)) = false) ∧
    (addressable (hole 0x0101 0x0101).platform (stackAddress (0xFE#8 + 1#8)) = true ∧
      addressable (hole 0x0101 0x0101).platform (stackAddress (0xFE#8 + 2#8)) = true ∧
      addressable (hole 0x0101 0x0101).platform (stackAddress (0xFE#8 + 3#8)) = false) := by decide

/-- JsrThenRtsComesBack. -/
theorem witness_jsr_rts :
    ∃ t u, exec (.jsr 0x9000) { base with sp := 0x00 } = .next t ∧ t.runState = .running ∧ exec .rts t = .next u :=
  ⟨_, _, rfl, rfl, rfl⟩

/-- PushThenPullRestoresSp. -/
theorem witness_push_pull : ∃ t, push 0x42 { base with sp := 0x00 } = .done () t := ⟨_, rfl⟩

/-- PhpThenPlpSetsBreakBits. -/
theorem witness_php_plp :
    ∃ t u, exec .php { base with p := 0x81 } = .next t ∧ t.runState = .running ∧ exec .plp t = .next u :=
  ⟨_, _, rfl, rfl, rfl⟩

/-- A state at the last address below STOP_BOUNDARY with the given inputs, SP at 0x01. -/
def sampled (q : Sample) : State := { base with pc := 0xFFF9, sp := 0x01, inputs := [q] }

/-- InterruptEntryStep: an NMI edge, a waiting NMI, and IRQ asserted with I clear. -/
theorem witness_interrupt_entry (s : State)
    (hs : s = sampled ⟨false, false, true, true⟩ ∨ s = { sampled ⟨false, false, false, true⟩ with nmiPending := true } ∨
      s = sampled ⟨false, false, false, true⟩) :
    (s.runState = .running ∧ s.sample.reset = false ∧ s.sample.stopRequest = false ∧
      s.pc.toNat < s.platform.stopBoundary.toNat ∧ addressable s.platform (stackAddress s.sp) = true ∧
      addressable s.platform (stackAddress (s.sp - 1#8)) = true ∧
      addressable s.platform (stackAddress (s.sp - 2#8)) = true) ∧
    ((s.sample.nmiEdge = true ∨ s.nmiPending = true) ∨
      (s.sample.nmiEdge = false ∧ s.nmiPending = false ∧ s.sample.irqLine = true ∧ s.flag .i = false)) := by
  rcases hs with rfl | rfl | rfl <;> decide

/-- InterruptEntryPushFault: the conditions of an entry in a state whose third push faults; the pushes are those of
witness_pushes. -/
theorem witness_entry_fault :
    let s : State := { hole 0x01FF 0x01FF with sp := 0x01, nmiPending := true }
    s.runState = .running ∧ s.sample.reset = false ∧ s.sample.stopRequest = false ∧
      s.pc.toNat < s.platform.stopBoundary.toNat ∧
      (s.sample.nmiEdge = true ∨ s.nmiPending = true ∨ (s.sample.irqLine = true ∧ s.flag .i = false)) ∧
      addressable s.platform (stackAddress s.sp) = true ∧ addressable s.platform (stackAddress (s.sp - 1#8)) = true ∧
      addressable s.platform (stackAddress (s.sp - 2#8)) = false := by decide

/-- MaskedIrqIsIgnored. -/
theorem witness_masked_irq :
    let s : State := { base with p := 0x04, inputs := [⟨false, false, false, true⟩] }
    s.flag .i = true ∧ s.inputs = ⟨false, false, false, true⟩ :: [] := by decide

/-- HaltsComeFirst: a stop request with everything else asserted, and PC just at the boundary. -/
theorem witness_halts :
    (∃ s : State, s.runState = .running ∧ s.sample.reset = false ∧ s.sample.stopRequest = true) ∧
    (∃ s : State, s.runState = .running ∧ s.sample.reset = false ∧ s.sample.stopRequest = false ∧
      s.platform.stopBoundary.toNat ≤ s.pc.toNat) :=
  ⟨⟨sampled ⟨false, true, true, true⟩, by decide⟩,
    ⟨{ sampled ⟨false, false, true, true⟩ with pc := 0xFFFA }, by decide⟩⟩

/-- OnlyResetLeavesAStoppedRun. -/
theorem witness_stopped :
    let s : State := { base with runState := .halted .boundary, inputs := [⟨false, true, true, true⟩] }
    s.runState ≠ .running ∧ s.sample.reset = false := by decide

/-- ResetSetsEveryRegister. -/
theorem witness_reset :
    (sampled ⟨true, true, true, true⟩).sample.reset = true ∧
      (∀ a : Word, 0xFFFA ≤ a.toNat → addressable (sampled ⟨true, true, true, true⟩).platform a = true) :=
  ⟨rfl, fun _ _ => rfl⟩

/-- A state that is asked to reset with one byte that is not addressable. -/
def resetHole (a : Word) : State := { hole a a with inputs := [⟨true, false, false, false⟩] }

/-- FailedVectorReadFaultsReset: the first vector byte, and the last with the five before it addressable. -/
theorem witness_failed_vector :
    ((resetHole 0xFFFA).sample.reset = true ∧ addressable (resetHole 0xFFFA).platform 0xFFFA = false ∧
      (∀ b : Word, 0xFFFA ≤ b.toNat → b.toNat < (0xFFFA#16).toNat →
        addressable (resetHole 0xFFFA).platform b = true)) ∧
    ((resetHole 0xFFFF).sample.reset = true ∧ addressable (resetHole 0xFFFF).platform 0xFFFF = false ∧
      (∀ b : Word, 0xFFFA ≤ b.toNat → b.toNat < (0xFFFF#16).toNat →
        addressable (resetHole 0xFFFF).platform b = true)) := by
  refine ⟨⟨rfl, by decide, fun b h1 h2 => ?_⟩, rfl, by decide, fun b _ h2 => ?_⟩
  · have h2 : b.toNat < 65530 := h2
    omega
  · have h2 : b.toNat < 65535 := h2
    simp only [resetHole, hole, addressable, List.any_cons, List.any_nil, Bool.or_false, Bool.not_eq_true', Bool.and_eq_false_iff,
      decide_eq_false_iff_not]
    left
    show ¬ 65535 ≤ b.toNat
    omega

/-- WellFormedNeverMismatches: a well-formed instruction that faults. -/
theorem witness_wf_fault :
    ∃ t r, (Instr.jmp (.indirect 0xFFFF)).wf = true ∧ base.runState = .running ∧
      exec (.jmp (.indirect 0xFFFF)) base = .next t ∧ t.runState = .faulted r := ⟨_, _, rfl, rfl, rfl, rfl⟩

/-- InternalFaultsAreUnreachable: a running machine whose step faults, a machine that has faulted with another class, and
a halted one that is asked to reset. -/
theorem witness_no_internal_fault (s : State)
    (hs : s = hole 0x8000 0x8000 ∨ s = { base with runState := .faulted ⟨.unsupportedOperation 0x02, some 0x8000⟩ } ∨
      s = { base with runState := .halted .boundary, inputs := [⟨true, false, false, false⟩] }) :
    s.NoInternalFault ∧ ∃ t, step s = .next t := by
  rcases hs with rfl | rfl | rfl
  · exact ⟨fun r h => by simp [hole, base, State.reset] at h, _, rfl⟩
  · exact ⟨fun r h => by obtain rfl := RunState.faulted.inj h; rfl, _, rfl⟩
  · exact ⟨fun r h => by simp at h, _, rfl⟩

/-- UnacceptedKindsMismatch: no input, the accumulator and an immediate byte where they are not accepted, and an accepted
address whose access faults. -/
theorem witness_kinds :
    (resolve (Instr.sta .implied).operand base = .ok .none ∧ Input.none.kind ∉ acceptedKinds (Instr.sta .implied).operation) ∧
    (resolve (Instr.ldx .accumulator).operand base = .ok .acc ∧
      Input.acc.kind ∉ acceptedKinds (Instr.ldx .accumulator).operation) ∧
    (resolve (Instr.inc (.immediate 0xFF)).operand base = .ok (.imm 0xFF) ∧
      (Input.imm 0xFF).kind ∉ acceptedKinds (Instr.inc (.immediate 0xFF)).operation) ∧
    (resolve (Instr.sta (.absolute 0xFFFF)).operand (hole 0xFFFF 0xFFFF) = .ok (.addr 0xFFFF) ∧
      (Input.addr 0xFFFF).kind ∈ acceptedKinds (Instr.sta (.absolute 0xFFFF)).operation ∧
      ∃ t r, exec (.sta (.absolute 0xFFFF)) (hole 0xFFFF 0xFFFF) = .next t ∧ t.runState = .faulted r) :=
  ⟨⟨rfl, by decide⟩, ⟨rfl, by decide⟩, ⟨rfl, by decide⟩, rfl, by decide, _, _, rfl, rfl⟩

/-- A state with LDA $1234 at an address near the top of the space, and the boundary at 0xFFFF. -/
def atTop (pc : Word) : State :=
  { place base [(pc.toNat, [0xAD, 0x34, 0x12])] with pc := pc, platform := ⟨0xFFFF, []⟩ }

/-- FetchFaultsLeaveThePc: an opcode that is not addressable, and three bytes of which the last would be at 0x10000. -/
theorem witness_fetch_faults :
    ((hole 0x8000 0x8000).fetches ∧ addressable (hole 0x8000 0x8000).platform (hole 0x8000 0x8000).pc = false) ∧
    ((atTop 0xFFFE).fetches ∧ addressable (atTop 0xFFFE).platform (atTop 0xFFFE).pc = true ∧
      0x10000 < (atTop 0xFFFE).pc.toNat + (lookup (byteAt (atTop 0xFFFE) (atTop 0xFFFE).pc)).length) := by
  refine ⟨⟨⟨rfl, rfl, rfl, by decide⟩, by decide⟩, ⟨rfl, rfl, rfl, by decide⟩, by decide, by decide⟩

/-- FetchFaultsLeaveThePc: three bytes that end at 0xFFFF, of which the second or the third is the first one that is not
addressable. -/
theorem witness_operand_fetch_faults (k : Nat) (hk : k = 1 ∨ k = 2) :
    let s : State := { atTop 0xFFFD with platform := ⟨0xFFFF, [⟨0xFFFD#16 + BitVec.ofNat 16 k, 0xFFFF⟩]⟩ }
    s.fetches ∧ s.pc.toNat + (lookup (byteAt s s.pc)).length ≤ 0x10000 ∧ k < (lookup (byteAt s s.pc)).length ∧
      (∀ j, j < k → addressable s.platform (s.pc + BitVec.ofNat 16 j) = true) ∧
      addressable s.platform (s.pc + BitVec.ofNat 16 k) = false := by
  rcases hk with rfl | rfl <;> exact ⟨⟨rfl, rfl, rfl, by decide⟩, by decide, by decide, by decide, by decide⟩

/-- StepRunsTheDecodedInstruction: an instruction whose last byte is at 0xFFFF. -/
theorem witness_step_decoded :
    let s := atTop 0xFFFD
    s.fetches ∧ (Instr.lda (.absolute 0x1234)).wf = true ∧
      s.pc.toNat + (Instr.lda (.absolute 0x1234)).length ≤ 0x10000 ∧
      (∀ k, k < (Instr.lda (.absolute 0x1234)).length →
        addressable s.platform (s.pc + BitVec.ofNat 16 k) = true) ∧
      decode ((List.range (Instr.lda (.absolute 0x1234)).length).map fun k => Memory.read s.mem (s.pc.toNat + k)) =
        .ok (.lda (.absolute 0x1234), []) :=
  ⟨⟨rfl, rfl, rfl, by decide⟩, by decide, by decide, by decide, rfl⟩

/-- StepKeepsCanonicalMemory and VectorsChangeOnlyAtReset: a step that stores, without a reset. -/
theorem witness_step :
    ∃ t, (place base [(0x8000, [0x48])]).Inv ∧ (place base [(0x8000, [0x48])]).sample.reset = false ∧
      step (place base [(0x8000, [0x48])]) = .next t := ⟨_, rfl, rfl, rfl⟩

/-- ClkGrowsByCycles: a reset, a stopped run, a halt, a fault, a completed entry and a completed instruction. -/
theorem witness_clk :
    (∃ t, step (sampled ⟨true, false, false, false⟩) = .next t ∧
      (sampled ⟨true, false, false, false⟩).sample.reset = true) ∧
    (∃ t, step { base with runState := .halted .boundary } = .next t) ∧
    (∃ t, step (sampled ⟨false, true, false, false⟩) = .next t ∧ t.runState ≠ .running) ∧
    (∃ t, step (hole 0x8000 0x8000) = .next t ∧ t.runState ≠ .running) ∧
    (∃ t, step (sampled ⟨false, false, false, true⟩) = .next t ∧ t.runState = .running ∧
      (sampled ⟨false, false, false, true⟩).interrupted) ∧
    (∃ t, step (place base [(0x8000, [0x48])]) = .next t ∧ t.runState = .running ∧
      ¬(place base [(0x8000, [0x48])]).interrupted) :=
  ⟨⟨_, rfl, rfl⟩, ⟨_, rfl⟩, ⟨_, rfl, by decide⟩, ⟨_, rfl, by decide⟩, ⟨_, rfl, rfl, .inr (.inr ⟨rfl, rfl⟩)⟩,
    ⟨_, rfl, rfl, by rintro (h | h | ⟨h, _⟩) <;> exact Bool.noConfusion h⟩⟩

/-- ResetStateIsCanonical: a launch memory whose vectors are not zero, every byte addressable, and the last vector byte
alone not addressable. -/
theorem witness_launch :
    Memory.wf base.mem = true ∧ (launch Platform.standard base.mem []).pc = 0x8000 ∧
      (∀ a : Word, 0xFFFA ≤ a.toNat → addressable Platform.standard a = true) ∧
      addressable (hole 0xFFFF 0xFFFF).platform 0xFFFF = false ∧
      (∀ b : Word, 0xFFFA ≤ b.toNat → b.toNat < (0xFFFF#16).toNat →
        addressable (hole 0xFFFF 0xFFFF).platform b = true) :=
  ⟨by decide, by decide, fun _ _ => rfl, by decide, witness_failed_vector.2.2.2⟩

/-- The frames over all instructions: an instruction with a next state, one that stores to its operand, and one whose
operand is no address. -/
theorem witness_frames :
    (∃ t, exec .brk base = .next t) ∧
      (∃ t, exec (.inc (.absolute 0xFFFF)) base = .next t ∧
        (Instr.inc (.absolute 0xFFFF)).operation ∈ [Operation.sta, .stx, .sty, .asl, .lsr, .rol, .ror, .inc, .dec]) ∧
      (∃ t, exec (.rol .accumulator) base = .next t ∧ ∀ a, resolve .accumulator base ≠ .ok (.addr a)) :=
  ⟨⟨_, rfl⟩, ⟨_, rfl, by decide⟩, ⟨_, rfl, fun a h => by simp [resolve] at h⟩⟩

end Sys2Proof.Machine
end

/-! PROOFS. What each instruction writes of the state (10_state.md R21 to R31), as one table over the instructions and one
relation between states that every update of the model keeps; then the one case analysis over the instructions that the
frames and the invariant of the step rest on. -/

namespace Sys2Proof.Machine

/-! ## The parts of the state and what leaves them -/

/-- The parts of the state that a frame speaks of: everything but run_state, the three latched vectors as one part and
P by its flags. -/
inductive Component where
  | a | x | y | sp | pc | mem | vectors | clk | nmiPending | platform | inputs
  | flag (f : Flag)
deriving DecidableEq

/-- Two states have the same value in a part of the state. -/
def Component.Same (c : Component) (s t : State) : Prop :=
  match c with
  | .a => t.a = s.a
  | .x => t.x = s.x
  | .y => t.y = s.y
  | .sp => t.sp = s.sp
  | .pc => t.pc = s.pc
  | .mem => t.mem = s.mem
  | .vectors => t.nmiVec = s.nmiVec ∧ t.resetVec = s.resetVec ∧ t.irqVec = s.irqVec
  | .clk => t.clk = s.clk
  | .nmiPending => t.nmiPending = s.nmiPending
  | .platform => t.platform = s.platform
  | .inputs => t.inputs = s.inputs
  | .flag f => t.flag f = s.flag f

theorem Component.Same.refl (c : Component) (s : State) : c.Same s s := by
  cases c <;> simp [Component.Same]

theorem Component.Same.trans {c : Component} {s t u : State} (h : c.Same s t) (h' : c.Same t u) : c.Same s u := by
  cases c <;> simp_all [Component.Same]

/-- From `s` to `t` nothing but the listed parts (and run_state) has changed, and a memory in canonical form is still
one. -/
structure WritesOnly (W : List Component) (s t : State) : Prop where
  same : ∀ c, c ∉ W → c.Same s t
  canonical : s.Inv → t.Inv

namespace WritesOnly

variable {W : List Component} {s t u : State}

theorem refl (W : List Component) (s : State) : WritesOnly W s s := ⟨fun c _ => .refl c s, id⟩

theorem trans (h : WritesOnly W s t) (h' : WritesOnly W t u) : WritesOnly W s u :=
  ⟨fun c hc => (h.same c hc).trans (h'.same c hc), fun hs => h'.canonical (h.canonical hs)⟩

/-- What has changed is listed. -/
theorem mem_of_changed (h : WritesOnly W s t) {c : Component} (hc : ¬c.Same s t) : c ∈ W :=
  Decidable.byContradiction fun hn => hc (h.same c hn)

/-- An update that writes one listed part and leaves the memory; that it leaves each other part is a lemma of
Laws/State.lean. -/
theorem update (h : WritesOnly W s t) (c : Component) (hc : c ∈ W) (hmem : u.mem = t.mem)
    (same : ∀ d, d ≠ c → d.Same t u := by intro d; cases d <;> simp [Component.Same, State.flag]) :
    WritesOnly W s u :=
  h.trans ⟨fun d hd => same d fun e => hd (e ▸ hc), fun ht => by rwa [State.Inv, hmem]⟩

theorem withA (h : WritesOnly W s t) (hc : .a ∈ W) (v : Byte) : WritesOnly W s (t.withA v) :=
  h.update .a hc rfl

theorem withX (h : WritesOnly W s t) (hc : .x ∈ W) (v : Byte) : WritesOnly W s (t.withX v) :=
  h.update .x hc rfl

theorem withY (h : WritesOnly W s t) (hc : .y ∈ W) (v : Byte) : WritesOnly W s (t.withY v) :=
  h.update .y hc rfl

theorem withSp (h : WritesOnly W s t) (hc : .sp ∈ W) (v : Byte) : WritesOnly W s (t.withSp v) :=
  h.update .sp hc rfl

theorem withPc (h : WritesOnly W s t) (hc : .pc ∈ W) (v : Word) : WritesOnly W s (t.withPc v) :=
  h.update .pc hc rfl

theorem withNmiPending (h : WritesOnly W s t) (hc : .nmiPending ∈ W) (v : Bool) :
    WritesOnly W s (t.withNmiPending v) :=
  h.update .nmiPending hc rfl

theorem withInputs (h : WritesOnly W s t) (hc : .inputs ∈ W) (v : List Sample) : WritesOnly W s (t.withInputs v) :=
  h.update .inputs hc rfl

/-- run_state is no part of a frame. -/
theorem withRunState (h : WritesOnly W s t) (r : RunState) : WritesOnly W s (t.withRunState r) :=
  h.trans ⟨fun d _ => by cases d <;> simp [Component.Same, State.flag], id⟩

/-- A status byte in which only listed flags differ. -/
theorem withP (h : WritesOnly W s t) {p : Byte} {w : List (Flag × Bool)} (hp : StatusAfter t.p p w)
    (hw : ∀ f ∈ w.map Prod.fst, .flag f ∈ W) : WritesOnly W s (t.withP p) := by
  refine h.trans ⟨fun d hd => ?_, id⟩
  cases d
  case flag f =>
    have hf : w.lookup f = none := List.lookup_eq_none_iff.2 fun e he => by
      have hne : f ≠ e.1 := fun h' => hd (hw f (h' ▸ List.mem_map_of_mem he))
      simpa using hne
    simp [Component.Same, State.flag, hp f, hf]
  all_goals simp [Component.Same]

/-- A status byte of any value, where every flag is listed. -/
theorem withAnyP (h : WritesOnly W s t) (hw : ∀ f, .flag f ∈ W) (p : Byte) : WritesOnly W s (t.withP p) := by
  refine h.trans ⟨fun d hd => ?_, id⟩
  cases d
  case flag f => exact absurd (hw f) hd
  all_goals simp [Component.Same]

theorem setZN (h : WritesOnly W s t) (hz : .flag .z ∈ W) (hn : .flag .n ∈ W) (v : Byte) :
    WritesOnly W s (t.setZN v) :=
  h.withP (zn_statusAfter v t.p) (by simp [znOf, hz, hn])

theorem withFlag (h : WritesOnly W s t) {f : Flag} (hf : .flag f ∈ W) (b : Bool) : WritesOnly W s (t.withFlag f b) :=
  h.withP (setFlag_statusAfter f b t.p) (by simp [hf])

/-- A byte stored at a 16-bit address. -/
theorem write (h : WritesOnly W s t) (hc : .mem ∈ W) (a : Word) (v : Byte) :
    WritesOnly W s (t.withMem (Memory.write t.mem a.toNat v)) :=
  h.trans ⟨fun d hd => by cases d <;> simp_all [Component.Same, State.flag], fun ht => Memory.wf_writeWord ht a v⟩

end WritesOnly

/-! ## The table: what each instruction writes -/

/-- The eight flags as parts of the state. -/
def statusFlags : List Component := [.n, .v, .b5, .b4, .d, .i, .z, .c].map .flag

/-- What taking an interrupt writes: memory, SP and PC, I, and the break bits at BRK (R211) or nmi_pending at NMI
(R245). -/
def InterruptKind.writes : InterruptKind → List Component
  | .brk => [.mem, .sp, .pc, .flag .i, .flag .b4, .flag .b5]
  | .irq => [.mem, .sp, .pc, .flag .i]
  | .nmi => [.mem, .sp, .pc, .flag .i, .nmiPending]

end Sys2Proof.Machine

namespace Sys2Proof

open Machine

/-- The place a shift or rotate writes: A in Accumulator mode, memory in the others (42_logic_shift.md R144 to R147). -/
def Operand.place : Operand → Component
  | .accumulator => .a
  | _ => .mem

theorem Operand.eq_place_iff (c : Component) (o : Operand) :
    c = o.place ↔ (c = .a ∧ o = .accumulator) ∨ (c = .mem ∧ o ≠ .accumulator) := by
  cases o <;> simp [Operand.place]

/-- An operand with an effective address is no accumulator. -/
theorem Operand.place_of_address {o : Operand} {s : State} {a : Word} (h : resolve o s = .ok (.addr a)) :
    o.place = .mem := by
  cases o with
  | accumulator => simp [resolve] at h
  | _ => rfl

/-- What an instruction writes, by the instruction's own rule (R110 to R212). -/
@[simp] def Instr.writes : Instr → List Component
  | .lda _ | .and _ | .ora _ | .eor _ | .txa | .tya => [.a, .flag .z, .flag .n]
  | .ldx _ | .tax | .tsx | .inx | .dex => [.x, .flag .z, .flag .n]
  | .ldy _ | .tay | .iny | .dey => [.y, .flag .z, .flag .n]
  | .sta _ | .stx _ | .sty _ => [.mem]
  | .adc _ | .sbc _ => [.a, .flag .c, .flag .v, .flag .z, .flag .n]
  | .cmp _ | .cpx _ | .cpy _ => [.flag .c, .flag .z, .flag .n]
  | .bit _ => [.flag .z, .flag .n, .flag .v]
  | .asl o | .lsr o | .rol o | .ror o => [o.place, .flag .c, .flag .z, .flag .n]
  | .inc _ | .dec _ => [.mem, .flag .z, .flag .n]
  | .clc | .sec => [.flag .c]
  | .cld | .sed => [.flag .d]
  | .cli | .sei => [.flag .i]
  | .clv => [.flag .v]
  | .txs => [.sp]
  | .bcc _ | .bcs _ | .beq _ | .bne _ | .bmi _ | .bpl _ | .bvc _ | .bvs _ | .jmp _ => [.pc]
  | .jsr _ | .rts => [.mem, .sp, .pc]
  | .pha | .php => [.mem, .sp]
  | .pla => [.mem, .sp, .a, .flag .z, .flag .n]
  | .plp => [.mem, .sp] ++ statusFlags
  | .rti => [.mem, .sp, .pc] ++ statusFlags
  | .brk => InterruptKind.brk.writes
  | .nop | .unsupported _ => []

/-- The table read by parts: the operations that write a part of the state (10_state.md R21 to R31, 20_memory.md R63). -/
def Machine.Component.writers : Component → List Operation
  | .a => [.lda, .adc, .sbc, .and, .ora, .eor, .txa, .tya, .pla] ++ [.asl, .lsr, .rol, .ror]
  | .x => [.ldx, .tax, .tsx, .inx, .dex]
  | .y => [.ldy, .tay, .iny, .dey]
  | .sp => [.pha, .php, .pla, .plp, .jsr, .rts, .brk, .rti, .txs]
  | .pc => [.bcc, .bcs, .beq, .bne, .bmi, .bpl, .bvc, .bvs, .jmp, .jsr, .rts, .rti, .brk]
  | .mem => [.sta, .stx, .sty, .asl, .lsr, .rol, .ror, .inc, .dec, .pha, .php, .jsr, .brk, .pla, .plp, .rts, .rti]
  | .flag .n | .flag .z => [.lda, .ldx, .ldy, .adc, .sbc, .cmp, .cpx, .cpy, .and, .ora, .eor, .bit, .asl, .lsr,
      .rol, .ror, .inc, .dec, .inx, .iny, .dex, .dey, .tax, .tay, .txa, .tya, .tsx, .pla, .plp, .rti]
  | .flag .v => [.adc, .sbc, .bit, .clv, .plp, .rti]
  | .flag .b5 | .flag .b4 => [.brk, .plp, .rti]
  | .flag .d => [.cld, .sed, .plp, .rti]
  | .flag .i => [.cli, .sei, .brk, .plp, .rti]
  | .flag .c => [.adc, .sbc, .cmp, .cpx, .cpy, .asl, .lsr, .rol, .ror, .clc, .sec, .plp, .rti]
  | .vectors | .clk | .nmiPending | .platform | .inputs => []

theorem Instr.operation_mem_writers (i : Instr) : ∀ c ∈ i.writes, i.operation ∈ c.writers := by
  cases i with
  | asl o | lsr o | rol o | ror o => cases o <;> simp only [writes, Operand.place, operation] <;> decide
  | _ => simp only [writes, operation]; decide

/-- A part that no operation writes is in no row of the table. -/
theorem Instr.not_mem_writes (i : Instr) {c : Component} (hc : c.writers = []) : c ∉ i.writes :=
  fun h => by simpa [hc] using i.operation_mem_writers c h

/-- A shift or rotate writes A in Accumulator mode only. -/
theorem Instr.shift_writes_a {i : Instr} (h : .a ∈ i.writes) (hi : i.operation ∈ [.asl, .lsr, .rol, .ror]) :
    i.operand = .accumulator := by
  cases i with
  | asl o | lsr o | rol o | ror o => simpa [operand, Operand.eq_place_iff] using h
  | _ => simp [operation] at hi

end Sys2Proof

/-! PROOFS. Every instruction writes only what the table `Instr.writes` lists and keeps the canonical form of the memory:
one lemma for each shape of an instruction rule, from the shape's own cases, and then one line for each instruction. -/

namespace Sys2Proof.Machine

section shapes

variable {W : List Component} {s t : State}

/-! ## The shapes of the instruction rules -/

theorem registersOnly_writesOnly {u : State} (h : registersOnly u = .next t) (hu : WritesOnly W s u) :
    WritesOnly W s t :=
  Host.Outcome.next.inj h ▸ hu

theorem readAndUpdate_writesOnly {accepts : Input → Bool} {o : Operand} {u : Byte → State}
    (h : readAndUpdate accepts o s u = .next t) (hu : ∀ m, WritesOnly W s (u m)) : WritesOnly W s t := by
  obtain ⟨m, -, rfl⟩ | ⟨f, -, rfl⟩ := readAndUpdate_cases h
  · exact hu m
  · exact (WritesOnly.refl W s).withRunState _

theorem storeRegister_writesOnly {o : Operand} {v : Byte} (h : storeRegister o v s = .next t) (hmem : .mem ∈ W) :
    WritesOnly W s t := by
  obtain ⟨a, -, rfl⟩ | ⟨r, rfl⟩ := storeRegister_cases h
  · exact (WritesOnly.refl W s).write hmem a v
  · exact (WritesOnly.refl W s).withRunState r

/-- The place is memory at an effective address, or A where the instruction accepts the accumulator. -/
theorem readModifyWrite_writesOnly {accepts : Input → Bool} {o : Operand} {r : Byte → Byte} {st : Byte → Byte → Byte}
    {w : Byte → List (Flag × Bool)} (h : readModifyWrite accepts o s r st = .next t)
    (haddr : ∀ a, resolve o s = .ok (.addr a) → .mem ∈ W)
    (hacc : accepts .acc = true → o = .accumulator → .a ∈ W)
    (hst : ∀ v, StatusAfter s.p (st v s.p) (w v)) (hw : ∀ v, ∀ f ∈ (w v).map Prod.fst, .flag f ∈ W) :
    WritesOnly W s t := by
  obtain ⟨a, ha, rfl⟩ | ⟨ha, ho, rfl⟩ | ⟨r, rfl⟩ := readModifyWrite_cases h
  · exact ((WritesOnly.refl W s).write (haddr a ha) a _).withP (hst _) (hw _)
  · exact ((WritesOnly.refl W s).withA (hacc ha ho) _).withP (hst _) (hw _)
  · exact (WritesOnly.refl W s).withRunState r

/-- A shift or rotate: A or memory, and C, Z and N (R144 to R147). -/
theorem shift_writesOnly {o : Operand} {r : Byte → Byte} {out : Byte → Bool}
    (h : readModifyWrite Input.isPlace o s r (fun v => shiftStatus (out v) (r v)) = .next t) :
    WritesOnly [o.place, .flag .c, .flag .z, .flag .n] s t :=
  readModifyWrite_writesOnly h (fun _ ha => by simp [Operand.place_of_address ha])
    (fun _ ho => by simp [ho, Operand.place]) (fun _ => shiftStatus_statusAfter _ _ _) (by simp [znOf])

/-- INC and DEC: memory, and Z and N (R177, R178). -/
theorem incDec_writesOnly {o : Operand} {r : Byte → Byte}
    (h : readModifyWrite Input.isAddress o s r (fun v => zn (r v)) = .next t) :
    WritesOnly [.mem, .flag .z, .flag .n] s t :=
  readModifyWrite_writesOnly h (fun _ _ => by simp) (fun ha => by simp [Input.isAddress] at ha)
    (fun _ => zn_statusAfter _ _) (by simp [znOf])

theorem branchIf_writesOnly {cond : Bool} {d : Byte} (h : branchIf cond d s = .next t) : WritesOnly [.pc] s t := by
  obtain ⟨w, rfl⟩ := branchIf_cases h
  exact (WritesOnly.refl _ s).withPc (by simp) w

/-! ## Effects -/

/-- The state an effect ends in, completed or faulted. -/
def Effect.state {α : Type} : Effect α → State
  | .done _ u => u
  | .raised _ u => u

theorem andThen_writesOnly {α β : Type} {e : Effect α} {k : α → State → Effect β} (he : WritesOnly W s e.state)
    (hk : ∀ v u, WritesOnly W s u → WritesOnly W s (k v u).state) : WritesOnly W s (e.andThen k).state := by
  cases e with
  | done v u => exact hk v u he
  | raised f u => exact he

theorem onRead_writesOnly {α β : Type} {r : Except Fault α} {u : State} {k : α → Effect β} (hu : WritesOnly W s u)
    (hk : ∀ v, WritesOnly W s (k v).state) : WritesOnly W s (onRead r u k).state := by
  cases r with
  | ok v => exact hk v
  | error f => exact hu

/-- The answer of an effect differs from the state it ends in by run_state alone. -/
theorem conclude_writesOnly {pc0 : Option Word} {e : Effect Unit} (h : conclude pc0 e = .next t)
    (he : WritesOnly W s e.state) : WritesOnly W s t := by
  cases e with
  | done v u => exact Host.Outcome.next.inj h ▸ he
  | raised f u => exact Host.Outcome.next.inj h ▸ he.withRunState _

theorem memWrite_writesOnly {u : State} (hu : WritesOnly W s u) (hmem : .mem ∈ W) (a : Word) (v : Byte) :
    WritesOnly W s (memWrite a v u).state := by
  rw [memWrite_eq]
  split
  · exact hu.write hmem a v
  · exact hu

/-! ## The stack -/

section stack

variable (hmem : .mem ∈ W) (hsp : .sp ∈ W)
include hmem hsp

theorem push_writesOnly {u : State} (hu : WritesOnly W s u) (v : Byte) : WritesOnly W s (push v u).state :=
  andThen_writesOnly (memWrite_writesOnly hu hmem _ v) fun _ _ h => h.withSp hsp _

theorem pull_writesOnly {u : State} (hu : WritesOnly W s u) : WritesOnly W s (pull u).state :=
  onRead_writesOnly (hu.withSp hsp _) fun _ =>
    andThen_writesOnly (memWrite_writesOnly (hu.withSp hsp _) hmem _ _) fun _ _ h => h

theorem push16_writesOnly {u : State} (hu : WritesOnly W s u) (w : Word) : WritesOnly W s (push16 w u).state :=
  andThen_writesOnly (push_writesOnly hmem hsp hu _) fun _ _ h => push_writesOnly hmem hsp h _

theorem pull16_writesOnly {u : State} (hu : WritesOnly W s u) : WritesOnly W s (pull16 u).state :=
  andThen_writesOnly (pull_writesOnly hmem hsp hu) fun _ _ h =>
    andThen_writesOnly (pull_writesOnly hmem hsp h) fun _ _ h => h

end stack

/-! ## Interrupts -/

/-- The end of an entry: flags, PC and nmi_pending as its kind says. -/
theorem enter_writesOnly {k : InterruptKind} {u : State} (h : WritesOnly k.writes s u) :
    WritesOnly k.writes s (k.enter u) := by
  cases k with
  | brk => exact (((h.withFlag (by decide) _).withFlag (by decide) _).withFlag (by decide) _).withPc (by decide) _
  | irq => exact (h.withFlag (by decide) _).withPc (by decide) _
  | nmi => exact ((h.withFlag (by decide) _).withNmiPending (by decide) _).withPc (by decide) _

/-- Taking an interrupt, completed or faulted in one of its pushes, writes only what its kind says. -/
theorem takeInterrupt_writesOnly (k : InterruptKind) (s : State) : WritesOnly k.writes s (takeInterrupt k s).state := by
  have hmem : .mem ∈ k.writes := by cases k <;> decide
  have hsp : .sp ∈ k.writes := by cases k <;> decide
  exact andThen_writesOnly (push16_writesOnly hmem hsp (.refl _ s) _) fun _ _ h =>
    andThen_writesOnly (push_writesOnly hmem hsp h _) fun _ _ h => enter_writesOnly h

theorem returnFromInterrupt_writesOnly (s : State) : WritesOnly Instr.rti.writes s (returnFromInterrupt s).state := by
  have hmem : .mem ∈ Instr.rti.writes := by decide
  have hsp : .sp ∈ Instr.rti.writes := by decide
  have hflags : ∀ f, .flag f ∈ Instr.rti.writes := fun f => by cases f <;> decide
  exact andThen_writesOnly (pull_writesOnly hmem hsp (.refl _ s)) fun _ _ h =>
    andThen_writesOnly (pull16_writesOnly hmem hsp (h.withAnyP hflags _)) fun _ _ h => h.withPc (by decide) _

/-! ## Control and stack instructions -/

theorem execJmp_writesOnly {o : Operand} (h : execJmp o s = .next t) : WritesOnly [.pc] s t := by
  obtain ⟨a, -, rfl⟩ | ⟨r, rfl⟩ := execJmp_cases h
  · exact (WritesOnly.refl _ s).withPc (by decide) a
  · exact (WritesOnly.refl _ s).withRunState r

theorem execJsr_writesOnly {a : Word} (h : execJsr a s = .next t) : WritesOnly [.mem, .sp, .pc] s t :=
  conclude_writesOnly h <| andThen_writesOnly (push16_writesOnly (by decide) (by decide) (.refl _ s) _)
    fun _ _ h => h.withPc (by decide) a

theorem execRts_writesOnly (h : execRts s = .next t) : WritesOnly [.mem, .sp, .pc] s t :=
  conclude_writesOnly h <| andThen_writesOnly (pull16_writesOnly (by decide) (by decide) (.refl _ s))
    fun _ _ h => h.withPc (by decide) _

theorem execPla_writesOnly (h : execPla s = .next t) : WritesOnly Instr.pla.writes s t :=
  conclude_writesOnly h <| andThen_writesOnly (pull_writesOnly (by decide) (by decide) (.refl _ s))
    fun _ _ h => (h.withA (by decide) _).setZN (by decide) (by decide) _

theorem execPlp_writesOnly (h : execPlp s = .next t) : WritesOnly Instr.plp.writes s t :=
  conclude_writesOnly h <| andThen_writesOnly (pull_writesOnly (by decide) (by decide) (.refl _ s))
    fun _ _ h => h.withAnyP (fun f => by cases f <;> decide) _

end shapes

/-! ## Every instruction -/

/-- An instruction writes only what the table lists, whether it completes or faults, and keeps the canonical form of the
memory. -/
theorem exec_writesOnly {i : Instr} {s t : State} (h : exec i s = .next t) : WritesOnly i.writes s t := by
  have base := WritesOnly.refl i.writes s
  cases i with
  | lda _ | and _ | ora _ | eor _ =>
    exact readAndUpdate_writesOnly h fun _ =>
      (base.withA (by simp) _).setZN (by simp) (by simp) _
  | ldx _ =>
    exact readAndUpdate_writesOnly h fun _ =>
      (base.withX (by simp) _).setZN (by simp) (by simp) _
  | ldy _ =>
    exact readAndUpdate_writesOnly h fun _ =>
      (base.withY (by simp) _).setZN (by simp) (by simp) _
  | sta _ | stx _ | sty _ => exact storeRegister_writesOnly h (by simp)
  | adc _ | sbc _ =>
    exact readAndUpdate_writesOnly h fun _ =>
      (base.withA (by simp) _).withP (addStatus_statusAfter _ _ _ _) (by simp [znOf])
  | cmp _ | cpx _ | cpy _ =>
    exact readAndUpdate_writesOnly h fun _ =>
      base.withP (compareStatus_statusAfter _ _ _) (by simp [znOf])
  | bit _ =>
    exact readAndUpdate_writesOnly h fun _ => base.withP (bitStatus_statusAfter _ _ _) (by simp)
  | asl _ | lsr _ | rol _ | ror _ => exact shift_writesOnly h
  | inc _ | dec _ => exact incDec_writesOnly h
  | clc | sec | cld | sed | cli | sei | clv => exact registersOnly_writesOnly h (base.withFlag (by decide) _)
  | txa | tya =>
    exact registersOnly_writesOnly h ((base.withA (by decide) _).setZN (by decide) (by decide) _)
  | tax | tsx | inx | dex =>
    exact registersOnly_writesOnly h ((base.withX (by decide) _).setZN (by decide) (by decide) _)
  | tay | iny | dey =>
    exact registersOnly_writesOnly h ((base.withY (by decide) _).setZN (by decide) (by decide) _)
  | txs => exact registersOnly_writesOnly h (base.withSp (by decide) _)
  | nop => exact registersOnly_writesOnly h base
  | bcc _ | bcs _ | beq _ | bne _ | bmi _ | bpl _ | bvc _ | bvs _ => exact branchIf_writesOnly h
  | jmp _ => exact execJmp_writesOnly h
  | jsr _ => exact execJsr_writesOnly h
  | rts => exact execRts_writesOnly h
  | pha | php => exact conclude_writesOnly h (push_writesOnly (by decide) (by decide) base _)
  | pla => exact execPla_writesOnly h
  | plp => exact execPlp_writesOnly h
  | brk => exact conclude_writesOnly h (takeInterrupt_writesOnly .brk s)
  | rti => exact conclude_writesOnly h (returnFromInterrupt_writesOnly s)
  | unsupported _ => exact conclude_writesOnly (e := .raised _ s) h base

end Sys2Proof.Machine

/-! PROOFS. What a whole step leaves: the platform, the latched vectors, the canonical form of the memory, and CLK but for
the cycles it counts. Each case of the step is framed once, so that a statement about steps is read off. -/

namespace Sys2Proof.Machine

/-- From `s` to `t` the platform and the latched vectors stay, a memory in canonical form is still one, and CLK has grown
by `cycles`. -/
structure StepFrame (cycles : Nat) (s t : State) : Prop where
  platform : t.platform = s.platform
  vectors : t.nmiVec = s.nmiVec ∧ t.resetVec = s.resetVec ∧ t.irqVec = s.irqVec
  canonical : s.Inv → t.Inv
  clk : t.clk = s.clk + cycles

section frames

variable {W : List Component} {s t u : State} {m n : Nat}

theorem WritesOnly.stepFrame (h : WritesOnly W s t) (hW : ∀ c ∈ [Component.platform, .vectors, .clk], c ∉ W) :
    StepFrame 0 s t where
  platform := h.same .platform (hW _ (by decide))
  vectors := h.same .vectors (hW _ (by decide))
  canonical := h.canonical
  clk := h.same .clk (hW _ (by decide))

/-- Cycles counted after a part of a step that counts none. -/
theorem StepFrame.count (h : StepFrame 0 s t) (n : Nat) : StepFrame n s (t.withClk (t.clk + n)) :=
  ⟨h.platform, h.vectors, h.canonical, by simp [h.clk]⟩

/-- A frame may start after the updates with which a step prepares its work. -/
theorem StepFrame.after (h : StepFrame 0 s t) (h' : StepFrame n t u) : StepFrame n s u where
  platform := h'.platform.trans h.platform
  vectors := by simp [h.vectors, h'.vectors]
  canonical hs := h'.canonical (h.canonical hs)
  clk := by rw [h'.clk, h.clk, Nat.add_zero]

/-! ## Interrupt entries and instruction cycles -/

theorem enter_runState (k : InterruptKind) (s : State) : (k.enter s).runState = s.runState := by
  cases k <;> rfl

/-- Taking an interrupt leaves run_state when it completes. -/
theorem takeInterrupt_runState {k : InterruptKind} {v : Unit} (h : takeInterrupt k s = .done v t) :
    t.runState = s.runState := by
  obtain e | ⟨f, e⟩ | ⟨f, e⟩ | ⟨f, e⟩ := takeInterrupt_cases k s <;> rw [e] at h <;> cases h
  exact enter_runState k _

/-- An entry counts its cycles when it completes, and none when it faults (60_exceptions.md R245, R236). -/
theorem interruptEntry_frame {pc0 : Option Word} {k : InterruptKind}
    (h : conclude pc0 (interruptEntry k s) = .next t) :
    (StepFrame 0 s t ∧ t.runState ≠ .running) ∨ (StepFrame interruptCycles s t ∧ t.runState = s.runState) := by
  have frame : StepFrame 0 s (takeInterrupt k s).state :=
    (takeInterrupt_writesOnly k s).stepFrame (by cases k <;> decide)
  cases e : takeInterrupt k s with
  | done v u =>
    rw [e] at frame
    rw [interruptEntry, e] at h
    have hrun := takeInterrupt_runState e
    exact .inr (Host.Outcome.next.inj h ▸ ⟨frame.count interruptCycles, hrun⟩)
  | raised f u =>
    rw [e] at frame
    rw [interruptEntry, e] at h
    exact .inl (Host.Outcome.next.inj h ▸ ⟨⟨frame.platform, frame.vectors, frame.canonical, frame.clk⟩, nofun⟩)

/-- What is retired ran to a next state, and CLK grows unless it faulted (30_encoding.md R83 line 12). -/
theorem retire_cases {r : Host.Outcome State Fault Refusal} (h : retire n r = .next t) :
    ∃ u, r = .next u ∧
      ((u.runState = .running ∧ t = u.withClk (u.clk + n)) ∨ (u.runState ≠ .running ∧ t = u)) := by
  cases r with
  | next u =>
    refine ⟨u, rfl, ?_⟩
    by_cases hu : u.runState = .running
    · exact .inl ⟨hu, by simpa [retire, hu, eq_comm] using h⟩
    · exact .inr ⟨hu, by simpa [retire, hu, eq_comm] using h⟩
  | fault f => cases h
  | refused f => cases h

/-- An instruction cycle counts the base cycles of the opcode at PC when it completes, and none when it faults. -/
theorem instructionCycle_frame (h : instructionCycle s = .next t) :
    (StepFrame 0 s t ∧ t.runState ≠ .running) ∨
      (StepFrame (lookup (byteAt s s.pc)).cycles s t ∧ t.runState = .running) := by
  have refl := WritesOnly.refl [.pc] s
  obtain ⟨f, e⟩ | ⟨_, _, i, -, -, e⟩ := instructionCycle_cases s <;> rw [e] at h
  · exact .inl (Host.Outcome.next.inj h ▸ ⟨(refl.withRunState _).stepFrame (by decide), nofun⟩)
  · obtain ⟨u, hu, hcases⟩ := retire_cases h
    have advance := (refl.withPc (by decide) (s.pc + BitVec.ofNat 16 (lookup (byteAt s s.pc)).length)).stepFrame
      (by decide)
    have run : StepFrame 0 _ u := (exec_writesOnly hu).stepFrame fun c hc =>
      i.not_mem_writes (by revert c; decide)
    obtain ⟨hr, rfl⟩ | ⟨hr, rfl⟩ := hcases
    · exact .inr ⟨(advance.after run).count _, hr⟩
    · exact .inl ⟨advance.after run, hr⟩

/-! ## The step -/

/-- The cycles of a step without a reset input (R256, R285): none when the run was or is stopped, those of a completed
interrupt entry, or the base cycles of the completed instruction. -/
inductive StepCycles (s t : State) : Nat → Prop
  | stopped (h : ¬(s.runState = .running ∧ t.runState = .running)) : StepCycles s t 0
  | entry (hs : s.runState = .running) (ht : t.runState = .running) (hi : s.interrupted) :
      StepCycles s t interruptCycles
  | instruction (hs : s.runState = .running) (ht : t.runState = .running) (hi : ¬s.interrupted) :
      StepCycles s t (lookup (byteAt s s.pc)).cycles

/-- A step that is an interrupt entry, from the state prepared for it. -/
theorem entry_stepFrame {pc0 : Option Word} {k : InterruptKind} (hs : s.runState = .running) (hi : s.interrupted)
    (hu : StepFrame 0 s u) (hrun : u.runState = s.runState) (h : conclude pc0 (interruptEntry k u) = .next t) :
    ∃ n, StepFrame n s t ∧ StepCycles s t n := by
  obtain ⟨hf, ht⟩ | ⟨hf, ht⟩ := interruptEntry_frame h
  · exact ⟨0, hu.after hf, .stopped fun e => ht e.2⟩
  · exact ⟨interruptCycles, hu.after hf, .entry hs (ht.trans (hrun.trans hs)) hi⟩

/-- The frame of a step without a reset input, with the cycles it counts. -/
theorem step_frame (h : step s = .next t) (hreset : s.sample.reset = false) :
    ∃ n, StepFrame n s t ∧ StepCycles s t n := by
  have sampled := (WritesOnly.refl [.inputs, .nmiPending] s).withInputs (by decide) s.inputs.tail
  have start : StepFrame 0 s (s.withInputs s.inputs.tail) := sampled.stepFrame (by decide)
  obtain ⟨hr, -⟩ | ⟨-, hs, rfl⟩ | ⟨-, -, r, -, rfl⟩ | ⟨-, hs, -, -, hwork⟩ := step_cases h
  · simp [hreset] at hr
  · exact ⟨0, start, .stopped fun e => hs e.1⟩
  · exact ⟨0, (sampled.withRunState _).stepFrame (by decide), .stopped (by simp)⟩
  obtain ⟨hi, -, he⟩ | ⟨hi, -, -, -, he⟩ | ⟨hi, hcycle⟩ := hwork
  · exact entry_stepFrame hs hi ((sampled.withNmiPending (by decide) true).stepFrame (by decide)) rfl he
  · exact entry_stepFrame hs hi start rfl he
  · obtain ⟨hf, ht⟩ | ⟨hf, ht⟩ := instructionCycle_frame hcycle
    · exact ⟨0, start.after hf, .stopped fun e => ht e.2⟩
    · exact ⟨_, start.after hf, .instruction hs ht hi⟩

/-- A step with a reset input leaves memory and platform and clears CLK (70_reset_and_hazards.md R270, R272). -/
theorem reset_step_frame (h : step s = .next t) (hreset : s.sample.reset = true) :
    t.mem = s.mem ∧ t.platform = s.platform ∧ t.clk = 0 := by
  rw [step_eq, if_pos hreset, resetSequence_eq] at h
  split at h
  · exact Host.Outcome.next.inj h ▸ ⟨rfl, rfl, rfl⟩
  split at h
  · exact Host.Outcome.next.inj h ▸ ⟨rfl, rfl, rfl⟩
  split at h <;> exact Host.Outcome.next.inj h ▸ ⟨rfl, rfl, rfl⟩

end frames

/-! ## The statements about steps -/

/-- Settles O53: a step without a reset stores bytes only by writes that keep the form, and a reset leaves the memory. -/
theorem stepKeepsCanonicalMemory : Obligations.StepKeepsCanonicalMemory := by
  intro s t hs h
  cases hr : s.sample.reset with
  | false =>
    obtain ⟨n, hf, -⟩ := step_frame h hr
    exact hf.canonical hs
  | true =>
    obtain ⟨hmem, -, -⟩ := reset_step_frame h hr
    rwa [State.Inv, hmem]

/-- Settles O55: the frame of a step, where there is no reset input. -/
theorem vectorsChangeOnlyAtReset : Obligations.VectorsChangeOnlyAtReset := by
  intro s t h
  cases hr : s.sample.reset with
  | false =>
    obtain ⟨n, hf, -⟩ := step_frame h hr
    exact ⟨hf.platform, fun _ => hf.vectors⟩
  | true =>
    obtain ⟨-, hplatform, -⟩ := reset_step_frame h hr
    exact ⟨hplatform, nofun⟩

/-- Settles O56, by the cases of `StepCycles`. -/
theorem clkGrowsByCycles : Obligations.ClkGrowsByCycles := by
  intro s t h
  refine ⟨fun hr => (reset_step_frame h hr).2.2, fun hr => ?_⟩
  obtain ⟨n, hf, hn⟩ := step_frame h hr
  refine ⟨hf.clk ▸ Nat.le_add_right _ _, ?_⟩
  rw [hf.clk]
  cases hn with
  | stopped hstop =>
    exact ⟨fun _ => rfl, fun _ => rfl, fun hs ht => absurd ⟨hs, ht⟩ hstop, fun hs ht => absurd ⟨hs, ht⟩ hstop⟩
  | entry hs ht hi =>
    exact ⟨fun e => absurd hs e, fun e => absurd ht e, fun _ _ _ => rfl, fun _ _ e => absurd hi e⟩
  | instruction hs ht hi =>
    exact ⟨fun e => absurd hs e, fun e => absurd ht e, fun _ _ e => absurd e hi, fun _ _ _ => rfl⟩

/-- Settles O43: the step takes the sample off and, in a stopped run, does nothing else. -/
theorem onlyResetLeavesAStoppedRun : Obligations.OnlyResetLeavesAStoppedRun := by
  intro s hs hr
  rw [step_eq, if_neg (by simp [hr]), if_neg hs, State.withInputs_eq]

end Sys2Proof.Machine

/-! PROOFS. The frames over all instructions: what changed was written, and what is written is in the table. -/

namespace Sys2Proof.Machine

/-- A part of the state that an instruction changed is one its operation writes. -/
theorem operation_mem_writers_of_changed {i : Instr} {s t : State} (h : exec i s = .next t) {c : Component}
    (hc : ¬c.Same s t) : i.operation ∈ c.writers :=
  i.operation_mem_writers c ((exec_writesOnly h).mem_of_changed hc)

/-- Settles O57: no operation writes a part of the system state. -/
theorem instructionsLeaveTheSystemState : Obligations.InstructionsLeaveTheSystemState := by
  intro i s t h
  have kept : ∀ c : Component, c.writers = [] → c.Same s t := fun c hc =>
    (exec_writesOnly h).same c (i.not_mem_writes hc)
  obtain ⟨hnmi, hreset, hirq⟩ := kept .vectors rfl
  exact ⟨hnmi, hreset, hirq, kept .clk rfl, kept .nmiPending rfl, kept .platform rfl, kept .inputs rfl⟩

/-- Settles O58, register by register. -/
theorem onlyTheirInstructionsWriteRegisters : Obligations.OnlyTheirInstructionsWriteRegisters := by
  intro i s t h
  have writer {c : Component} (hc : ¬c.Same s t) := operation_mem_writers_of_changed h hc
  refine ⟨fun ha => ?_, writer (c := .x), writer (c := .y), writer (c := .sp), writer (c := .pc)⟩
  have row : .a ∈ i.writes := (exec_writesOnly h).mem_of_changed ha
  exact (List.mem_append.1 (writer (c := .a) ha)).imp_right fun hi => ⟨hi, i.shift_writes_a row hi⟩

/-- Settles O59, flag by flag. -/
theorem onlyTheirInstructionsWriteFlags : Obligations.OnlyTheirInstructionsWriteFlags := by
  intro i s t h
  have writer (f : Flag) (hf : ¬(Component.flag f).Same s t) := operation_mem_writers_of_changed h hf
  exact ⟨writer .n, writer .z, writer .v, writer .b5, writer .b4, writer .d, writer .i, writer .c⟩

end Sys2Proof.Machine

/-! PROOFS. The state after reset over any launch memory (70_reset_and_hazards.md R270, R272, R275), and the stack's page
and pushes (10_state.md R24, 44_control_stack.md R207, R208). -/

namespace Sys2Proof.Machine

/-! ## 16-bit reads -/

section reads

variable {a : Word} {s : State}

theorem memRead16_error {f : Fault} (h : memRead16 a s = .error f) : ∃ b, f = .memoryAccess b := by
  rw [memRead16_eq] at h
  split_ifs at h <;> exact ⟨_, (Except.error.inj h).symm⟩

/-- A read of two addressable bytes, below 0xFFFF, is their little-endian word (20_memory.md R56). -/
theorem memRead16_addressable (ha : a.toNat < 0xFFFF) (h0 : addressable s.platform a = true)
    (h1 : addressable s.platform (a + 1#16) = true) :
    ∃ w, memRead16 a s = .ok w ∧
      w.toNat = (Memory.read s.mem a.toNat).toNat + 256 * (Memory.read s.mem (a.toNat + 1)).toNat := by
  have hne : a ≠ 0xFFFF#16 := by rintro rfl; exact absurd ha (by decide)
  have hsucc : (a + 1#16).toNat = a.toNat + 1 := by bv_omega
  refine ⟨joinBytes (byteAt s (a + 1#16)) (byteAt s a), by simp [memRead16_eq, hne, h0, h1], ?_⟩
  rw [joinBytes_toNat, byteAt, byteAt, hsucc]

/-- A read of two bytes below 0xFFFF faults at the first that is not addressable. -/
theorem memRead16_hole {b : Word} (ha : a.toNat < 0xFFFF) (hb : a.toNat ≤ b.toNat ∧ b.toNat ≤ a.toNat + 1)
    (hole : addressable s.platform b = false)
    (before : ∀ c : Word, a.toNat ≤ c.toNat → c.toNat < b.toNat → addressable s.platform c = true) :
    memRead16 a s = .error (.memoryAccess b) := by
  have hne : a ≠ 0xFFFF#16 := by rintro rfl; exact absurd ha (by decide)
  obtain rfl | hab := eq_or_ne b a
  · simp [memRead16_eq, hole]
  · obtain rfl : b = a + 1#16 := by bv_omega
    simp [memRead16_eq, hne, before a le_rfl (by bv_omega), hole]

end reads

/-! ## The launch -/

section launch

variable {p : Platform} {m : Memory} {inputs : List Sample}

/-- A launch ends at the vector of its memory, running, or with the MemoryAccessFault of a vector read. -/
theorem launch_runState : (launch p m inputs).runState = .running ∨
    ∃ a, (launch p m inputs).runState = .faulted ⟨.memoryAccess a, none⟩ := by
  rw [launch_eq]
  dsimp only
  split
  · next hf => obtain ⟨a, rfl⟩ := memRead16_error hf; exact .inr ⟨a, rfl⟩
  split
  · next hf => obtain ⟨a, rfl⟩ := memRead16_error hf; exact .inr ⟨a, rfl⟩
  split
  · next hf => obtain ⟨a, rfl⟩ := memRead16_error hf; exact .inr ⟨a, rfl⟩
  · exact .inl rfl

theorem launch_noInternalFault : (launch p m inputs).NoInternalFault := by
  intro r hr
  obtain h | ⟨a, h⟩ := launch_runState (p := p) (m := m) (inputs := inputs) <;> rw [h] at hr <;> cases hr
  rfl

/-- Where every vector byte is addressable, a launch has the reset values and the vectors of its memory (R270). -/
theorem launch_addressable (h : ∀ a : Word, 0xFFFA ≤ a.toNat → addressable p a = true) :
    ∃ nmi reset irq : Word,
      nmi.toNat = (Memory.read m 0xFFFA).toNat + 256 * (Memory.read m 0xFFFB).toNat ∧
      reset.toNat = (Memory.read m 0xFFFC).toNat + 256 * (Memory.read m 0xFFFD).toNat ∧
      irq.toNat = (Memory.read m 0xFFFE).toNat + 256 * (Memory.read m 0xFFFF).toNat ∧
      launch p m inputs = { State.reset with
        mem := m, platform := p, inputs := inputs, pc := reset, nmiVec := nmi, resetVec := reset, irqVec := irq } := by
  let s : State := { State.reset with mem := m, platform := p, inputs := inputs }
  have vector {v : Word} (hv : 0xFFFA ≤ v.toNat) (hv' : v.toNat < 0xFFFF) :=
    memRead16_addressable (s := s) hv' (h v hv) (h (v + 1#16) (by bv_omega))
  obtain ⟨nmi, enmi, hnmi⟩ := vector (v := 0xFFFA#16) (by decide) (by decide)
  obtain ⟨reset, ereset, hreset⟩ := vector (v := 0xFFFC#16) (by decide) (by decide)
  obtain ⟨irq, eirq, hirq⟩ := vector (v := 0xFFFE#16) (by decide) (by decide)
  refine ⟨nmi, reset, irq, hnmi, hreset, hirq, ?_⟩
  rw [launch_eq]
  simp only [s] at enmi ereset eirq
  simp only [enmi, ereset, eirq]

/-- A launch faults at the first vector byte that is not addressable (R272). -/
theorem launch_hole {a : Word} (ha : 0xFFFA ≤ a.toNat) (hole : addressable p a = false)
    (before : ∀ b : Word, 0xFFFA ≤ b.toNat → b.toNat < a.toNat → addressable p b = true) :
    (launch p m inputs).runState = .faulted ⟨.memoryAccess a, none⟩ := by
  let s : State := { State.reset with mem := m, platform := p, inputs := inputs }
  have read {v : Word} (hv : 0xFFFA ≤ v.toNat ∧ v.toNat < 0xFFFF) (hlt : v.toNat + 1 < a.toNat) :
      ∃ w, memRead16 v s = .ok w := by
    obtain ⟨w, e, -⟩ := memRead16_addressable (s := s) hv.2 (before v hv.1 (by omega))
      (before (v + 1#16) (by bv_omega) (by bv_omega))
    exact ⟨w, e⟩
  have fault {v : Word} (hv : 0xFFFA ≤ v.toNat ∧ v.toNat < 0xFFFF) (hva : v.toNat ≤ a.toNat ∧ a.toNat ≤ v.toNat + 1) :
      memRead16 v s = .error (.memoryAccess a) :=
    memRead16_hole hv.2 hva hole fun c hc => before c (hv.1.trans hc)
  rw [launch_eq]
  by_cases h1 : a.toNat ≤ 0xFFFB
  · simp only [s, fault (v := 0xFFFA#16) (by decide) ⟨ha, h1⟩]
    rfl
  obtain ⟨nmi, hnmi⟩ := read (v := 0xFFFA#16) (by decide) (Nat.lt_of_not_le h1)
  by_cases h2 : a.toNat ≤ 0xFFFD
  · simp only [s, hnmi, fault (v := 0xFFFC#16) (by decide) ⟨Nat.lt_of_not_le h1, h2⟩]
    rfl
  obtain ⟨reset, hreset⟩ := read (v := 0xFFFC#16) (by decide) (Nat.lt_of_not_le h2)
  simp only [s, hnmi, hreset, fault (v := 0xFFFE#16) (by decide) ⟨Nat.lt_of_not_le h2, Nat.le_of_lt_succ a.isLt⟩]
  rfl

end launch

/-- Settles O54: the reset state by evaluation, any launch memory as a list of writes, and the launch by its vector
reads. -/
theorem resetStateIsCanonical : Obligations.ResetStateIsCanonical := by
  refine ⟨⟨rfl, nofun, rfl, ⟨rfl, rfl, rfl, by decide⟩, rfl, rfl⟩, fun contents => ?_, fun p m inputs => ?_⟩
  · obtain ⟨m, hm, hread⟩ := Memory.exists_below (fun n => contents (BitVec.ofNat 16 n)) 65536 le_rfl
    exact ⟨m, hm, fun a => by rw [hread _ a.isLt, BitVec.ofNat_toNat, BitVec.setWidth_eq]⟩
  · have hmem := (launch_frame p m inputs).1
    exact ⟨fun hm => by rwa [State.Inv, hmem], launch_noInternalFault, hmem, launch_addressable, fun _ => launch_hole⟩

/-! ## The stack -/

/-- Settles O30: SP has eight bits. -/
theorem stackAddressIsInItsPage : Obligations.StackAddressIsInItsPage := by
  intro sp
  rw [stackAddress_toNat]
  omega

/-- A push of an instruction stores its byte and decrements SP, or faults (44_control_stack.md R190). -/
theorem instruction_push (v : Byte) (s : State) :
    (addressable s.platform (stackAddress s.sp) = true →
      instruction 1 s (push v s) =
        .next { s with mem := Memory.write s.mem (stackAddress s.sp).toNat v, sp := s.sp - 1#8 }) ∧
    (addressable s.platform (stackAddress s.sp) = false →
      instruction 1 s (push v s) =
        .next (raiseFault (.memoryAccess (stackAddress s.sp)) (some (s.pc - 1#16)) s)) := by
  constructor <;> intro h <;> rw [push_eq, h] <;> rfl

/-- Settles O34: PHA and PHP are one push, of A and of the software encoding of P. -/
theorem phaAndPhpPush : Obligations.PhaAndPhpPush := by
  intro s
  obtain ⟨pha, phaFault⟩ := instruction_push s.a s
  obtain ⟨php, phpFault⟩ := instruction_push (softwareStatus s.p) s
  refine ⟨fun h => ⟨⟨_, memoryAfter_one s _ _, pha h⟩, ?_⟩, fun h => ⟨phaFault h, phpFault h⟩⟩
  exact ⟨_, _, softwareStatus_statusAfter s.p, memoryAfter_one s _ _, php h⟩

end Sys2Proof.Machine

/-! PROOFS. The memory contract (20_memory.md R51, R52, R56, R57): a stored byte is read back, and what the 16-bit read
and the fetch read answer. -/

namespace Sys2Proof.Machine

/-- Settles O6, by the one law of reading and writing a memory. -/
theorem storedByteIsReadBack : Obligations.StoredByteIsReadBack := by
  intro a v s
  rw [memWrite_eq, memRead_eq]
  exact ⟨fun h => ⟨_, memoryAfter_one s a v, if_pos h⟩, fun h => if_neg (by simp [h]), fun h => if_pos h,
    fun h => if_neg (by simp [h])⟩

/-- Settles O7: two byte reads below 0xFFFF, where the sum `a + 1` is not taken modulo 2^16. -/
theorem wordReadIsLittleEndianWithoutPageWrap : Obligations.WordReadIsLittleEndianWithoutPageWrap := by
  intro a s
  refine ⟨fun ha => by simp [memRead16_eq, ha], fun ha => ?_⟩
  have hlt : a.toNat < 0xFFFF := by bv_omega
  have hsucc : (a + 1#16).toNat = a.toNat + 1 := by bv_omega
  refine ⟨memRead16_addressable hlt, fun hole => ?_, fun h hole => ?_⟩
  · exact memRead16_hole hlt (by omega) hole fun c _ _ => by omega
  · refine memRead16_hole hlt (by omega) hole fun c _ _ => ?_
    obtain rfl : c = a := by bv_omega
    exact h

/-- A fetch read that stays in the address space is the byte reads one after another (20_memory.md R57). -/
theorem memReadN_eq_memReadUp {a : Word} {n : Nat} (h : a.toNat + n ≤ 0x10000) (s : State) :
    memReadN a n s = memReadUp a s n :=
  if_neg (Nat.not_lt.2 h)

/-- A byte above an address, where the sum of the two stays in the address space. -/
theorem byteAt_add_ofNat {a : Word} {k : Nat} (h : a.toNat + k < 0x10000) (s : State) :
    byteAt s (a + BitVec.ofNat 16 k) = Memory.read s.mem (a.toNat + k) := by
  have sum : (a + BitVec.ofNat 16 k).toNat = a.toNat + k := by
    rw [BitVec.toNat_add, BitVec.toNat_ofNat]
    omega
  rw [byteAt, sum]

/-- Settles O8: a read in the address space is a run of byte reads. -/
theorem fetchReadIsAscendingAndBounded : Obligations.FetchReadIsAscendingAndBounded := by
  intro a n s
  refine ⟨fun h => if_pos h, fun h => ?_⟩
  rw [memReadN_eq_memReadUp h]
  refine ⟨fun all => ?_, fun k hk hole before => memReadUp_hole s n k a hk before hole⟩
  obtain ⟨bs, hbs⟩ := memReadUp_total s n a all
  rw [hbs, memReadUp_ok hbs]
  refine congrArg Except.ok (List.map_congr_left fun k hk => byteAt_add_ofNat ?_ s)
  have := List.mem_range.1 hk
  omega

end Sys2Proof.Machine

/-! PROOFS. Which bytes of memory an instruction writes (20_memory.md R63): for each shape of an instruction rule that
stores, the bytes of the shape's own cases, completed or faulted. -/

namespace Sys2Proof.Machine

section stores

variable {s t : State}

/-- Where the memory is one after stores, every byte but the stored ones reads as before. -/
theorem SameMemoryOutside.of_stores {W : List Word} {w : List (Word × Byte)} (h : MemoryAfter s t.mem w)
    (hw : w.map Prod.fst ⊆ W) : SameMemoryOutside W s t :=
  fun a ha => h.sameOutside a fun hm => ha (hw hm)

theorem SameMemory.of_mem_eq (h : t.mem = s.mem) : SameMemory s t := byteAt_congr h

theorem SameMemory.outside (h : SameMemory s t) (W : List Word) : SameMemoryOutside W s t := fun a _ => h a

/-! ## Stores to the operand -/

/-- What an instruction that stores to its operand leaves of memory: all but the effective address, and everything where
the operand has none (R104, R105). -/
def StoresToOperand (o : Operand) (s t : State) : Prop :=
  (∀ a, resolve o s = .ok (.addr a) → SameMemoryOutside [a] s t) ∧
    ((∀ a, resolve o s ≠ .ok (.addr a)) → SameMemory s t)

theorem StoresToOperand.of_same {o : Operand} (h : SameMemory s t) : StoresToOperand o s t :=
  ⟨fun a _ => h.outside [a], fun _ => h⟩

/-- One byte stored at the effective address. -/
theorem StoresToOperand.of_store {o : Operand} {a : Word} {v : Byte} (ha : resolve o s = .ok (.addr a))
    (h : MemoryAfter s t.mem [(a, v)]) : StoresToOperand o s t := by
  refine ⟨fun b hb => ?_, fun hn => absurd ha (hn a)⟩
  obtain rfl : a = b := by simpa [ha] using hb
  exact .of_stores h (by simp)

theorem storeRegister_storesToOperand {o : Operand} {v : Byte} (h : storeRegister o v s = .next t) :
    StoresToOperand o s t := by
  obtain ⟨a, ha, rfl⟩ | ⟨r, rfl⟩ := storeRegister_cases h
  · exact .of_store ha (memoryAfter_one s _ _)
  · exact .of_same (.of_mem_eq rfl)

theorem readModifyWrite_storesToOperand {accepts : Input → Bool} {o : Operand} {r : Byte → Byte}
    {st : Byte → Byte → Byte} (h : readModifyWrite accepts o s r st = .next t) : StoresToOperand o s t := by
  obtain ⟨a, ha, rfl⟩ | ⟨-, -, rfl⟩ | ⟨r, rfl⟩ := readModifyWrite_cases h
  · exact .of_store ha (memoryAfter_one s _ _)
  · exact .of_same (.of_mem_eq rfl)
  · exact .of_same (.of_mem_eq rfl)

/-- The stores and the read-modify-write instructions. -/
theorem exec_storesToOperand {i : Instr} (h : exec i s = .next t)
    (hi : i.operation ∈ [Operation.sta, .stx, .sty, .asl, .lsr, .rol, .ror, .inc, .dec]) :
    StoresToOperand i.operand s t := by
  cases i with
  | sta _ | stx _ | sty _ => exact storeRegister_storesToOperand h
  | asl _ | lsr _ | rol _ | ror _ | inc _ | dec _ => exact readModifyWrite_storesToOperand h
  | _ => simp [Instr.operation] at hi

/-! ## Stores to the stack -/

theorem push_sameOutside {v : Byte} (h : instruction 1 s (push v s) = .next t) :
    SameMemoryOutside [stackAddress s.sp] s t := by
  obtain rfl | ⟨r, rfl⟩ := push_cases h
  · exact .of_stores (memoryAfter_one s _ _) (by simp)
  · exact .of_stores (memoryAfter_self s) (by simp)

theorem execJsr_sameOutside {a : Word} (h : execJsr a s = .next t) :
    SameMemoryOutside [stackAddress s.sp, stackAddress (s.sp - 1#8)] s t := by
  obtain rfl | ⟨r, rfl⟩ | ⟨r, rfl⟩ := execJsr_cases h
  · exact .of_stores (memoryAfter_write (memoryAfter_one s _ _) _ _) (by simp)
  · exact .of_stores (memoryAfter_one s _ _) (by simp)
  · exact .of_stores (memoryAfter_self s) (by simp)

theorem execBrk_sameOutside (h : execBrk s = .next t) :
    SameMemoryOutside [stackAddress s.sp, stackAddress (s.sp - 1#8), stackAddress (s.sp - 2#8)] s t := by
  obtain rfl | ⟨r, rfl⟩ | ⟨r, rfl⟩ | ⟨r, rfl⟩ := execBrk_cases h
  · exact .of_stores (memoryAfter_write (memoryAfter_write (memoryAfter_one s _ _) _ _) _ _) (by simp)
  · exact .of_stores (memoryAfter_write (memoryAfter_one s _ _) _ _) (by simp)
  · exact .of_stores (memoryAfter_one s _ _) (by simp)
  · exact .of_stores (memoryAfter_self s) (by simp)

theorem execPla_sameOutside (h : execPla s = .next t) : SameMemoryOutside [stackAddress (s.sp + 1#8)] s t := by
  obtain rfl | ⟨r, rfl⟩ := execPla_cases h
  · exact .of_stores (memoryAfter_one s _ 0#8) (by simp)
  · exact .of_stores (memoryAfter_self s) (by simp)

theorem execPlp_sameOutside (h : execPlp s = .next t) : SameMemoryOutside [stackAddress (s.sp + 1#8)] s t := by
  obtain rfl | ⟨r, rfl⟩ := execPlp_cases h
  · exact .of_stores (memoryAfter_one s _ 0#8) (by simp)
  · exact .of_stores (memoryAfter_self s) (by simp)

theorem execRts_sameOutside (h : execRts s = .next t) :
    SameMemoryOutside [stackAddress (s.sp + 1#8), stackAddress (s.sp + 2#8)] s t := by
  obtain rfl | ⟨r, rfl⟩ | ⟨r, rfl⟩ := execRts_cases h
  · exact .of_stores (memoryAfter_write (memoryAfter_one s _ 0#8) _ 0#8) (by simp)
  · exact .of_stores (memoryAfter_one s _ 0#8) (by simp)
  · exact .of_stores (memoryAfter_self s) (by simp)

theorem execRti_sameOutside (h : execRti s = .next t) :
    SameMemoryOutside [stackAddress (s.sp + 1#8), stackAddress (s.sp + 2#8), stackAddress (s.sp + 3#8)] s t := by
  obtain rfl | ⟨r, rfl⟩ | ⟨r, rfl⟩ | ⟨r, rfl⟩ := execRti_cases h
  · exact .of_stores (memoryAfter_write (memoryAfter_write (memoryAfter_one s _ 0#8) _ 0#8) _ 0#8) (by simp)
  · exact .of_stores (memoryAfter_write (memoryAfter_one s _ 0#8) _ 0#8) (by simp)
  · exact .of_stores (memoryAfter_one s _ 0#8) (by simp)
  · exact .of_stores (memoryAfter_self s) (by simp)

/-! ## Every other instruction -/

theorem exec_sameMemory {i : Instr} (h : exec i s = .next t) (hi : i.operation ∉ Component.mem.writers) :
    SameMemory s t :=
  .of_mem_eq <| Decidable.byContradiction fun hm => hi (operation_mem_writers_of_changed h (c := .mem) hm)

end stores

/-- Settles O60: the stores to the operand, each stack instruction by its own bytes, and the other instructions by the
table of what an operation writes. -/
theorem onlyStoredBytesChange : Obligations.OnlyStoredBytesChange := by
  intro i s t h
  refine ⟨exec_storesToOperand h, fun hi => ?push, fun hi => ?jsr, fun hi => ?brk, fun hi => ?pull, fun hi => ?rts,
    fun hi => ?rti, exec_sameMemory h⟩
  case push =>
    cases i with
    | pha | php => exact push_sameOutside h
    | _ => simp [Instr.operation] at hi
  case jsr =>
    cases i with
    | jsr a => exact execJsr_sameOutside h
    | _ => cases hi
  case brk =>
    cases i with
    | brk => exact execBrk_sameOutside h
    | _ => cases hi
  case pull =>
    cases i with
    | pla => exact execPla_sameOutside h
    | plp => exact execPlp_sameOutside h
    | _ => simp [Instr.operation] at hi
  case rts =>
    cases i with
    | rts => exact execRts_sameOutside h
    | _ => cases hi
  case rti =>
    cases i with
    | rti => exact execRti_sameOutside h
    | _ => cases hi

end Sys2Proof.Machine

/-! PROOFS. Decoding and encoding (30_encoding.md R80 to R88, R106, R107): an instruction is well-formed with an opcode
byte exactly where the table gives the byte its operation and mode, and decoding is the inverse of encoding on those.
-/

namespace Sys2Proof

/-! ## The opcode of an instruction -/

/-- The table gives the byte `b` the instruction's operation and mode, and an undefined opcode carries its own byte
(R84, R86). -/
structure Instr.HasOpcode (i : Instr) (b : Byte) : Prop where
  operation : (lookup b).operation = i.operation
  mode : (lookup b).mode = i.operand.mode
  undefined : ∀ c, i = .unsupported c → c = b

theorem Instr.opcode_of_defined {i : Instr} (h : i.operation ≠ .unsupported) :
    i.opcode = opcodeOf i.operation i.operand.mode := by
  cases i with
  | unsupported c => exact absurd rfl h
  | _ => rfl

theorem Instr.wf_of_defined {i : Instr} (h : i.operation ≠ .unsupported) :
    i.wf = i.operation.modes.contains i.operand.mode := by
  cases i with
  | unsupported c => exact absurd rfl h
  | _ => exact Bool.and_true _

theorem Instr.wf_unsupported (c : Byte) :
    (Instr.unsupported c).wf = ((lookup c).operation == .unsupported) :=
  mem_undefinedBytes c

theorem Instr.hasOpcode_unsupported (c b : Byte) :
    (Instr.unsupported c).HasOpcode b ↔ (Instr.unsupported c).wf = true ∧ c = b := by
  rw [wf_unsupported, beq_iff_eq]
  constructor
  · intro h
    obtain rfl := h.undefined c rfl
    exact ⟨h.operation, rfl⟩
  · rintro ⟨h, rfl⟩
    exact ⟨h, by rw [lookup_unsupported h]; rfl, fun d hd => (Instr.unsupported.inj hd).symm⟩

theorem Instr.hasOpcode_defined {i : Instr} (hi : i.operation ≠ .unsupported) (b : Byte) :
    i.HasOpcode b ↔ i.wf = true ∧ i.opcode = some b := by
  rw [wf_of_defined hi, opcode_of_defined hi]
  constructor
  · intro h
    have hb : undefinedBytes.contains b = false := by rw [mem_undefinedBytes, h.operation]; simpa using hi
    obtain ⟨hopcode, -, hmode, -⟩ := lookup_defined hb
    rw [h.operation, h.mode] at hopcode hmode
    exact ⟨hmode, hopcode⟩
  · rintro ⟨-, h⟩
    obtain ⟨hop, hmode, -⟩ := lookup_opcodeOf h
    exact ⟨hop, hmode, fun c hc => absurd (congrArg Instr.operation hc) hi⟩

/-- The table of R106 and the operand lists of the instruction rules agree: what the table says of a byte is what makes
an instruction well-formed with that opcode. -/
theorem Instr.hasOpcode_iff (i : Instr) (b : Byte) : i.HasOpcode b ↔ i.wf = true ∧ i.opcode = some b := by
  by_cases hi : i.operation = .unsupported
  · cases i with
    | unsupported c => rw [hasOpcode_unsupported]; simp [opcode]
    | _ => cases hi
  · exact hasOpcode_defined hi b

theorem Instr.exists_hasOpcode {i : Instr} (h : i.wf = true) : ∃ b, i.HasOpcode b := by
  by_cases hi : i.operation = .unsupported
  · cases i with
    | unsupported c => exact ⟨c, (hasOpcode_unsupported c c).2 ⟨h, rfl⟩⟩
    | _ => cases hi
  · obtain ⟨b, hb⟩ := Option.isSome_iff_exists.1 (Laws.opcode_of_wf hi (opcode_of_defined hi) h)
    exact ⟨b, (hasOpcode_iff i b).2 ⟨h, hb⟩⟩

/-- An instruction has the length of its opcode's shape. -/
theorem Instr.HasOpcode.length {i : Instr} {b : Byte} (h : i.HasOpcode b) : (lookup b).length = i.length := by
  rw [lookup_length, h.mode]
  rfl

theorem Instr.HasOpcode.encode_eq {i : Instr} {b : Byte} (h : i.HasOpcode b) : encode i = b :: i.operand.bytes := by
  simp only [encode, ((hasOpcode_iff i b).1 h).2]

/-! ## Decoding -/

theorem decode_cons {b : Byte} {bs rest : List Byte} {o : Operand} {i : Instr}
    (ho : decodeOperand (lookup b).mode bs = .ok (o, rest)) (hi : assemble b o (lookup b).operation = .ok i) :
    decode (b :: bs) = .ok (i, rest) := by
  simp only [decode, ho, hi]

/-- Bytes decode to an instruction exactly when they are its opcode, its operand bytes and what is left over. -/
theorem decode_ok_iff {bytes rest : List Byte} {i : Instr} :
    decode bytes = .ok (i, rest) ↔ ∃ b, i.HasOpcode b ∧ bytes = b :: (i.operand.bytes ++ rest) := by
  constructor
  · intro h
    cases bytes with
    | nil => cases h
    | cons b bs =>
      rw [decode] at h
      split at h
      · cases h
      next o rest' ho =>
        split at h
        · cases h
        next j hj =>
          obtain ⟨rfl, rfl⟩ : j = i ∧ rest' = rest := by simpa using h
          obtain ⟨hmode, rfl⟩ := decodeOperand_ok ho
          obtain ⟨hop, rfl, hundef⟩ := assemble_ok hj
          exact ⟨b, ⟨hop.symm, hmode.symm, hundef⟩, rfl⟩
  · rintro ⟨b, h, rfl⟩
    refine decode_cons (o := i.operand) ?_ ?_
    · rw [h.mode, decodeOperand_bytes]
    · rw [h.operation, assemble_self b i h.undefined]

/-! ## Every byte decodes -/

/-- The table pairs an operation only with modes of its rule (R103). -/
theorem lookup_mode_mem (b : Byte) : (lookup b).mode ∈ (lookup b).operation.modes := by
  cases h : undefinedBytes.contains b with
  | false => simpa using (lookup_defined h).2.2.1
  | true => rw [lookup_undefined h]; decide

theorem withImplied_of_mode {o : Operand} (h : o.mode = .implied) (i : Instr) : withImplied i o = .ok i := by
  cases o with
  | implied => rfl
  | _ => cases h

theorem withRelative_of_mode {o : Operand} (h : o.mode = .relative) (i : Byte → Instr) :
    ∃ d, withRelative i o = .ok (i d) := by
  cases o with
  | relative d => exact ⟨d, rfl⟩
  | _ => cases h

theorem withAbsolute_of_mode {o : Operand} (h : o.mode = .absolute) (i : Word → Instr) :
    ∃ a, withAbsolute i o = .ok (i a) := by
  cases o with
  | absolute a => exact ⟨a, rfl⟩
  | _ => cases h

/-- An operation takes every operand in a mode of its rule (R103). -/
theorem assemble_total {op : Operation} {o : Operand} (h : o.mode ∈ op.modes) (b : Byte) :
    ∃ i, assemble b o op = .ok i := by
  cases op with
  | lda | ldx | ldy | sta | stx | sty | adc | sbc | cmp | cpx | cpy | and | ora | eor | bit | asl | lsr | rol | ror
  | inc | dec | jmp => exact ⟨_, rfl⟩
  | bcc | bcs | beq | bne | bmi | bpl | bvc | bvs =>
    exact (withRelative_of_mode (List.mem_singleton.1 h) _).imp' _ fun _ => id
  | jsr => exact (withAbsolute_of_mode (List.mem_singleton.1 h) _).imp' _ fun _ => id
  | _ => exact ⟨_, withImplied_of_mode (List.mem_singleton.1 h) _⟩

/-- The bytes of a shape's length decode (R88). -/
theorem decode_total {b : Byte} {bs : List Byte} (h : (lookup b).length ≤ bs.length + 1) :
    ∃ i, decode (b :: bs) = .ok (i, bs.drop ((lookup b).length - 1)) := by
  rw [lookup_length] at h ⊢
  obtain ⟨o, ho⟩ := decodeOperand_total (lookup b).mode bs h
  obtain ⟨i, hi⟩ := assemble_total (o := o) ((decodeOperand_ok ho).1 ▸ lookup_mode_mem b) b
  exact ⟨i, decode_cons ho hi⟩

/-! ## The statements about the encoding -/

/-- Settles O1: the encoding is what decodes to the instruction. -/
theorem decodeOfEncodeIsTheInstruction : Obligations.DecodeOfEncodeIsTheInstruction := by
  intro i rest h
  obtain ⟨b, hb⟩ := i.exists_hasOpcode h
  exact decode_ok_iff.2 ⟨b, hb, by rw [hb.encode_eq, List.cons_append]⟩

/-- Settles O2: what decodes to an instruction is its opcode and operand bytes. -/
theorem decodedBytesAreTheEncoding : Obligations.DecodedBytesAreTheEncoding := by
  intro bytes i rest h
  obtain ⟨b, hb, rfl⟩ := decode_ok_iff.1 h
  exact ⟨((i.hasOpcode_iff b).1 hb).1, by rw [hb.encode_eq, List.cons_append]⟩

/-- Settles O3: decoding is total, and the decoded instruction has the opcode's shape. -/
theorem everyFetchedInstructionDecodes : Obligations.EveryFetchedInstructionDecodes := by
  intro b rest h
  obtain ⟨i, hi⟩ := decode_total h
  obtain ⟨c, hc, hbytes⟩ := decode_ok_iff.1 hi
  obtain rfl : b = c := (List.cons.inj hbytes).1
  exact ⟨i, hi, hc.operation.symm, hc.mode.symm, hc.length.symm, lookup_length b⟩

/-- Settles O4: the list of R107 and the table agree on every byte. -/
theorem undefinedBytesHaveUnsupportedShape : Obligations.UndefinedBytesHaveUnsupportedShape := by
  intro b
  have hb : b ∈ undefinedBytes ↔ (lookup b).operation = .unsupported := by
    rw [← List.contains_iff_mem, mem_undefinedBytes, beq_iff_eq]
  exact ⟨hb, fun h => lookup_unsupported (hb.1 h), rfl⟩

/-- Settles O5: the words and the rows are evaluated. -/
theorem specWordsDecode : Obligations.SpecWordsDecode := by
  unfold Obligations.SpecWordsDecode
  decide

end Sys2Proof

/-! PROOFS. What operands resolve to (30_encoding.md R89 to R102), and the loads, stores and branches (R110 to R115,
R195 to R203): an equation for each shape of an instruction rule whose operand gives a byte or an addressable address.
-/

namespace Sys2Proof.Machine

/-! ## Addressing modes -/

/-- Settles O9: each address is a sum modulo 2^8, then extended, or modulo 2^16. -/
theorem directModesResolve : Obligations.DirectModesResolve := by
  intro s b w
  have indexed (v : Byte) : (w + zext v).toNat = (w.toNat + v.toNat) % 65536 := by
    rw [BitVec.toNat_add, zext_toNat]
  have zeroPage (v : Byte) : (zext (b + v)).toNat = (b.toNat + v.toNat) % 256 := by
    rw [zext_toNat, BitVec.toNat_add]
  exact ⟨rfl, rfl, rfl, ⟨_, rfl, relativeTarget_toNat s.pc b⟩, ⟨_, rfl, zext_toNat b⟩, ⟨_, rfl, zeroPage s.x⟩,
    ⟨_, rfl, zeroPage s.y⟩, rfl, ⟨_, rfl, indexed s.x⟩, ⟨_, rfl, indexed s.y⟩⟩

theorem pointerInput_id (r : Except Fault Word) : pointerInput r id = r.map Input.addr := by
  cases r <;> rfl

/-- Settles O10: each mode is the pointer read at its location, and Y is added to the pointer. -/
theorem indirectModesDereference : Obligations.IndirectModesDereference := by
  intro s b p
  refine ⟨pointerInput_id _, ⟨zext (b + s.x), ?_, pointerInput_id _⟩, zext b, zext_toNat b, ?_⟩
  · rw [zext_toNat, BitVec.toNat_add]
  · simp only [resolve]
    cases memRead16 (zext b) s with
    | error f => exact .inl ⟨f, rfl, rfl⟩
    | ok w => exact .inr ⟨w, w + zext s.y, rfl, rfl, by rw [BitVec.toNat_add, zext_toNat]⟩

/-! ## Loads and stores -/

theorem readAndUpdate_dataByte {o : Operand} {s : State} {m : Byte} (h : DataByte o s m) (u : Byte → State) :
    readAndUpdate Input.isData o s u = .next (u m) := by
  rw [readAndUpdate_eq, operandByte_data h]

/-- Settles O11: each load is one read of the data byte. -/
theorem loadsCopyTheOperand : Obligations.LoadsCopyTheOperand := by
  intro o s
  refine ⟨fun m hm => ⟨zn m s.p, zn_statusAfter m s.p, ?_, ?_, ?_⟩, ?_, ?_, ?_⟩
  · exact readAndUpdate_dataByte hm _
  · exact readAndUpdate_dataByte hm _
  · exact readAndUpdate_dataByte hm _
  all_goals exact readAndUpdate_faultsWithOperand rfl fun _ => rfl

theorem storeRegister_addr {o : Operand} {s : State} {a : Word} (hr : resolve o s = .ok (.addr a))
    (ha : addressable s.platform a = true) (v : Byte) :
    storeRegister o v s = .next { s with mem := Memory.write s.mem a.toNat v } := by
  rw [storeRegister_eq, inputOf_accepted hr rfl]
  exact if_pos ha

/-- Settles O12: each store is one write at the effective address. -/
theorem storesWriteTheRegister : Obligations.StoresWriteTheRegister := by
  intro o s
  refine ⟨fun a hr ha => ?_, ?_, ?_, ?_⟩
  · have store (v : Byte) := storeRegister_addr hr ha v
    have stored (v : Byte) := memoryAfter_one s a v
    exact ⟨⟨_, stored s.a, store s.a⟩, ⟨_, stored s.x, store s.x⟩, ⟨_, stored s.y, store s.y⟩⟩
  all_goals exact storeRegister_faultsWithOperand rfl

/-! ## Branches -/

theorem branchIf_pc (cond : Bool) (d : Byte) (s : State) :
    branchIf cond d s = .next { s with pc := if cond = true then s.pc + sext d else s.pc } := by
  rw [branchIf_eq]
  cases cond <;> rfl

theorem branchIf_not_pc (cond : Bool) (d : Byte) (s : State) :
    branchIf (!cond) d s = .next { s with pc := if cond = false then s.pc + sext d else s.pc } := by
  rw [branchIf_eq]
  cases cond <;> rfl

/-- Settles O25: each branch is taken on its flag's value, to the one target of R93. -/
theorem branchesFollowTheirFlag : Obligations.BranchesFollowTheirFlag := by
  intro d s
  exact ⟨s.pc + sext d, relativeTarget_toNat s.pc d, branchIf_not_pc (s.flag .c) d s, branchIf_pc (s.flag .c) d s,
    branchIf_pc (s.flag .z) d s, branchIf_not_pc (s.flag .z) d s, branchIf_pc (s.flag .n) d s,
    branchIf_not_pc (s.flag .n) d s, branchIf_not_pc (s.flag .v) d s, branchIf_pc (s.flag .v) d s⟩

end Sys2Proof.Machine

/-! PROOFS. Which faults an operation, an instruction and a step can raise (60_exceptions.md R231 to R236): what reads
or writes memory raises MemoryAccessFault, and ModeOperationMismatch needs an operand of a kind that the operation does
not accept (30_encoding.md R103), which no well-formed instruction has. -/

namespace Sys2Proof.Machine

/-! ## The faults of an effect -/

/-- An effect that completes with run_state `run`, or raises a fault of `P`. -/
def Effect.RaisesOnly {α : Type} (P : Fault → Prop) (run : RunState) : Effect α → Prop
  | .done _ u => u.runState = run
  | .raised f _ => P f

section effects

variable {P : Fault → Prop} {run : RunState} {s t : State}

theorem andThen_raisesOnly {α β : Type} {e : Effect α} {k : α → State → Effect β} (he : e.RaisesOnly P run)
    (hk : ∀ v u, u.runState = run → (k v u).RaisesOnly P run) : (e.andThen k).RaisesOnly P run := by
  cases e with
  | done v u => exact hk v u he
  | raised f u => exact he

theorem onRead_raisesOnly {α β : Type} {r : Except Fault α} {k : α → Effect β} (hr : ∀ f, r = .error f → P f)
    (hk : ∀ v, r = .ok v → (k v).RaisesOnly P run) : (onRead r s k).RaisesOnly P run := by
  cases r with
  | ok v => exact hk v rfl
  | error f => exact hr f rfl

/-- A state that has faulted after an effect was already so before it, or has a fault of the effect. -/
theorem conclude_faulted {pc0 : Option Word} {e : Effect Unit} {r : FaultRecord} (h : conclude pc0 e = .next t)
    (he : e.RaisesOnly P run) (ht : t.runState = .faulted r) : run = .faulted r ∨ P r.fault := by
  cases e with
  | done v u =>
    obtain rfl := Host.Outcome.next.inj h
    exact .inl (he.symm.trans ht)
  | raised f u =>
    obtain rfl := Host.Outcome.next.inj h
    obtain rfl := RunState.faulted.inj ht
    exact .inr he

theorem memRead_error {a : Word} {f : Fault} (h : memRead a s = .error f) : f = .memoryAccess a := by
  rw [memRead_eq] at h
  split at h
  · cases h
  · exact (Except.error.inj h).symm

/-! ## Memory, the stack and interrupts -/

section access

variable (hP : ∀ a, P (.memoryAccess a)) (hs : s.runState = run)
include hP

theorem memRead16_raises {a : Word} {f : Fault} (h : memRead16 a s = .error f) : P f := by
  obtain ⟨b, rfl⟩ := memRead16_error h
  exact hP b

theorem resetSequence_raisesOnly (s : State) : (resetSequence s).RaisesOnly P .running :=
  onRead_raisesOnly (fun _ => memRead16_raises hP) fun _ _ =>
    onRead_raisesOnly (fun _ => memRead16_raises hP) fun _ _ =>
      onRead_raisesOnly (fun _ => memRead16_raises hP) fun _ _ => rfl

include hs

theorem memWrite_raisesOnly (a : Word) (v : Byte) : (memWrite a v s).RaisesOnly P run := by
  rw [memWrite_eq]
  split
  · exact hs
  · exact hP a

theorem push_raisesOnly (v : Byte) : (push v s).RaisesOnly P run :=
  andThen_raisesOnly (memWrite_raisesOnly hP hs _ v) fun _ _ h => h

theorem pull_raisesOnly : (pull s).RaisesOnly P run :=
  onRead_raisesOnly (fun _ h => memRead_error h ▸ hP _) fun _ _ =>
    andThen_raisesOnly (memWrite_raisesOnly hP (s := s.withSp (s.sp + 1#8)) hs _ _) fun _ _ h => h

theorem push16_raisesOnly (w : Word) : (push16 w s).RaisesOnly P run :=
  andThen_raisesOnly (push_raisesOnly hP hs _) fun _ _ h => push_raisesOnly hP h _

theorem pull16_raisesOnly : (pull16 s).RaisesOnly P run :=
  andThen_raisesOnly (pull_raisesOnly hP hs) fun _ _ h =>
    andThen_raisesOnly (pull_raisesOnly hP h) fun _ _ h => h

theorem takeInterrupt_raisesOnly (k : InterruptKind) : (takeInterrupt k s).RaisesOnly P run :=
  andThen_raisesOnly (push16_raisesOnly hP hs _) fun _ _ h =>
    andThen_raisesOnly (push_raisesOnly hP h _) fun _ u h => (enter_runState k u).trans h

theorem interruptEntry_raisesOnly (k : InterruptKind) : (interruptEntry k s).RaisesOnly P run :=
  andThen_raisesOnly (takeInterrupt_raisesOnly hP hs k) fun _ _ h => h

theorem returnFromInterrupt_raisesOnly : (returnFromInterrupt s).RaisesOnly P run :=
  andThen_raisesOnly (pull_raisesOnly hP hs) fun _ u h =>
    andThen_raisesOnly (pull16_raisesOnly hP (s := u.withP _) h) fun _ _ h => h

end access

end effects

/-! ## The kinds an operation accepts -/

/-- A kind check of the model is the operation's list of R103. -/
def ChecksKindsOf (accepts : Input → Bool) (op : Operation) : Prop :=
  ∀ input, accepts input = true ↔ input.kind ∈ acceptedKinds op

theorem isData_checks {op : Operation} (h : acceptedKinds op = [.imm, .addr]) : ChecksKindsOf Input.isData op := by
  intro input
  rw [h]
  cases input <;> simp [Input.isData, Input.kind]

theorem isAddress_checks {op : Operation} (h : acceptedKinds op = [.addr]) : ChecksKindsOf Input.isAddress op := by
  intro input
  rw [h]
  cases input <;> simp [Input.isAddress, Input.kind]

theorem isPlace_checks {op : Operation} (h : acceptedKinds op = [.acc, .addr]) : ChecksKindsOf Input.isPlace op := by
  intro input
  rw [h]
  cases input <;> simp [Input.isPlace, Input.kind]

theorem isPlace_iff {input : Input} : input.isPlace = true ↔ input = .acc ∨ ∃ a, input = .addr a := by
  cases input <;> simp [Input.isPlace]

/-- The kind that an operand in a mode resolves to (R90 to R102). -/
def inputKindOf : Mode → InputKind
  | .implied => .none
  | .accumulator => .acc
  | .immediate => .imm
  | _ => .addr

theorem pointerInput_kind {r : Except Fault Word} {adjust : Word → Word} {input : Input}
    (h : pointerInput r adjust = .ok input) : input.kind = .addr := by
  cases r with
  | ok w => obtain rfl := Except.ok.inj h; rfl
  | error f => cases h

theorem resolve_kind {o : Operand} {s : State} {input : Input} (h : resolve o s = .ok input) :
    input.kind = inputKindOf o.mode := by
  cases o with
  | indirect _ | indirectX _ | indirectY _ => exact pointerInput_kind h
  | _ => obtain rfl := Except.ok.inj h; rfl

/-- Every mode of an operation's rule has a kind that the operation accepts. -/
theorem inputKindOf_accepted (op : Operation) : ∀ m ∈ op.modes, inputKindOf m ∈ acceptedKinds op := by
  cases op <;> decide

/-- The operand of a well-formed instruction has a kind that its operation accepts. -/
theorem kind_accepted_of_wf {i : Instr} {s : State} {input : Input} (hi : i.wf = true)
    (h : resolve i.operand s = .ok input) : input.kind ∈ acceptedKinds i.operation := by
  have hmode : i.operand.mode ∈ i.operation.modes := by
    simpa [Instr.modeAdmitted] using (Bool.and_eq_true_iff.1 hi).1
  exact resolve_kind h ▸ inputKindOf_accepted i.operation _ hmode

/-! ## The faults of an instruction -/

/-- The faults an instruction can raise: an access that is not addressable, an undefined opcode's, and the mismatch of
an operand whose kind the operation does not accept. -/
inductive FaultOf (i : Instr) (s : State) : Fault → Prop
  | access (a : Word) : FaultOf i s (.memoryAccess a)
  | undefined {b : Byte} (h : i = .unsupported b) : FaultOf i s (.unsupportedOperation b)
  | mismatch {input : Input} (hr : resolve i.operand s = .ok input) (hk : input.kind ∉ acceptedKinds i.operation) :
      FaultOf i s .modeOperationMismatch

/-- A well-formed instruction raises no internal fault. -/
theorem FaultOf.not_internal {i : Instr} {s : State} {f : Fault} (h : FaultOf i s f) (hi : i.wf = true) :
    f.isInternal = false := by
  cases h with
  | access a => rfl
  | undefined h => rfl
  | mismatch hr hk => exact absurd (kind_accepted_of_wf hi hr) hk

/-- `r` is the answer of an effect that raises only the instruction's faults. -/
def AnswersWithFaultsOf (i : Instr) (s : State) (r : Host.Outcome State Fault Refusal) : Prop :=
  ∃ e, r = instruction i.length s e ∧ e.RaisesOnly (FaultOf i s) s.runState

section shapes

variable {i : Instr} {s : State} {accepts : Input → Bool} {f : Fault}

theorem registersOnly_faults {t : State} (h : t.runState = s.runState) : AnswersWithFaultsOf i s (registersOnly t) :=
  ⟨.done () t, rfl, h⟩

theorem branchIf_faults {cond : Bool} {d : Byte} : AnswersWithFaultsOf i s (branchIf cond d s) := by
  rw [branchIf_pc]
  exact ⟨.done () _, rfl, rfl⟩

section accepted

variable (hacc : ChecksKindsOf accepts i.operation)
include hacc

theorem inputOf_faultOf (h : inputOf accepts i.operand s = .error f) : FaultOf i s f := by
  obtain hr | ⟨rfl, input, hr, ha⟩ := inputOf_error h
  · obtain ⟨a, rfl⟩ := resolve_error hr
    exact .access a
  · exact .mismatch hr fun hk => by simp [(hacc input).2 hk] at ha

theorem operandByte_faultOf (hnone : accepts .none = false) (h : operandByte accepts i.operand s = .error f) :
    FaultOf i s f := by
  unfold operandByte at h
  split at h
  · next input hi =>
    cases input with
    | none => exact absurd (inputOf_ok hi).2 (by simp [hnone])
    | acc | imm _ => cases h
    | addr a => exact memRead_error h ▸ .access a
  · next g hg => exact Except.error.inj h ▸ inputOf_faultOf hacc hg

theorem readAndUpdate_faults {u : Byte → State} (hnone : accepts .none = false)
    (hu : ∀ m, (u m).runState = s.runState) : AnswersWithFaultsOf i s (readAndUpdate accepts i.operand s u) :=
  ⟨_, rfl, onRead_raisesOnly (fun _ => operandByte_faultOf hacc hnone) fun m _ => hu m⟩

theorem readModifyWrite_faults {result : Byte → Byte} {status : Byte → Byte → Byte}
    (hplace : ∀ input, accepts input = true → input = .acc ∨ ∃ a, input = .addr a) :
    AnswersWithFaultsOf i s (readModifyWrite accepts i.operand s result status) := by
  refine ⟨_, rfl, onRead_raisesOnly (fun _ => inputOf_faultOf hacc) fun input hi => ?_⟩
  obtain rfl | ⟨a, rfl⟩ := hplace input (inputOf_ok hi).2
  · rfl
  · exact onRead_raisesOnly (fun _ h => memRead_error h ▸ .access a) fun v _ =>
      andThen_raisesOnly (memWrite_raisesOnly .access rfl a _) fun _ _ h => h

/-! The mismatch of each shape (R103, R235). -/

variable {input : Input} (hr : resolve i.operand s = .ok input) (hk : input.kind ∉ acceptedKinds i.operation)
include hr hk

theorem inputOf_unaccepted : inputOf accepts i.operand s = .error .modeOperationMismatch :=
  inputOf_mismatch hr (by rwa [← Bool.not_eq_true, hacc input])

theorem readAndUpdate_mismatch {u : Byte → State} :
    readAndUpdate accepts i.operand s u = instruction i.length s (.raised .modeOperationMismatch s) := by
  rw [readAndUpdate, operandByte, inputOf_unaccepted hacc hr hk]
  rfl

theorem readModifyWrite_mismatch {result : Byte → Byte} {status : Byte → Byte → Byte} :
    readModifyWrite accepts i.operand s result status =
      instruction i.length s (.raised .modeOperationMismatch s) := by
  rw [readModifyWrite, inputOf_unaccepted hacc hr hk]
  rfl

end accepted

section address

variable (hacc : ChecksKindsOf Input.isAddress i.operation)
include hacc

theorem storeRegister_faults {v : Byte} : AnswersWithFaultsOf i s (storeRegister i.operand v s) := by
  refine ⟨_, rfl, onRead_raisesOnly (fun _ => inputOf_faultOf hacc) fun input hi => ?_⟩
  obtain ⟨a, rfl⟩ := isAddress_iff.1 (inputOf_ok hi).2
  exact memWrite_raisesOnly .access rfl a v

theorem jumpTo_faults {before : State → Effect Unit} (hbefore : (before s).RaisesOnly (FaultOf i s) s.runState) :
    AnswersWithFaultsOf i s (jumpTo i.operand s before) := by
  refine ⟨_, rfl, onRead_raisesOnly (fun _ => inputOf_faultOf hacc) fun input hi => ?_⟩
  obtain ⟨a, rfl⟩ := isAddress_iff.1 (inputOf_ok hi).2
  exact andThen_raisesOnly hbefore fun _ _ h => h

variable {input : Input} (hr : resolve i.operand s = .ok input) (hk : input.kind ∉ acceptedKinds i.operation)
include hr hk

theorem storeRegister_mismatch {v : Byte} :
    storeRegister i.operand v s = instruction i.length s (.raised .modeOperationMismatch s) := by
  rw [storeRegister, inputOf_unaccepted hacc hr hk]
  rfl

theorem jumpTo_mismatch {before : State → Effect Unit} :
    jumpTo i.operand s before = instruction i.length s (.raised .modeOperationMismatch s) := by
  rw [jumpTo, inputOf_unaccepted hacc hr hk]
  rfl

end address

end shapes

/-- An instruction raises no faults but its own. -/
theorem exec_faults (i : Instr) (s : State) : AnswersWithFaultsOf i s (exec i s) := by
  cases i with
  | lda _ | ldx _ | ldy _ | adc _ | sbc _ | cmp _ | cpx _ | cpy _ | and _ | ora _ | eor _ =>
    exact readAndUpdate_faults (isData_checks (by rfl)) rfl fun _ => rfl
  | bit _ => exact readAndUpdate_faults (isAddress_checks (by rfl)) rfl fun _ => rfl
  | sta _ | stx _ | sty _ => exact storeRegister_faults (isAddress_checks (by rfl))
  | asl _ | lsr _ | rol _ | ror _ => exact readModifyWrite_faults (isPlace_checks (by rfl)) fun _ => isPlace_iff.1
  | inc _ | dec _ => exact readModifyWrite_faults (isAddress_checks (by rfl)) fun _ h => .inr (isAddress_iff.1 h)
  | bcc _ | bcs _ | beq _ | bne _ | bmi _ | bpl _ | bvc _ | bvs _ => exact branchIf_faults
  | jmp _ => exact jumpTo_faults (isAddress_checks (by rfl)) rfl
  | jsr _ => exact jumpTo_faults (isAddress_checks (by rfl)) (push16_raisesOnly .access rfl _)
  | rts => exact ⟨_, rfl, andThen_raisesOnly (pull16_raisesOnly .access rfl) fun _ _ h => h⟩
  | pha | php => exact ⟨_, rfl, push_raisesOnly .access rfl _⟩
  | pla | plp => exact ⟨_, rfl, andThen_raisesOnly (pull_raisesOnly .access rfl) fun _ _ h => h⟩
  | brk => exact ⟨_, rfl, takeInterrupt_raisesOnly .access rfl .brk⟩
  | rti => exact ⟨_, rfl, returnFromInterrupt_raisesOnly .access rfl⟩
  | unsupported b => exact ⟨.raised _ s, rfl, .undefined rfl⟩
  | _ => exact registersOnly_faults rfl

theorem exec_faulted {i : Instr} {s t : State} {r : FaultRecord} (hs : s.runState = .running) (h : exec i s = .next t)
    (ht : t.runState = .faulted r) : FaultOf i s r.fault := by
  obtain ⟨e, he, hfaults⟩ := exec_faults i s
  rw [he] at h
  exact (conclude_faulted h hfaults ht).resolve_left (by simp [hs])

/-- Settles O47: the faults of a well-formed instruction are not internal. -/
theorem wellFormedNeverMismatches : Obligations.WellFormedNeverMismatches := by
  intro i s t r hi hs h ht
  have hf := (exec_faulted hs h ht).not_internal hi
  constructor <;> intro e <;> simp [e, Fault.isInternal] at hf

/-! ## The mismatch -/

/-- A kind that its operation does not accept ends the instruction at once (R103, R235). -/
theorem exec_mismatch {i : Instr} {s : State} {input : Input} (hr : resolve i.operand s = .ok input)
    (hk : input.kind ∉ acceptedKinds i.operation) :
    exec i s = instruction i.length s (.raised .modeOperationMismatch s) := by
  cases i with
  | lda _ | ldx _ | ldy _ | adc _ | sbc _ | cmp _ | cpx _ | cpy _ | and _ | ora _ | eor _ =>
    exact readAndUpdate_mismatch (isData_checks (by rfl)) hr hk
  | bit _ => exact readAndUpdate_mismatch (isAddress_checks (by rfl)) hr hk
  | sta _ | stx _ | sty _ => exact storeRegister_mismatch (isAddress_checks (by rfl)) hr hk
  | asl _ | lsr _ | rol _ | ror _ => exact readModifyWrite_mismatch (isPlace_checks (by rfl)) hr hk
  | inc _ | dec _ => exact readModifyWrite_mismatch (isAddress_checks (by rfl)) hr hk
  | jmp _ => exact jumpTo_mismatch (isAddress_checks (by rfl)) hr hk
  | _ =>
    obtain rfl := Except.ok.inj hr
    exact absurd (List.mem_singleton.2 rfl) hk

/-- Settles O49: the kinds that no check accepts, and the faults of the others. -/
theorem unacceptedKindsMismatch : Obligations.UnacceptedKindsMismatch := by
  intro i s input hr
  refine ⟨exec_mismatch hr, fun hk t r hs h ht e => ?_⟩
  have hf := exec_faulted hs h ht
  rw [e] at hf
  cases hf with
  | mismatch hr' hk' => exact hk' (Except.ok.inj (hr'.symm.trans hr) ▸ hk)

/-- Settles O46: an undefined opcode's one effect is its fault. -/
theorem undefinedOpcodeFaults : Obligations.UndefinedOpcodeFaults :=
  ⟨fun _ _ => rfl, fun _ => rfl, rfl, fun _ => rfl, rfl⟩

end Sys2Proof.Machine

/-! PROOFS. The fetch and the instruction cycle (30_encoding.md R83 lines 6 to 12): a cycle either ends with the fault
of its fetch or runs a well-formed instruction, since every fetched instruction decodes; and what a step makes of it.
-/

namespace Sys2Proof.Machine

/-! ## The instruction's bytes -/

theorem shape_length_pos (b : Byte) : 0 < (lookup b).length := by
  rw [lookup_length]
  cases (lookup b).mode <;> decide

/-- A read of at least one byte faults at once where its first byte is not addressable (20_memory.md R57). -/
theorem memReadN_first {a : Word} {s : State} {n : Nat} (hn : 0 < n) (h : addressable s.platform a = false) :
    memReadN a n s = .error (.memoryAccess a) := by
  unfold memReadN
  split
  · rfl
  · simpa using memReadUp_hole s n 0 a hn (fun j hj => absurd hj (Nat.not_lt_zero j)) (by simpa using h)

theorem memReadN_ok {a : Word} {s : State} {n : Nat} {bytes : List Byte} (h : memReadN a n s = .ok bytes) :
    memReadUp a s n = .ok bytes := by
  unfold memReadN at h
  split at h
  · cases h
  · exact h

/-- The bytes of a read that completes begin with the byte at its address. -/
theorem memReadN_cons {a : Word} {s : State} {n : Nat} {bytes : List Byte} (hn : 0 < n)
    (h : memReadN a n s = .ok bytes) : ∃ rest, bytes = byteAt s a :: rest ∧ rest.length + 1 = n := by
  obtain ⟨n, rfl⟩ := Nat.exists_eq_add_one.2 hn
  rw [memReadUp_ok (memReadN_ok h), List.range_succ_eq_map]
  exact ⟨(List.range n).map fun k => byteAt s (a + BitVec.ofNat 16 (k + 1)), by simp, by simp⟩

/-! ## The instruction cycle -/

/-- The read of the instruction's bytes, opcode included (R83 lines 7 and 9). -/
def fetchBytes (s : State) : Except Fault (List Byte) := memReadN s.pc (lookup (byteAt s s.pc)).length s

@[simp] theorem fetchBytes_withInputs (s : State) (v : List Sample) : fetchBytes (s.withInputs v) = fetchBytes s :=
  memReadN_withInputs s v _ _

/-- A fetch that faults ends the cycle with PC at the instruction (R83, R236). -/
theorem instructionCycle_fault {s : State} {f : Fault} (h : fetchBytes s = .error f) :
    instructionCycle s = .next (raiseFault f (some s.pc) s) := by
  unfold instructionCycle
  rw [memRead_eq]
  cases ha : addressable s.platform s.pc with
  | true =>
    rw [fetchBytes] at h
    simp only [h, if_true]
  | false =>
    rw [fetchBytes, memReadN_first (shape_length_pos _) ha] at h
    obtain rfl := Except.error.inj h
    rfl

/-- A fetch that completes has the bytes of a well-formed instruction (R88), which the cycle runs. -/
theorem instructionCycle_decoded {s : State} {bytes : List Byte} (h : fetchBytes s = .ok bytes) :
    ∃ i, decode bytes = .ok (i, []) ∧ i.HasOpcode (byteAt s s.pc) ∧
      instructionCycle s = retire (lookup (byteAt s s.pc)).cycles
        (exec i (s.withPc (s.pc + BitVec.ofNat 16 (lookup (byteAt s s.pc)).length))) := by
  have hpos := shape_length_pos (byteAt s s.pc)
  have haddr : addressable s.platform s.pc = true := by
    by_contra hn
    rw [fetchBytes, memReadN_first hpos (by simpa using hn)] at h
    cases h
  obtain ⟨rest, rfl, hlen⟩ := memReadN_cons hpos h
  obtain ⟨i, hi⟩ := decode_total hlen.ge
  rw [List.drop_of_length_le (by omega)] at hi
  obtain ⟨b, hb, hbytes⟩ := decode_ok_iff.1 hi
  obtain rfl : byteAt s s.pc = b := (List.cons.inj hbytes).1
  refine ⟨i, hi, hb, ?_⟩
  have hread : memReadN s.pc (lookup (byteAt s s.pc)).length s = .ok (byteAt s s.pc :: rest) := h
  have hmode : (byteAt s s.pc :: rest).length = (lookup (byteAt s s.pc)).mode.length := by
    rw [List.length_cons, hlen, lookup_length]
  unfold instructionCycle
  rw [memRead_eq, if_pos haddr]
  simp only [hread, hmode, ne_eq, not_true, if_false, hi]

/-- Everything an instruction cycle can do: the MemoryAccessFault of its fetch, or a well-formed instruction. -/
theorem instructionCycle_runs (s : State) :
    (∃ a, instructionCycle s = .next (raiseFault (.memoryAccess a) (some s.pc) s)) ∨
    (∃ (i : Instr) (n : Nat) (pc : Word), i.wf = true ∧ instructionCycle s = retire n (exec i (s.withPc pc))) := by
  cases h : fetchBytes s with
  | error f =>
    obtain ⟨a, rfl⟩ := memReadN_error h
    exact .inl ⟨a, instructionCycle_fault h⟩
  | ok bytes =>
    obtain ⟨i, -, hi, hrun⟩ := instructionCycle_decoded h
    exact .inr ⟨i, _, _, ((i.hasOpcode_iff _).1 hi).1, hrun⟩

/-! ## Internal faults -/

theorem State.NoInternalFault.of_runState {s t : State} (hs : s.NoInternalFault) (h : t.runState = s.runState) :
    t.NoInternalFault :=
  fun r hr => hs r (h ▸ hr)

theorem noInternalFault_of_running {s : State} (h : s.runState = .running) : s.NoInternalFault := by
  intro r hr
  rw [h] at hr
  cases hr

/-- An effect of a running machine that raises no internal fault. -/
theorem conclude_noInternalFault {pc0 : Option Word} {e : Effect Unit} {t : State} (h : conclude pc0 e = .next t)
    (he : e.RaisesOnly (fun f => f.isInternal = false) .running) : t.NoInternalFault :=
  fun _ ht => (conclude_faulted h he ht).resolve_left (by simp)

theorem entry_noInternalFault {pc0 : Option Word} {k : InterruptKind} {s t : State} (hs : s.runState = .running)
    (h : conclude pc0 (interruptEntry k s) = .next t) : t.NoInternalFault :=
  conclude_noInternalFault h (interruptEntry_raisesOnly (fun _ => rfl) hs k)

theorem instructionCycle_noInternalFault {s t : State} (hs : s.runState = .running)
    (h : instructionCycle s = .next t) : t.NoInternalFault := by
  obtain ⟨a, e⟩ | ⟨i, n, pc, hi, e⟩ := instructionCycle_runs s <;> rw [e] at h
  · obtain rfl := Host.Outcome.next.inj h
    exact fun r hr => RunState.faulted.inj hr ▸ rfl
  · obtain ⟨u, hu, ⟨hrun, rfl⟩ | ⟨-, rfl⟩⟩ := retire_cases h
    · exact noInternalFault_of_running hrun
    · exact fun r hr => (exec_faulted (s := s.withPc pc) hs hu hr).not_internal hi

/-- Settles O48, by the cases of a step: what reads and writes memory raises no internal fault, nor does the
well-formed instruction of a cycle. -/
theorem internalFaultsAreUnreachable : Obligations.InternalFaultsAreUnreachable := by
  intro s t hs h
  obtain ⟨-, hreset⟩ | ⟨-, -, rfl⟩ | ⟨-, -, r, -, rfl⟩ | ⟨-, hrun, -, -, hwork⟩ := step_cases h
  · exact conclude_noInternalFault hreset (resetSequence_raisesOnly (fun _ => rfl) _)
  · exact hs.of_runState rfl
  · exact nofun
  have hsampled : (s.withInputs s.inputs.tail).runState = .running := hrun
  have hlatched : ((s.withInputs s.inputs.tail).withNmiPending true).runState = .running := hrun
  obtain ⟨-, -, he⟩ | ⟨-, -, -, -, he⟩ | ⟨-, hcycle⟩ := hwork
  · exact entry_noInternalFault hlatched he
  · exact entry_noInternalFault hsampled he
  · exact instructionCycle_noInternalFault hsampled hcycle

/-! ## The step -/

theorem step_of_fetches {s : State} (h : s.fetches) : step s = instructionCycle (s.withInputs s.inputs.tail) := by
  obtain ⟨hrun, hquiet, hnmi, hpc⟩ := h
  rw [step_running hrun (by rw [hquiet]; rfl), hquiet, hnmi, if_neg (by decide), if_neg (Nat.not_le.2 hpc)]
  rfl

theorem step_fetchFault {s : State} {f : Fault} (hs : s.fetches) (h : fetchBytes s = .error f) :
    step s = .next { s with runState := .faulted ⟨f, some s.pc⟩, inputs := s.inputs.tail } := by
  rw [step_of_fetches hs, instructionCycle_fault (by rwa [fetchBytes_withInputs])]
  rfl

/-- Settles O50: the fault of the step is the fetch read's. -/
theorem fetchFaultsLeaveThePc : Obligations.FetchFaultsLeaveThePc := by
  intro s hs
  refine ⟨fun hole => ?_, fun _ hbound => ?_, fun hfit k hk before hole => ?_⟩
  · exact step_fetchFault hs (memReadN_first (shape_length_pos _) hole)
  · exact step_fetchFault hs (if_pos hbound)
  · exact step_fetchFault hs ((memReadN_eq_memReadUp hfit s).trans (memReadUp_hole s _ k s.pc hk before hole))

/-- Settles O42: the two halts are the first lines of a sample point. -/
theorem haltsComeFirst : Obligations.HaltsComeFirst := by
  intro s hs hr
  rw [step_running hs hr]
  exact ⟨fun hstop => if_pos hstop, fun hstop hpc => by rw [if_neg (by simp [hstop]), if_pos hpc]⟩

/-- Counting the cycles of an answer, as an update of CLK (R83 line 12). -/
theorem retire_eq (n : Nat) (r : Host.Outcome State Fault Refusal) :
    retire n r = match r with
      | .next t => if t.runState = .running then .next { t with clk := t.clk + n } else .next t
      | .fault f => .fault f
      | .refused f => .refused f := by
  cases r <;> rfl

/-- Settles O51: the fetched bytes are those that decode, and their first is the opcode. -/
theorem stepRunsTheDecodedInstruction : Obligations.StepRunsTheDecodedInstruction := by
  intro s i hs _ hfit haddr hdec
  obtain ⟨b, hb, hbytes⟩ := decode_ok_iff.1 hdec
  obtain rfl : byteAt s s.pc = b := by
    have hhead := congrArg List.head? hbytes
    have hpos : i.length ≠ 0 := hb.length ▸ (shape_length_pos b).ne'
    simpa [List.head?_range, hpos, byteAt] using hhead
  have hfetch : fetchBytes (s.withInputs s.inputs.tail) =
      .ok ((List.range i.length).map fun k => Memory.read s.mem (s.pc.toNat + k)) := by
    rw [fetchBytes_withInputs, fetchBytes, hb.length]
    exact ((fetchReadIsAscendingAndBounded s.pc i.length s).2 hfit).1 haddr
  obtain ⟨j, hj, -, hrun⟩ := instructionCycle_decoded hfetch
  obtain rfl : j = i := by rw [hdec] at hj; simpa using hj.symm
  rw [step_of_fetches hs, hrun, byteAt_withInputs, State.withInputs_pc, hb.length]
  exact retire_eq _ _

end Sys2Proof.Machine

/-! PROOFS. The additive instructions, the compares and the logic instructions (41_arithmetic.md R120 to R127,
42_logic_shift.md R140 to R142): each is one read of the data byte, so what remains is what its status byte says as
arithmetic. -/

namespace Sys2Proof.Machine

/-! ## Additive instructions -/

/-- The sum with the complement is the difference with a borrow (R124): `A + (255 - m) + C = A - m - (1 - C) + 256`. -/
theorem addSum_complement (a m : Byte) (c : Bool) :
    (addSum a (~~~m) c : Int) = (a.toNat : Int) - m.toNat - (1 - c.toInt) + 256 := by
  have hm := m.isLt
  rw [addSum, complement_toNat]
  cases c <;> simp only [Bool.toNat_false, Bool.toNat_true, Bool.toInt_false, Bool.toInt_true] <;> omega

theorem addResult_complement_toNat (a m : Byte) (c : Bool) :
    ((addResult a (~~~m) c).toNat : Int) = ((a.toNat : Int) - m.toNat - (1 - c.toInt)) % 256 := by
  have hsum := addSum_complement a m c
  have hr : (addResult a (~~~m) c).toNat = addSum a (~~~m) c % 256 := addResult_toNat a (~~~m) c
  omega

/-- The carry of the complemented sum is the absence of a borrow. -/
theorem addCarry_complement (a m : Byte) (c : Bool) :
    addCarry a (~~~m) c = decide (m.toNat + (1 - c.toNat) ≤ a.toNat) := by
  have hsum := addSum_complement a m c
  rw [addCarry, decide_eq_decide]
  cases c <;> simp only [Bool.toNat_false, Bool.toNat_true, Bool.toInt_false, Bool.toInt_true] at hsum ⊢ <;> omega

/-- The overflow of the complemented sum is the signed difference leaving -128 to 127. -/
theorem addOverflow_complement (a m : Byte) (c : Bool) :
    addOverflow a (~~~m) c =
      decide (a.toInt - m.toInt - (1 - c.toInt) < -128 ∨ 127 < a.toInt - m.toInt - (1 - c.toInt)) := by
  have hsum : a.toInt + (-m.toInt - 1) + c.toInt = a.toInt - m.toInt - (1 - c.toInt) := by omega
  rw [addOverflow_eq, complement_toInt, hsum]

/-- Settles O13: the data byte is added to A, and the overflow rule of R122 is the signed sum leaving its range. -/
theorem adcAddsWithCarry : Obligations.AdcAddsWithCarry := by
  intro o s
  refine ⟨fun m hm => ⟨addResult s.a m (s.flag .c), addStatus s.a m (s.flag .c) s.p,
    addResult_toNat _ _ _, ?_, ?_⟩, ?_⟩
  · have status := addStatus_statusAfter s.a m (s.flag .c) s.p
    rwa [addOverflow_eq] at status
  · exact readAndUpdate_dataByte hm _
  · exact readAndUpdate_faultsWithOperand rfl fun _ => rfl

/-- Settles O14: the complement of the data byte is added to A, which subtracts it with the borrow. -/
theorem sbcSubtractsWithBorrow : Obligations.SbcSubtractsWithBorrow := by
  intro o s
  refine ⟨fun m hm => ⟨addResult s.a (~~~m) (s.flag .c), addStatus s.a (~~~m) (s.flag .c) s.p,
    addResult_complement_toNat _ _ _, ?_, ?_⟩, ?_⟩
  · have status := addStatus_statusAfter s.a (~~~m) (s.flag .c) s.p
    rwa [addCarry_complement, addOverflow_complement] at status
  · exact readAndUpdate_dataByte hm _
  · exact readAndUpdate_faultsWithOperand rfl fun _ => rfl

/-! ## Compares -/

/-- SetZN of a difference, said of the two bytes compared. -/
theorem znOf_sub (reg m : Byte) :
    znOf (reg - m) = [(.z, decide (reg = m)), (.n, decide (128 ≤ (reg.toNat + 256 - m.toNat) % 256))] := by
  have hm := m.isLt
  have hdiff : (reg - m).toNat = (reg.toNat + 256 - m.toNat) % 256 := by
    rw [BitVec.toNat_sub]; omega
  have hzero : (reg - m = 0) ↔ reg = m := sub_eq_zero
  simp only [znOf, hzero, lsb7_eq, hdiff]

/-- A compare of a register with the data byte (R125 to R127) writes C, Z and N and nothing else. -/
theorem readAndUpdate_compare {o : Operand} {s : State} {m : Byte} (h : DataByte o s m) (reg : Byte) :
    ∃ p, StatusAfter s.p p [(.c, decide (m.toNat ≤ reg.toNat)), (.z, decide (reg = m)),
        (.n, decide (128 ≤ (reg.toNat + 256 - m.toNat) % 256))] ∧
      readAndUpdate Input.isData o s (fun m => s.withP (compareStatus reg m s.p)) = .next { s with p := p } := by
  refine ⟨compareStatus reg m s.p, ?_, readAndUpdate_dataByte h _⟩
  have status := compareStatus_statusAfter reg m s.p
  rwa [znOf_sub] at status

/-- Settles O15: the three compares differ in their register alone. -/
theorem comparesSetCarryZeroNegative : Obligations.ComparesSetCarryZeroNegative := by
  intro o s
  refine ⟨fun m hm => ⟨?_, ?_, ?_⟩, ?_, ?_, ?_⟩
  · exact readAndUpdate_compare hm s.a
  · exact readAndUpdate_compare hm s.x
  · exact readAndUpdate_compare hm s.y
  all_goals exact readAndUpdate_faultsWithOperand rfl fun _ => rfl

/-! ## Logic -/

/-- An instruction that puts `f m` into A and sets Z and N from it. -/
theorem readAndUpdate_logic {o : Operand} {s : State} {m : Byte} (h : DataByte o s m) (f : Byte → Byte) :
    ∃ p, StatusAfter s.p p (znOf (f m)) ∧
      readAndUpdate Input.isData o s (fun m => (s.withA (f m)).setZN (f m)) = .next { s with a := f m, p := p } :=
  ⟨zn (f m) s.p, zn_statusAfter (f m) s.p, readAndUpdate_dataByte h _⟩

/-- Settles O16: the three instructions differ in their bitwise operation alone. -/
theorem logicCombinesWithAccumulator : Obligations.LogicCombinesWithAccumulator := by
  intro o s
  refine ⟨fun m hm => ⟨?_, ?_, ?_⟩, ?_, ?_, ?_⟩
  · exact readAndUpdate_logic hm (s.a &&& ·)
  · exact readAndUpdate_logic hm (s.a ||| ·)
  · exact readAndUpdate_logic hm (s.a ^^^ ·)
  all_goals exact readAndUpdate_faultsWithOperand rfl fun _ => rfl

end Sys2Proof.Machine

/-! PROOFS. The bit test, the shifts and the rotates (42_logic_shift.md R143 to R147): BIT is one read of the data byte;
a shift or rotate is one read-modify-write, of A or of a memory byte, and the four differ in their result and in the bit
they shift out. -/

namespace Sys2Proof.Machine

/-! ## Bit test -/

/-- The status of BIT, with N and V as bounds on the memory byte. -/
theorem bitStatus_statusAfter_bounds (a m p : Byte) :
    StatusAfter p (bitStatus a m p)
      [(.z, decide (a &&& m = 0)), (.n, decide (128 ≤ m.toNat)), (.v, decide (64 ≤ m.toNat % 128))] := by
  have status := bitStatus_statusAfter a m p
  rwa [lsb7_eq, lsb6_eq] at status

theorem readAndUpdate_addr {accepts : Input → Bool} {o : Operand} {s : State} {a : Word}
    (hr : resolve o s = .ok (.addr a)) (hacc : accepts (.addr a) = true) (ha : addressable s.platform a = true)
    (u : Byte → State) : readAndUpdate accepts o s u = .next (u (byteAt s a)) := by
  rw [readAndUpdate_eq, operandByte_addr hacc hr, memRead_eq, if_pos ha]

/-- Settles O17: BIT is one read of the byte at the effective address. -/
theorem bitTestsMemory : Obligations.BitTestsMemory := by
  intro o s
  refine ⟨fun a hr ha => ⟨_, bitStatus_statusAfter_bounds s.a (byteAt s a) s.p, ?_⟩, ?_⟩
  · exact readAndUpdate_addr hr rfl ha _
  · exact readAndUpdate_faultsWithOperand rfl fun _ => rfl

/-! ## Shifts and rotates -/

section shifts

variable {s : State} (r : Byte → Byte) (out : Byte → Bool) {n : Nat} {carry : Bool}

theorem readModifyWrite_addr {accepts : Input → Bool} {o : Operand} {a : Word} (hr : resolve o s = .ok (.addr a))
    (hacc : accepts (.addr a) = true) (ha : addressable s.platform a = true) (st : Byte → Byte → Byte) :
    readModifyWrite accepts o s r st =
      .next { s with mem := Memory.write s.mem a.toNat (r (byteAt s a)), p := st (byteAt s a) s.p } := by
  rw [readModifyWrite_eq, inputOf_accepted hr hacc]
  exact if_pos ha

/-- A shift or rotate of A with result `n` and the bit `carry` shifted out. -/
theorem shift_accumulator (hresult : (r s.a).toNat = n) (hout : out s.a = carry) :
    ∃ x p : Byte, x.toNat = n ∧ StatusAfter s.p p ((.c, carry) :: znOf x) ∧
      readModifyWrite Input.isPlace .accumulator s r (fun v => shiftStatus (out v) (r v)) =
        .next { s with a := x, p := p } := by
  subst hout
  refine ⟨r s.a, _, hresult, shiftStatus_statusAfter (out s.a) (r s.a) s.p, ?_⟩
  rw [readModifyWrite_eq]
  rfl

/-- A shift or rotate of the memory byte at `a` with result `n` and the bit `carry` shifted out. -/
theorem shift_memory {o : Operand} {a : Word} (hr : resolve o s = .ok (.addr a))
    (ha : addressable s.platform a = true) (hresult : (r (byteAt s a)).toNat = n) (hout : out (byteAt s a) = carry) :
    ∃ (x p : Byte) (m : Memory), x.toNat = n ∧ StatusAfter s.p p ((.c, carry) :: znOf x) ∧
      MemoryAfter s m [(a, x)] ∧ readModifyWrite Input.isPlace o s r (fun v => shiftStatus (out v) (r v)) =
        .next { s with mem := m, p := p } := by
  subst hout
  exact ⟨r (byteAt s a), _, _, hresult, shiftStatus_statusAfter _ _ _, memoryAfter_one s a _,
    readModifyWrite_addr r hr rfl ha _⟩

end shifts

/-- Settles O18: the result of each of the four as arithmetic, and the bit it shifts out. -/
theorem shiftsOfTheAccumulator : Obligations.ShiftsOfTheAccumulator := by
  intro s
  refine ⟨?_, ?_, ?_, ?_⟩
  · exact shift_accumulator aslResult (·.getLsbD 7) (aslResult_toNat s.a) (lsb7_eq s.a)
  · exact shift_accumulator lsrResult (·.getLsbD 0) (lsrResult_toNat s.a) (lsb0_eq s.a)
  · exact shift_accumulator (rolResult · (s.flag .c)) (·.getLsbD 7) (rolResult_toNat s.a _) (lsb7_eq s.a)
  · exact shift_accumulator (rorResult · (s.flag .c)) (·.getLsbD 0) (rorResult_toNat s.a _) (lsb0_eq s.a)

/-- Settles O19: the arithmetic of the accumulator forms, of the byte at the effective address. -/
theorem shiftsOfMemory : Obligations.ShiftsOfMemory := by
  intro o s
  refine ⟨fun a hr ha => ⟨?_, ?_, ?_, ?_⟩, ?_, ?_, ?_, ?_⟩
  · exact shift_memory aslResult (·.getLsbD 7) hr ha (aslResult_toNat _) (lsb7_eq _)
  · exact shift_memory lsrResult (·.getLsbD 0) hr ha (lsrResult_toNat _) (lsb0_eq _)
  · exact shift_memory (rolResult · (s.flag .c)) (·.getLsbD 7) hr ha (rolResult_toNat _ _) (lsb7_eq _)
  · exact shift_memory (rorResult · (s.flag .c)) (·.getLsbD 0) hr ha (rorResult_toNat _ _) (lsb0_eq _)
  all_goals exact readModifyWrite_faultsWithOperand rfl fun _ => rfl

/-- Settles O20 from the arithmetic of O18: with `x = A * 2 % 256 + C` and bit 7 of A in C after the rotate left, half
of `x` plus that carry at bit 7 is A, and the parity of `x` is the old C. -/
theorem rotatesAreInverse : Obligations.RotatesAreInverse := by
  intro s t u ht hu
  obtain ⟨-, -, ⟨x, p, hx, hp, hrol⟩, -⟩ := shiftsOfTheAccumulator s
  obtain rfl := Host.Outcome.next.inj (hrol.symm.trans ht)
  obtain ⟨-, -, -, y, q, hy, hq, hror⟩ := shiftsOfTheAccumulator { s with a := x, p := p }
  obtain rfl := Host.Outcome.next.inj (hror.symm.trans hu)
  have hcarry : getFlag .c p = decide (128 ≤ s.a.toNat) := hp .c
  have hparity : getFlag .c q = decide (x.toNat % 2 = 1) := hq .c
  have hold := (s.flag .c).toNat_lt
  refine ⟨BitVec.eq_of_toNat_eq ?_, ?_, ?_⟩
  · change y.toNat = s.a.toNat
    have hsum : y.toNat = x.toNat / 2 + 128 * (decide (128 ≤ s.a.toNat)).toNat := hcarry ▸ hy
    rw [Bool.toNat, Bool.cond_decide] at hsum
    split at hsum <;> omega
  · change getFlag .c q = s.flag .c
    have hbit : x.toNat % 2 = (s.flag .c).toNat := by omega
    rw [hparity, hbit]
    simp
  · exact hcarry.trans (lsb7_eq s.a).symm

end Sys2Proof.Machine

/-! PROOFS. The flag instructions, the transfers and the counts (43_flags_transfers_incdec.md R160 to R179): those
without an operand are one update of the registers, and a count of memory is one read-modify-write of the effective
address. -/

namespace Sys2Proof.Machine

/-! ## Flags and transfers -/

/-- An instruction that sets one flag of P to a value. -/
theorem registersOnly_withFlag (s : State) (f : Flag) (b : Bool) :
    ∃ p, StatusAfter s.p p [(f, b)] ∧ registersOnly (s.withFlag f b) = .next { s with p := p } :=
  ⟨setFlag f b s.p, setFlag_statusAfter f b s.p, rfl⟩

/-- An instruction that sets Z and N from `v` after an update `t` of another register. -/
theorem registersOnly_setZN {s t : State} (hp : t.p = s.p) (v : Byte) :
    registersOnly (t.setZN v) = .next { t with p := zn v s.p } := by
  rw [State.setZN_eq, hp]
  rfl

/-- Settles O21: the seven differ in their flag and its value alone. -/
theorem flagInstructionsWriteOneFlag : Obligations.FlagInstructionsWriteOneFlag := by
  intro s
  refine ⟨?clc, ?cld, ?cli, ?clv, ?sec, ?sed, ?sei, ?nop⟩
  case clc => exact registersOnly_withFlag s .c false
  case cld => exact registersOnly_withFlag s .d false
  case cli => exact registersOnly_withFlag s .i false
  case clv => exact registersOnly_withFlag s .v false
  case sec => exact registersOnly_withFlag s .c true
  case sed => exact registersOnly_withFlag s .d true
  case sei => exact registersOnly_withFlag s .i true
  case nop => rfl

/-- Settles O22: the register is updated before Z and N, which are set from the copied byte; TXS updates SP alone. -/
theorem transfersCopyARegister : Obligations.TransfersCopyARegister := by
  intro s
  refine ⟨⟨_, zn_statusAfter s.a s.p, ?tax, ?tay⟩, ⟨_, zn_statusAfter s.x s.p, ?txa⟩,
    ⟨_, zn_statusAfter s.y s.p, ?tya⟩, ⟨_, zn_statusAfter s.sp s.p, ?tsx⟩, ?txs⟩
  case tax => exact registersOnly_setZN (s.withX_p s.a) s.a
  case tay => exact registersOnly_setZN (s.withY_p s.a) s.a
  case txa => exact registersOnly_setZN (s.withA_p s.x) s.x
  case tya => exact registersOnly_setZN (s.withA_p s.y) s.y
  case tsx => exact registersOnly_setZN (s.withX_p s.sp) s.sp
  case txs => rfl

/-! ## Counts -/

theorem byte_succ_toNat (v : Byte) : (v + 1#8).toNat = (v.toNat + 1) % 256 :=
  BitVec.toNat_add v 1#8

theorem byte_pred_toNat (v : Byte) : (v - 1#8).toNat = (v.toNat + 255) % 256 := by
  rw [BitVec.toNat_sub, Nat.add_comm]
  rfl

/-- Settles O23: the register is updated with its count before Z and N are set from it. -/
theorem indexRegistersCountModulo256 : Obligations.IndexRegistersCountModulo256 := by
  intro s
  refine ⟨⟨_, _, byte_succ_toNat s.x, zn_statusAfter _ s.p, ?inx⟩,
    ⟨_, _, byte_succ_toNat s.y, zn_statusAfter _ s.p, ?iny⟩,
    ⟨_, _, byte_pred_toNat s.x, zn_statusAfter _ s.p, ?dex⟩,
    ⟨_, _, byte_pred_toNat s.y, zn_statusAfter _ s.p, ?dey⟩⟩
  case inx => exact registersOnly_setZN (s.withX_p _) _
  case iny => exact registersOnly_setZN (s.withY_p _) _
  case dex => exact registersOnly_setZN (s.withX_p _) _
  case dey => exact registersOnly_setZN (s.withY_p _) _

/-- A count of the memory byte at `a` with result `n`: only that byte, Z and N are written. -/
theorem count_memory {o : Operand} {s : State} {a : Word} {n : Nat} (hr : resolve o s = .ok (.addr a))
    (ha : addressable s.platform a = true) (count : Byte → Byte) (hcount : (count (byteAt s a)).toNat = n) :
    ∃ (r p : Byte) (m : Memory), r.toNat = n ∧ StatusAfter s.p p (znOf r) ∧ MemoryAfter s m [(a, r)] ∧
      readModifyWrite Input.isAddress o s count (fun v => zn (count v)) = .next { s with mem := m, p := p } :=
  ⟨count (byteAt s a), _, _, hcount, zn_statusAfter _ _, memoryAfter_one s a _,
    readModifyWrite_addr count hr rfl ha _⟩

/-- Settles O24: INC and DEC differ in their count alone. -/
theorem memoryCountsModulo256 : Obligations.MemoryCountsModulo256 := by
  intro o s
  refine ⟨fun a hr ha => ⟨?inc, ?dec⟩, ?incFaults, ?decFaults⟩
  case inc => exact count_memory hr ha (· + 1#8) (byte_succ_toNat _)
  case dec => exact count_memory hr ha (· - 1#8) (byte_pred_toNat _)
  all_goals exact readModifyWrite_faultsWithOperand rfl fun _ => rfl

end Sys2Proof.Machine

/-! PROOFS. The stack, the jumps and subroutines, and break and return from interrupt (44_control_stack.md R190 to
R194, R204 to R212). Each statement about one instruction is its equation under the addressability of the bytes it
pushes or pulls; those about a push and a later pull turn on the stack law, for a byte and for a word. -/

namespace Sys2Proof.Machine

/-! ## The stack law -/

/-- Settles O31: the write comes before SP changes. -/
theorem pushStoresThenDecrements : Obligations.PushStoresThenDecrements := by
  intro v s
  rw [push_eq]
  exact ⟨fun h => ⟨_, _, memoryAfter_one s _ v, byte_pred_toNat s.sp, if_pos h⟩, fun h => if_neg (by simp [h])⟩

/-- Settles O32: SP is incremented before the read. -/
theorem pullIncrementsReadsAndClears : Obligations.PullIncrementsReadsAndClears := by
  intro s
  refine ⟨s.sp + 1#8, byte_succ_toNat s.sp, ?_⟩
  rw [pull_eq]
  exact ⟨fun h => ⟨_, memoryAfter_one s _ 0#8, if_pos h⟩, fun h => if_neg (by simp [h])⟩

/-- Earlier writes to addresses that are written again need not be listed. -/
theorem MemoryAfter.of_overwritten {s : State} {m : Memory} {w old : List (Word × Byte)}
    (h : MemoryAfter s m (w ++ old)) (hold : old.map Prod.fst ⊆ w.map Prod.fst) : MemoryAfter s m w := by
  refine memoryAfter_congr h fun a => ?_
  rw [List.lookup_append]
  cases ha : w.lookup a with
  | some v => rfl
  | none =>
    rw [Option.none_or, List.lookup_eq_none_iff]
    intro p hp
    obtain ⟨q, hq, hqp⟩ := List.mem_map.1 (hold (List.mem_map_of_mem hp))
    rw [← hqp]
    exact List.lookup_eq_none_iff.1 ha q hq

section law

variable {s t : State}

/-- The stack law for a byte (R194): the pull answers what the push stored, and only the cleared byte differs. -/
theorem pull_of_push {v : Byte} (h : push v s = .done () t) :
    ∃ m, MemoryAfter s m [(stackAddress s.sp, 0#8)] ∧ pull t = .done v { s with mem := m } := by
  have hsp : s.sp - 1#8 + 1#8 = s.sp := BitVec.sub_add_cancel s.sp 1#8
  rw [push_eq] at h
  split at h
  · next ha =>
    cases h
    have pushed := memoryAfter_one s (stackAddress s.sp) v
    refine ⟨_, .of_overwritten (memoryAfter_write pushed (stackAddress s.sp) 0#8) (by simp), ?_⟩
    simp [pull_eq, hsp, ha, byteAt, byteAt_write]
  · cases h

/-- The stack law for a word, with a jump between the push and the pull. -/
theorem pull16_of_push16 {w : Word} (h : push16 w s = .done () t) (a : Word) :
    ∃ m, MemoryAfter s m [(stackAddress s.sp, 0#8), (stackAddress (s.sp - 1#8), 0#8)] ∧
      pull16 (t.withPc a) = .done w { s with mem := m, pc := a } := by
  have hlow : s.sp - 2#8 + 1#8 = s.sp - 1#8 := by bv_omega
  have hhigh : s.sp - 2#8 + 2#8 = s.sp := BitVec.sub_add_cancel s.sp 2#8
  have hne : stackAddress s.sp ≠ stackAddress (s.sp - 1#8) := stackAddress_ne (by bv_omega)
  rw [push16_eq] at h
  split at h
  · next ha =>
    split at h
    · next hb =>
      cases h
      have pushed := memoryAfter_write (memoryAfter_one s (stackAddress s.sp) (highByte w))
        (stackAddress (s.sp - 1#8)) (lowByte w)
      have low := pushed (stackAddress (s.sp - 1#8))
      have high := pushed (stackAddress s.sp)
      simp only [List.lookup_cons, beq_self_eq_true, beq_eq_false_iff_ne.2 hne, Option.getD_some] at low high
      have pulled := memoryAfter_write (memoryAfter_write pushed (stackAddress (s.sp - 1#8)) 0#8) (stackAddress s.sp) 0#8
      refine ⟨_, pulled.of_overwritten (w := [_, _]) (by simp), ?_⟩
      simp [pull16_eq, hlow, hhigh, ha, hb, byteAt, low, high, joinBytes_high_low, State.withPc_eq]
    · cases h
  · cases h

/-- An instruction that leaves the machine running has completed its effect. -/
theorem done_of_running {n : Nat} {e : Effect Unit} (h : instruction n s e = .next t) (ht : t.runState = .running) :
    e = .done () t := by
  cases e with
  | done v u => exact congrArg (Effect.done ()) (Host.Outcome.next.inj h)
  | raised f u =>
    obtain rfl := Host.Outcome.next.inj h
    cases ht

/-- A sequence of effects is done when both are. -/
theorem done_of_andThen_done {α β : Type} {e : Effect α} {k : α → State → Effect β} {b : β}
    (h : e.andThen k = .done b t) : ∃ a u, e = .done a u ∧ k a u = .done b t := by
  cases e with
  | done a u => exact ⟨a, u, rfl, h⟩
  | raised f u => cases h

end law

/-- Settles O33: the stack law for a byte. -/
theorem pushThenPullRestoresSp : Obligations.PushThenPullRestoresSp := by
  intro v s t h
  obtain ⟨m, hm, hpull⟩ := pull_of_push h
  refine ⟨_, hpull, rfl, ?_, .of_stores hm (by simp)⟩
  simpa [byteAt] using hm (stackAddress s.sp)

/-! ## PLA, PHP and PLP -/

/-- Settles O35: PLA and PLP are one pull, to A or to P. -/
theorem plaAndPlpPull : Obligations.PlaAndPlpPull := by
  intro s
  have pla : exec .pla s = execPla s := rfl
  have plp : exec .plp s = execPlp s := rfl
  rw [pla, plp, execPla, execPlp, pull_eq]
  refine ⟨fun h => ⟨_, memoryAfter_one s _ 0#8, ⟨_, zn_statusAfter _ s.p, ?_⟩, ?_⟩, fun h => ⟨?_, ?_⟩⟩
  all_goals rw [h]; rfl

/-- The software push encoding sets bits 5 and 4 (10_state.md R29). -/
theorem softwareStatus_eq_or (p : Byte) : softwareStatus p = p ||| 0x30 :=
  status_ext fun f => by cases f <;> simp [softwareStatus, getFlag, Flag.bit]

/-- Settles O36: PLP pulls the software encoding that PHP pushed, by the stack law. -/
theorem phpThenPlpSetsBreakBits : Obligations.PhpThenPlpSetsBreakBits := by
  intro s t u ht hrun hu
  obtain ⟨m, -, hpull⟩ := pull_of_push (done_of_running ht hrun)
  have plp : exec .plp t = execPlp t := rfl
  rw [plp, execPlp, hpull] at hu
  obtain rfl := Host.Outcome.next.inj hu
  exact ⟨softwareStatus_eq_or s.p, rfl⟩

/-! ## Jumps and subroutines -/

/-- Settles O26: the operand is the address itself, or what the pointer read answers. -/
theorem jumpGoesToItsAddress : Obligations.JumpGoesToItsAddress := by
  intro s w
  have jmp (o : Operand) : exec (.jmp o) s = jumpTo o s fun s1 => .done () s1 := rfl
  have hresolve : resolve (.indirect w) s = pointerInput (memRead16 w s) id := rfl
  refine ⟨rfl, fun target h => ?_, fun f h => ?_⟩
  all_goals rw [jmp, jumpTo_eq, inputOf_eq, hresolve, h]; rfl

theorem exec_jsr_eq (a : Word) (s : State) :
    exec (.jsr a) s = instruction 3 s ((push16 (s.pc - 1#16) s).andThen fun _ s1 => .done () (s1.withPc a)) := rfl

theorem exec_rts_eq (s : State) :
    exec .rts s = instruction 1 s ((pull16 s).andThen fun w s1 => .done () (s1.withPc (w + 1#16))) := rfl

/-- Settles O27: one word pushed, then the jump. -/
theorem jsrPushesReturnAddress : Obligations.JsrPushesReturnAddress := by
  intro a s
  have hne : stackAddress s.sp ≠ stackAddress (s.sp - 1#8) := stackAddress_ne (by bv_omega)
  rw [exec_jsr_eq, push16_eq, highByte_eq, lowByte_eq]
  refine ⟨fun h0 h1 => ⟨_, memoryAfter_two s _ _ hne, ?_⟩, fun h0 => ?_, fun h0 h1 => ⟨_, memoryAfter_one s _ _, ?_⟩⟩
  · rw [h0, h1]; rfl
  · rw [h0]; rfl
  · rw [h0, h1]; rfl

/-- Settles O28: one word pulled, then the return to the address after it. -/
theorem rtsReturnsPastPulledAddress : Obligations.RtsReturnsPastPulledAddress := by
  intro s
  have hne : stackAddress (s.sp + 1#8) ≠ stackAddress (s.sp + 2#8) := stackAddress_ne (by bv_omega)
  rw [exec_rts_eq, pull16_eq]
  refine ⟨fun h1 h2 => ⟨_, _, memoryAfter_two s _ _ hne, ?_, by rw [h1, h2]; rfl⟩, fun h1 => ?_,
    fun h1 h2 => ⟨_, memoryAfter_one s _ _, ?_⟩⟩
  · rw [BitVec.toNat_add, joinBytes_toNat]; rfl
  · rw [h1]; rfl
  · rw [h1, h2]; rfl

/-- Settles O29: RTS pulls the word that JSR pushed, by the stack law, and adds the 1 that JSR took off. -/
theorem jsrThenRtsComesBack : Obligations.JsrThenRtsComesBack := by
  intro a s t u ht hrun hu
  obtain ⟨_, t0, hpush, hjump⟩ := done_of_andThen_done (done_of_running ht hrun)
  obtain ⟨m, hm, hpull⟩ := pull16_of_push16 hpush a
  obtain rfl : t0.withPc a = t := (Effect.done.inj hjump).2
  rw [exec_rts_eq, hpull] at hu
  obtain rfl := Host.Outcome.next.inj hu
  refine ⟨BitVec.sub_add_cancel s.pc 1#16, rfl, .of_stores hm (by simp), ?_, ?_⟩
  · simpa [byteAt] using hm (stackAddress s.sp)
  · have hlow := hm (stackAddress (s.sp - 1#8))
    rw [List.lookup_cons] at hlow
    split at hlow <;> simpa [byteAt] using hlow

/-! ## Break and return from interrupt -/

/-- The live P after BRK (R211), in the order of its lines. -/
theorem brkStatus_statusAfter (p : Byte) :
    StatusAfter p (setFlag .i true (setFlag .b4 true (setFlag .b5 true p))) [(.b5, true), (.b4, true), (.i, true)] :=
  statusAfter_congr (statusAfter_setFlag (statusAfter_setFlag (setFlag_statusAfter .b5 true p) .b4 true) .i true)
    fun f => by cases f <;> rfl

/-- Settles O37: BRK is the interrupt entry of its kind, with three pushes. -/
theorem brkEntersTheHandler : Obligations.BrkEntersTheHandler := by
  intro s
  have brk : exec .brk s = instruction 1 s (takeInterrupt .brk s) := rfl
  have ne01 : stackAddress s.sp ≠ stackAddress (s.sp - 1#8) := stackAddress_ne (by bv_omega)
  have ne02 : stackAddress s.sp ≠ stackAddress (s.sp - 2#8) := stackAddress_ne (by bv_omega)
  have ne12 : stackAddress (s.sp - 1#8) ≠ stackAddress (s.sp - 2#8) := stackAddress_ne (by bv_omega)
  rw [brk, takeInterrupt_eq, highByte_eq, lowByte_eq]
  refine ⟨fun h0 h1 h2 => ⟨_, _, _, softwareStatus_statusAfter s.p, memoryAfter_three s _ _ _ ne01 ne02 ne12,
    brkStatus_statusAfter s.p, ?_⟩, fun h0 => ?_, fun h0 h1 => ⟨_, memoryAfter_one s _ _, ?_⟩,
    fun h0 h1 h2 => ⟨_, memoryAfter_two s _ _ ne01, ?_⟩⟩
  · rw [h0, h1, h2]; rfl
  · rw [h0]; rfl
  · rw [h0, h1]; rfl
  · rw [h0, h1, h2]; rfl

/-- Settles O38: three pulls, of P and then of PC's two bytes. -/
theorem rtiRestoresStatusAndPc : Obligations.RtiRestoresStatusAndPc := by
  intro s
  have rti : exec .rti s = instruction 1 s (returnFromInterrupt s) := rfl
  have ne12 : stackAddress (s.sp + 1#8) ≠ stackAddress (s.sp + 2#8) := stackAddress_ne (by bv_omega)
  have ne13 : stackAddress (s.sp + 1#8) ≠ stackAddress (s.sp + 3#8) := stackAddress_ne (by bv_omega)
  have ne23 : stackAddress (s.sp + 2#8) ≠ stackAddress (s.sp + 3#8) := stackAddress_ne (by bv_omega)
  rw [rti, returnFromInterrupt_eq]
  refine ⟨fun h1 h2 h3 => ⟨_, _, memoryAfter_three s _ _ _ ne12 ne13 ne23, joinBytes_toNat _ _, ?_⟩, fun h1 => ?_,
    fun h1 h2 => ⟨_, memoryAfter_one s _ _, ?_⟩, fun h1 h2 h3 => ⟨_, memoryAfter_two s _ _ ne12, ?_⟩⟩
  · rw [h1, h2, h3]; rfl
  · rw [h1]; rfl
  · rw [h1, h2]; rfl
  · rw [h1, h2, h3]; rfl

end Sys2Proof.Machine

/-! PROOFS. The sample point's interrupts and what every step answers (60_exceptions.md R231, R241 to R245): a step that
takes an interrupt is the one entry of its kind, with an NMI latched, under the addressability of the three bytes it
pushes; a masked IRQ is no line of the sample point; and no line of a step answers anything but a next state. -/

namespace Sys2Proof.Machine

/-! ## The step that takes an interrupt -/

section entry

variable {s : State} (hrun : s.runState = .running) (hreset : s.sample.reset = false)
  (hstop : s.sample.stopRequest = false) (hpc : s.pc.toNat < s.platform.stopBoundary.toNat)
include hrun hreset hstop hpc

theorem step_nmi (hnmi : s.sample.nmiEdge = true ∨ s.nmiPending = true) :
    step s = conclude (some s.pc) (interruptEntry .nmi { s with inputs := s.inputs.tail, nmiPending := true }) := by
  rw [step_running hrun hreset, if_neg (by simp [hstop]), if_neg (Nat.not_le.2 hpc), if_pos (by simpa using hnmi)]

theorem step_irq (hedge : s.sample.nmiEdge = false) (hpending : s.nmiPending = false)
    (hirq : s.sample.irqLine = true) (hi : s.flag .i = false) :
    step s = conclude (some s.pc) (interruptEntry .irq { s with inputs := s.inputs.tail }) := by
  rw [step_running hrun hreset, if_neg (by simp [hstop]), if_neg (Nat.not_le.2 hpc),
    if_neg (by simp [hedge, hpending]), if_pos (by simp [hirq, hi])]

/-- Whatever the kind of the entry, it starts with the sample taken off and an NMI edge latched (R243, R245). -/
theorem step_interrupted (hi : s.interrupted) :
    ∃ k, step s = conclude (some s.pc) (interruptEntry k
      { s with nmiPending := s.sample.nmiEdge || s.nmiPending, inputs := s.inputs.tail }) := by
  by_cases hnmi : s.sample.nmiEdge = true ∨ s.nmiPending = true
  · have latched : (s.sample.nmiEdge || s.nmiPending) = true := by simpa using hnmi
    exact ⟨.nmi, by rw [step_nmi hrun hreset hstop hpc hnmi, latched]⟩
  · simp only [not_or, Bool.not_eq_true] at hnmi
    obtain ⟨hedge, hpending⟩ := hnmi
    obtain ⟨hirq, hmask⟩ : s.sample.irqLine = true ∧ s.flag .i = false := by
      simpa [State.interrupted, hedge, hpending] using hi
    exact ⟨.irq, by rw [step_irq hrun hreset hstop hpc hedge hpending hirq hmask, hedge, Bool.false_or]⟩

end entry

/-- Settles O39: both kinds push the hardware encoding of P, and differ in their vector and in nmi_pending. -/
theorem interruptEntryStep : Obligations.InterruptEntryStep := by
  intro s hrun hreset hstop hpc h0 h1 h2
  have ne01 : stackAddress s.sp ≠ stackAddress (s.sp - 1#8) := stackAddress_ne (by bv_omega)
  have ne02 : stackAddress s.sp ≠ stackAddress (s.sp - 2#8) := stackAddress_ne (by bv_omega)
  have ne12 : stackAddress (s.sp - 1#8) ≠ stackAddress (s.sp - 2#8) := stackAddress_ne (by bv_omega)
  rw [← highByte_eq, ← lowByte_eq]
  refine ⟨_, _, _, hardwareStatus_statusAfter s.p, memoryAfter_three s _ _ _ ne01 ne02 ne12,
    setFlag_statusAfter .i true s.p, fun hnmi => ?_, fun hedge hpending hirq hi => ?_⟩
  · rw [step_nmi hrun hreset hstop hpc hnmi, interruptEntry, takeInterrupt_eq, h0, h1, h2]
    rfl
  · rw [step_irq hrun hreset hstop hpc hedge hpending hirq hi, interruptEntry, takeInterrupt_eq, h0, h1, h2]
    rfl

/-- Settles O40: an entry of either kind faults with the push that does, before its own changes of the state. -/
theorem interruptEntryPushFault : Obligations.InterruptEntryPushFault := by
  intro s hrun hreset hstop hpc hi pending
  obtain ⟨k, hk⟩ := step_interrupted hrun hreset hstop hpc hi
  have ne01 : stackAddress s.sp ≠ stackAddress (s.sp - 1#8) := stackAddress_ne (by bv_omega)
  rw [hk, interruptEntry, takeInterrupt_eq, ← highByte_eq, ← lowByte_eq]
  refine ⟨fun h0 => ?_, fun h0 h1 => ⟨_, memoryAfter_one s _ _, ?_⟩,
    fun h0 h1 h2 => ⟨_, memoryAfter_two s _ _ ne01, ?_⟩⟩
  · rw [h0]; rfl
  · rw [h0, h1]; rfl
  · rw [h0, h1, h2]; rfl

/-! ## The masked IRQ -/

/-- With I set, the IRQ line of a sample is not looked at (R241). -/
theorem runningStep_masked {s : State} (hi : s.flag .i = true) (q : Sample) :
    runningStep q s = runningStep { q with irqLine := false } s := by
  have masked : (q.irqLine && !s.flag .i) = false := by rw [hi, Bool.not_true, Bool.and_false]
  rw [runningStep_eq, runningStep_eq, masked, Bool.false_and]

/-- A step with its sample at the head of the inputs. -/
theorem step_of_inputs {s : State} {q : Sample} {rest : List Sample} (h : s.inputs = q :: rest) :
    step s = stepWith q (s.withInputs rest) := by
  rw [step, oneStep, State.sample, h]
  rfl

/-- Settles O41: the two steps differ in the IRQ line of the sample alone, which only a running step could look at. -/
theorem maskedIrqIsIgnored : Obligations.MaskedIrqIsIgnored := by
  intro s q rest hi hinputs
  calc step s = stepWith q (s.withInputs rest) := step_of_inputs hinputs
    _ = stepWith { q with irqLine := false } (s.withInputs rest) := by
      rw [stepWith, stepWith, runningStep_masked (s := s.withInputs rest) hi]
    _ = step { s with inputs := { q with irqLine := false } :: rest } := rfl

/-! ## Every step answers a next state -/

theorem conclude_next (pc0 : Option Word) (e : Effect Unit) : ∃ t, conclude pc0 e = .next t := by
  cases e with
  | done _ t => exact ⟨t, rfl⟩
  | raised f t => exact ⟨raiseFault f pc0 t, rfl⟩

/-- An instruction answers as an effect does. -/
theorem exec_next (i : Instr) (s : State) : ∃ t, exec i s = .next t := by
  obtain ⟨e, he, -⟩ := exec_faults i s
  exact he ▸ instruction_next i.length s e

theorem instructionCycle_next (s : State) : ∃ t, instructionCycle s = .next t := by
  obtain ⟨a, h⟩ | ⟨i, n, pc, -, h⟩ := instructionCycle_runs s
  · exact ⟨_, h⟩
  · obtain ⟨t, ht⟩ := exec_next i (s.withPc pc)
    exact ⟨_, by rw [h, ht, retire_next]⟩

/-- A halt, an entry or an instruction cycle (R244). -/
theorem runningStep_next (q : Sample) (s : State) : ∃ t, runningStep q s = .next t := by
  rw [runningStep_eq]
  split
  · exact ⟨_, rfl⟩
  split
  · exact ⟨_, rfl⟩
  split
  · exact conclude_next _ _
  split
  · exact conclude_next _ _
  · exact instructionCycle_next s

theorem step_next (s : State) : ∃ t, step s = .next t := by
  rw [step_eq]
  split
  · exact conclude_next _ _
  split
  · exact runningStep_next _ _
  · exact ⟨_, rfl⟩

/-- Settles O52: a step is a reset, a running step or nothing, and each answers a next state. -/
theorem everyStepHasANextState : Obligations.EveryStepHasANextState := ⟨step_next, exec_next⟩

end Sys2Proof.Machine

/-! PROOFS. The step of a reset input (70_reset_and_hazards.md R270, R272, R273): it runs the sequence that a launch runs,
over the machine's own memory, platform and inputs to come, so it is that launch when the sequence completes, and ends at
the same fault when a vector read fails. -/

namespace Sys2Proof.Machine

/-- What one vector read gives is a matter of the memory and the platform alone, so a reset from any state reads what a
launch over them reads. Only a failed reset keeps anything of the state before it (log entry 10). -/
theorem reset_step_launch {s : State} (hreset : s.sample.reset = true) :
    ∃ t, step s = .next t ∧ t.runState = (launch s.platform s.mem s.inputs.tail).runState ∧
      (t.runState = .running → t = launch s.platform s.mem s.inputs.tail) := by
  have read (a : Word) : memRead16 a { State.reset with
      mem := s.mem, platform := s.platform, inputs := s.inputs.tail } = memRead16 a s := rfl
  rw [step_eq, if_pos hreset, resetSequence_eq, launch_eq]
  simp only [read, memRead16_withInputs]
  cases memRead16 0xFFFA#16 s with
  | error f => exact ⟨_, rfl, rfl, nofun⟩
  | ok nmi =>
    cases memRead16 0xFFFC#16 s with
    | error f => exact ⟨_, rfl, rfl, nofun⟩
    | ok reset =>
      cases memRead16 0xFFFE#16 s with
      | error f => exact ⟨_, rfl, rfl, nofun⟩
      | ok irq => exact ⟨_, rfl, rfl, fun _ => rfl⟩

/-- Settles O44: a reset that completes is the launch over the machine's memory, and every field that a launch does not
take over from the machine has its reset value. -/
theorem resetSetsEveryRegister : Obligations.ResetSetsEveryRegister := by
  intro s hreset haddr
  obtain ⟨t, hstep, hrun, hlaunch⟩ := reset_step_launch hreset
  obtain ⟨nmi, reset, irq, hnmi, hvec, hirq, eq⟩ :=
    launch_addressable (p := s.platform) (m := s.mem) (inputs := s.inputs.tail) haddr
  rw [eq] at hrun hlaunch
  exact ⟨nmi, reset, irq, hnmi, hvec, hirq, hstep.trans (congrArg _ (hlaunch hrun))⟩

/-- Settles O45: the fault is the one of the launch over the machine's memory, which no reset writes. -/
theorem failedVectorReadFaultsReset : Obligations.FailedVectorReadFaultsReset := by
  intro s a hreset ha hole before
  obtain ⟨t, hstep, hrun, -⟩ := reset_step_launch hreset
  obtain ⟨hmem, -, -⟩ := reset_step_frame hstep hreset
  exact ⟨t, hstep, hrun.trans (launch_hole ha hole before), fun b => by rw [byteAt, byteAt, hmem]⟩

end Sys2Proof.Machine
